-- ==== Sys2Proof/Word.lean ====
section
/-! DEFINITION. The machine words of modular_field_alu: the 32-bit port word and the fields of a command word
(spec/00_scope.md R8, spec/30_encoding.md R70, R71). -/

namespace Sys2Proof

/-- The word of the host port, of `N` and of `E`, and the command word: `W = 32` bits (R8, R54, R70). -/
abbrev Word := BitVec 32

/-- An index field of a command word: four bits, a plain unsigned number (R71). -/
abbrev Index := BitVec 4

/-- The opcode field, bits 31 to 24 (R71). -/
abbrev Opcode := BitVec 8

end Sys2Proof
end

