-- ==== Sys2Proof/Config.lean ====
section
/-! DEFINITION. What one build of the hardware fixes: the modulus `P` and the primitive root `G`
(spec/00_scope.md R4, R5). A pair that breaks their constraints is not this hardware and cannot be written down as a
`Params` (spec/93_implementation_defined.md U11). The machine is the reference instance (log entry 1). -/

namespace Sys2Proof

/-- A legal configuration (R4, R5). -/
structure Params where
  /-- The modulus `P` (R4). -/
  P : Nat
  /-- The primitive root `G` (R5). -/
  G : Nat
  /-- `P` is prime (R4). -/
  prime : Nat.Prime P
  /-- `P < 2^32` (R4, R8). -/
  P_lt : P < 2 ^ 32
  /-- `1 <= G` (R5). -/
  G_pos : 1 ≤ G
  /-- `G < P` (R5). -/
  G_lt : G < P
  /-- The least `e >= 1` with `G^e mod P = 1` is `e = P - 1` (R5). -/
  primitive : IsLeast {e : Nat | 1 ≤ e ∧ G ^ e % P = 1} (P - 1)

/-- A FieldElement: an integer in `[0, P)` (R9). That no operation can leave the range is the type's (log entry 7). -/
abbrev Elem (c : Params) := Fin c.P

/-- A Series: coefficients in order, index 0 first; its length is part of the value (R10). -/
abbrev Series (c : Params) := List (Elem c)

/-- The prime factors of `998244352 = 2^23 * 7 * 17` (the audit of R5). -/
theorem reference_factors (q : Nat) (hq : Nat.Prime q) (hd : q ∣ 998244352) : q = 2 ∨ q = 7 ∨ q = 17 := by
  have h : 998244352 = 2 ^ 23 * (7 * 17) := by norm_num
  rw [h] at hd
  rcases (Nat.Prime.dvd_mul hq).1 hd with h1 | h1
  · exact .inl ((Nat.prime_dvd_prime_iff_eq hq Nat.prime_two).1 (hq.dvd_of_dvd_pow h1))
  · rcases (Nat.Prime.dvd_mul hq).1 h1 with h2 | h2
    · exact .inr (.inl ((Nat.prime_dvd_prime_iff_eq hq (by norm_num)).1 h2))
    · exact .inr (.inr ((Nat.prime_dvd_prime_iff_eq hq (by norm_num)).1 h2))

/-- `3^(P-1) mod P = 1`. -/
theorem reference_pow_order : (3 : ZMod 998244353) ^ 998244352 = 1 := by reduce_mod_char

/-- The three powers of the audit of R5, none of which is 1. -/
theorem reference_pow_ne_one (q : Nat) (hq : Nat.Prime q) (hd : q ∣ 998244352) :
    (3 : ZMod 998244353) ^ (998244352 / q) ≠ 1 := by
  have h2 : (3 : ZMod 998244353) ^ 499122176 = 998244352 := by reduce_mod_char
  have h7 : (3 : ZMod 998244353) ^ 142606336 = 779057549 := by reduce_mod_char
  have h17 : (3 : ZMod 998244353) ^ 58720256 = 337827833 := by reduce_mod_char
  rcases reference_factors q hq hd with rfl | rfl | rfl
  · exact fun h => absurd (h2.symm.trans h) (by decide)
  · exact fun h => absurd (h7.symm.trans h) (by decide)
  · exact fun h => absurd (h17.symm.trans h) (by decide)

/-- 998244353 is prime (R4). -/
theorem reference_prime : Nat.Prime 998244353 :=
  lucas_primality 998244353 3 reference_pow_order reference_pow_ne_one

/-- 3 is a primitive root modulo 998244353 (R5). -/
theorem reference_primitive :
    IsLeast {e : Nat | 1 ≤ e ∧ 3 ^ e % 998244353 = 1} (998244353 - 1) := by
  have key : ∀ e : Nat, 3 ^ e % 998244353 = 1 ↔ (3 : ZMod 998244353) ^ e = 1 := by
    intro e
    have := ZMod.natCast_eq_natCast_iff (3 ^ e) 1 998244353
    push_cast at this
    rw [this]; rfl
  have order : orderOf (3 : ZMod 998244353) = 998244352 :=
    orderOf_eq_of_pow_and_pow_div_prime (by norm_num) reference_pow_order reference_pow_ne_one
  refine ⟨⟨by norm_num, (key _).2 reference_pow_order⟩, ?_⟩
  rintro e ⟨h1, h2⟩
  have := Nat.le_of_dvd h1 (order ▸ orderOf_dvd_of_pow_eq_one ((key e).1 h2))
  simpa using this

/-- The reference instance: `P = 998244353`, `G = 3` (R4, R5). -/
def reference : Params where
  P := 998244353
  G := 3
  prime := reference_prime
  P_lt := by norm_num
  G_pos := by norm_num
  G_lt := by norm_num
  primitive := reference_primitive

end Sys2Proof
end

