-- ==== Sys2Proof/Syntax.lean ====
section
/-! DEFINITION. The 14 commands of spec/opcode_table.json, each with the fields its format uses
(spec/30_encoding.md R71 to R73), and the notation of R80. -/

namespace Sys2Proof

/-- The direction flag of NTT, `imm` bit 0 (R72): 0 forward, 1 inverse (spec/41_ntt.md R117). -/
inductive Direction where
  | forward
  | inverse
deriving DecidableEq, Repr

/-- A command. An index field is held as the word has it, four bits; whether it names a register that exists is
`WellFormed` (R74). -/
inductive Instr where
  /-- FADD `Fd, Fa, Fb` (R101). -/
  | fadd (rd ra rb : Index)
  /-- FSUB `Fd, Fa, Fb` (R102). -/
  | fsub (rd ra rb : Index)
  /-- FMUL `Fd, Fa, Fb` (R103). -/
  | fmul (rd ra rb : Index)
  /-- FPOW `Fd, Fa` (R104). -/
  | fpow (rd ra : Index)
  /-- FINV `Fd, Fa` (R105). -/
  | finv (rd ra : Index)
  /-- BFLY `Fa, Fb, Fc` (R130). -/
  | bfly (ra rb rc : Index)
  /-- NTT `Vd, dir` (R131). -/
  | ntt (rd : Index) (dir : Direction)
  /-- CONV `Vd, Va, Vb` (R148). -/
  | conv (rd ra rb : Index)
  /-- DERIV `Vd, Va` (R152). -/
  | deriv (rd ra : Index)
  /-- INTEG `Vd, Va` (R156). -/
  | integ (rd ra : Index)
  /-- SINV `Vd, Va` (R168). -/
  | sinv (rd ra : Index)
  /-- SLOG `Vd, Va` (R177). -/
  | slog (rd ra : Index)
  /-- SEXP `Vd, Va` (R186). -/
  | sexp (rd ra : Index)
  /-- VRSZ `Vd, Va` (R190). -/
  | vrsz (rd ra : Index)
deriving DecidableEq, Repr

/-- The mnemonic of R73. -/
def Instr.mnemonic : Instr → String
  | .fadd _ _ _ => "FADD"
  | .fsub _ _ _ => "FSUB"
  | .fmul _ _ _ => "FMUL"
  | .fpow _ _ => "FPOW"
  | .finv _ _ => "FINV"
  | .bfly _ _ _ => "BFLY"
  | .ntt _ _ => "NTT"
  | .conv _ _ _ => "CONV"
  | .deriv _ _ => "DERIV"
  | .integ _ _ => "INTEG"
  | .sinv _ _ => "SINV"
  | .slog _ _ => "SLOG"
  | .sexp _ _ => "SEXP"
  | .vrsz _ _ => "VRSZ"

/-- The pseudo-instruction `NTTF Vd` (R81). -/
abbrev Instr.nttf (rd : Index) : Instr := .ntt rd .forward

/-- The pseudo-instruction `NTTI Vd` (R81). -/
abbrev Instr.ntti (rd : Index) : Instr := .ntt rd .inverse

end Sys2Proof
end

