-- ==== Sys2Proof/WellFormed.lean ====
section
/-! DEFINITION. The index ranges of a command's fields (spec/30_encoding.md R74). The unused fields of a format (R75)
are no part of an `Instr`: the decoder checks them. -/

namespace Sys2Proof

/-- A field of kind `F` is legal when its value is `0..7` (R74; there are eight registers, R21). -/
def isF (i : Index) : Bool := decide (i.toNat < 8)

/-- A field of kind `V` is legal when its value is `0..3` (R74; there are four buffers, R25). -/
def isV (i : Index) : Bool := decide (i.toNat < 4)

/-- The index checks of R74, by the kinds of R72. -/
def Instr.wf : Instr → Bool
  | .fadd rd ra rb => isF rd && isF ra && isF rb
  | .fsub rd ra rb => isF rd && isF ra && isF rb
  | .fmul rd ra rb => isF rd && isF ra && isF rb
  | .fpow rd ra => isF rd && isF ra
  | .finv rd ra => isF rd && isF ra
  | .bfly ra rb rc => isF ra && isF rb && isF rc
  | .ntt rd _ => isV rd
  | .conv rd ra rb => isV rd && isV ra && isV rb
  | .deriv rd ra => isV rd && isV ra
  | .integ rd ra => isV rd && isV ra
  | .sinv rd ra => isV rd && isV ra
  | .slog rd ra => isV rd && isV ra
  | .sexp rd ra => isV rd && isV ra
  | .vrsz rd ra => isV rd && isV ra

/-- Every index field names a register or buffer that exists (R74). -/
abbrev Instr.WellFormed (i : Instr) : Prop := i.wf = true

end Sys2Proof
end

