-- ==== Sys2Proof/Decode.lean ====
section
/-! DEFINITION. Reading and writing command words (spec/30_encoding.md R70 to R76, R79 to R81). The decoder is total: a
word is one well-formed command or is illegal, for a named reason. -/

namespace Sys2Proof

/-! The fields of a command word (table of R71). -/

/-- `bits[31:24]`. -/
def opcodeOf (w : Word) : Opcode := w.extractLsb' 24 8
/-- `bits[23:20]`. -/
def rdOf (w : Word) : Index := w.extractLsb' 20 4
/-- `bits[19:16]`. -/
def raOf (w : Word) : Index := w.extractLsb' 16 4
/-- `bits[15:12]`. -/
def rbOf (w : Word) : Index := w.extractLsb' 12 4
/-- `bits[11:8]`. -/
def rcOf (w : Word) : Index := w.extractLsb' 8 4
/-- `bits[7:0]`. -/
def immOf (w : Word) : BitVec 8 := w.extractLsb' 0 8

/-- Why a word is no command (R76). All of them are the one `IllegalCommand`; which of them is named cannot be observed
(R79; log entry 9). -/
inductive DecodeError where
  /-- `bits[31:24]` is none of the 14 opcodes (R73, R76). -/
  | reservedOpcode
  /-- A field the format does not use is not zero (R75). -/
  | unusedField
  /-- An index field names no register or buffer (R74). -/
  | indexRange
deriving DecidableEq, Repr

/-- R79 (2): the unused fields must be zero (R75), then the index fields in range (R74). -/
def checked (unusedZero : Bool) (i : Instr) : Except DecodeError Instr :=
  if unusedZero then (if i.wf then .ok i else .error .indexRange) else .error .unusedField

/-- Format FR3 and format VR3: `rc` and `imm` unused (R72). -/
def unusedZeroR3 (w : Word) : Bool := rcOf w == 0 && immOf w == 0
/-- Format FR2 and format VR2: `rb`, `rc` and `imm` unused (R72). -/
def unusedZeroR2 (w : Word) : Bool := rbOf w == 0 && rcOf w == 0 && immOf w == 0
/-- Format FB: `rd` and `imm` unused (R72). -/
def unusedZeroFB (w : Word) : Bool := rdOf w == 0 && immOf w == 0
/-- Format VT: `ra`, `rb`, `rc` and `imm bits[7:1]` unused (R72). -/
def unusedZeroVT (w : Word) : Bool :=
  raOf w == 0 && rbOf w == 0 && rcOf w == 0 && (immOf w).extractLsb' 1 7 == 0

/-- The direction flag: `imm` bit 0 (R72). -/
def directionOf (w : Word) : Direction := if (immOf w).getLsbD 0 then .inverse else .forward

/-- The decoder (R73 to R76, R79). -/
def decode (w : Word) : Except DecodeError Instr :=
  match (opcodeOf w).toNat with
  | 0x01 => checked (unusedZeroR3 w) (.fadd (rdOf w) (raOf w) (rbOf w))
  | 0x02 => checked (unusedZeroR3 w) (.fsub (rdOf w) (raOf w) (rbOf w))
  | 0x03 => checked (unusedZeroR3 w) (.fmul (rdOf w) (raOf w) (rbOf w))
  | 0x04 => checked (unusedZeroR2 w) (.fpow (rdOf w) (raOf w))
  | 0x05 => checked (unusedZeroR2 w) (.finv (rdOf w) (raOf w))
  | 0x10 => checked (unusedZeroFB w) (.bfly (raOf w) (rbOf w) (rcOf w))
  | 0x11 => checked (unusedZeroVT w) (.ntt (rdOf w) (directionOf w))
  | 0x20 => checked (unusedZeroR3 w) (.conv (rdOf w) (raOf w) (rbOf w))
  | 0x30 => checked (unusedZeroR2 w) (.deriv (rdOf w) (raOf w))
  | 0x31 => checked (unusedZeroR2 w) (.integ (rdOf w) (raOf w))
  | 0x40 => checked (unusedZeroR2 w) (.sinv (rdOf w) (raOf w))
  | 0x50 => checked (unusedZeroR2 w) (.slog (rdOf w) (raOf w))
  | 0x51 => checked (unusedZeroR2 w) (.sexp (rdOf w) (raOf w))
  | 0x60 => checked (unusedZeroR2 w) (.vrsz (rdOf w) (raOf w))
  | _ => .error .reservedOpcode

/-- A command word from its six fields (R71). -/
def wordOf (op : Opcode) (rd ra rb rc : Index) (imm : BitVec 8) : Word :=
  op ++ rd ++ ra ++ rb ++ rc ++ imm

/-- The opcode (R73). -/
def Instr.opcode : Instr → Opcode
  | .fadd _ _ _ => 0x01
  | .fsub _ _ _ => 0x02
  | .fmul _ _ _ => 0x03
  | .fpow _ _ => 0x04
  | .finv _ _ => 0x05
  | .bfly _ _ _ => 0x10
  | .ntt _ _ => 0x11
  | .conv _ _ _ => 0x20
  | .deriv _ _ => 0x30
  | .integ _ _ => 0x31
  | .sinv _ _ => 0x40
  | .slog _ _ => 0x50
  | .sexp _ _ => 0x51
  | .vrsz _ _ => 0x60

/-- `imm` of NTT (R72). -/
def Direction.imm : Direction → BitVec 8
  | .forward => 0
  | .inverse => 1

/-- The encoder: the word of a command, its unused fields zero (R71 to R73, R75). -/
def encode (i : Instr) : Word :=
  match i with
  | .fadd rd ra rb | .fsub rd ra rb | .fmul rd ra rb | .conv rd ra rb => wordOf i.opcode rd ra rb 0 0
  | .fpow rd ra | .finv rd ra => wordOf i.opcode rd ra 0 0 0
  | .bfly ra rb rc => wordOf i.opcode 0 ra rb rc 0
  | .ntt rd dir => wordOf i.opcode rd 0 0 0 dir.imm
  | .deriv rd ra | .integ rd ra | .sinv rd ra | .slog rd ra | .sexp rd ra | .vrsz rd ra =>
    wordOf i.opcode rd ra 0 0 0

/-- One row of the opcode map: a word `c` is a well-formed instance exactly when `c AND mask = match` (R73). -/
structure OpcodeRow where
  mnemonic : String
  pattern : Word
  mask : Word
deriving DecidableEq, Repr

/-- The `match` and `mask` columns of the table of R73. -/
def opcodeTable : List OpcodeRow :=
  [ ⟨"FADD", 0x01000000, 0xFF888FFF⟩, ⟨"FSUB", 0x02000000, 0xFF888FFF⟩, ⟨"FMUL", 0x03000000, 0xFF888FFF⟩,
    ⟨"FPOW", 0x04000000, 0xFF88FFFF⟩, ⟨"FINV", 0x05000000, 0xFF88FFFF⟩, ⟨"BFLY", 0x10000000, 0xFFF888FF⟩,
    ⟨"NTT", 0x11000000, 0xFFCFFFFE⟩, ⟨"CONV", 0x20000000, 0xFFCCCFFF⟩, ⟨"DERIV", 0x30000000, 0xFFCCFFFF⟩,
    ⟨"INTEG", 0x31000000, 0xFFCCFFFF⟩, ⟨"SINV", 0x40000000, 0xFFCCFFFF⟩, ⟨"SLOG", 0x50000000, 0xFFCCFFFF⟩,
    ⟨"SEXP", 0x51000000, 0xFFCCFFFF⟩, ⟨"VRSZ", 0x60000000, 0xFFCCFFFF⟩ ]

/-- A word is an instance of a row (R73). -/
def OpcodeRow.accepts (r : OpcodeRow) (w : Word) : Bool := w &&& r.mask == r.pattern

/-- The command word whose bits are `w`, as spec/opcode_table.json numbers them: there is one length, 32 bits (R70), and
the bits above `nbits` are 0 (log entry 13). -/
def tableWord (nbits w : Nat) : Word := BitVec.ofNat 32 (w % 2 ^ nbits)

/-- The command the decoder reads from the bits `w`. -/
def decodeTableWord (nbits w : Nat) : Option Instr :=
  match decode (tableWord nbits w) with
  | .ok i => some i
  | .error _ => none

/-! The notation of R80. -/

/-- `F0..F7`. -/
def fName (i : Index) : String := "F" ++ toString i.toNat
/-- `V0..V3`. -/
def vName (i : Index) : String := "V" ++ toString i.toNat

/-- The operands of a command in the order `rd, ra, rb, rc`, restricted to the fields its format uses (R80). -/
def Instr.operandNames : Instr → List String
  | .fadd rd ra rb | .fsub rd ra rb | .fmul rd ra rb => [fName rd, fName ra, fName rb]
  | .fpow rd ra | .finv rd ra => [fName rd, fName ra]
  | .bfly ra rb rc => [fName ra, fName rb, fName rc]
  | .ntt rd .forward => [vName rd, "0"]
  | .ntt rd .inverse => [vName rd, "1"]
  | .conv rd ra rb => [vName rd, vName ra, vName rb]
  | .deriv rd ra | .integ rd ra | .sinv rd ra | .slog rd ra | .sexp rd ra | .vrsz rd ra => [vName rd, vName ra]

/-- A command as R80 writes it. -/
def Instr.assembly (i : Instr) : String := i.mnemonic ++ " " ++ ", ".intercalate i.operandNames

end Sys2Proof
end

