-- ==== Sys2Proof/Machine/State.lean ====
section
/-! DEFINITION. The state of the machine as plain data (spec/10_state.md R20 to R41), the failure kinds a command can
report (spec/60_exceptions.md R201), and the machine right after reset. -/

namespace Sys2Proof.Machine

/-- The kinds of command failure (R201). A failure is no stop of the machine: it is recorded in `STATUS` and the next
access follows (R211, R213). -/
inductive FailureKind where
  /-- Code 1: the field inverse of zero (R202). -/
  | divisionByZero
  /-- Code 2: a convolution needs a transform longer than `2^K` (R203). -/
  | unsupportedLength
  /-- Code 3: series inverse of a series whose coefficient 0 is zero (R204). -/
  | singularInversion
  /-- Code 4: series exponential of a series whose coefficient 0 is not zero (R205). -/
  | invalidExpInput
  /-- Code 5: series logarithm of a series whose coefficient 0 is not one (R206). -/
  | invalidLogInput
  /-- Code 6: the inverse table does not cover the indices an integral needs (R207). -/
  | tableTooShort
  /-- Code 7: a length the operation is not defined for or cannot store (R208). -/
  | badLength
  /-- Code 8: the word is not a well-formed command (R209). -/
  | illegalCommand
deriving DecidableEq, Repr

/-- The reasons the machine stops: none. Every command ends (R244), every failure is recorded in `STATUS` (R211), and an
access the port cannot perform is dropped and completes normally (R61); log entry 12. -/
inductive Fault where
deriving DecidableEq, Repr

/-- The reasons the model gives an instruction no meaning. -/
inductive Refusal where
  /-- The instruction has no meaning in the model. Raised only by an arm of `exec` that says so, and no arm does. Safe: the
  model stops where the hardware goes on. -/
  | notModelled (mnemonic : String)
deriving DecidableEq, Repr

/-- A FieldElement of the reference instance (R9). -/
abbrev FieldElement := Elem reference

/-- A Series of the reference instance (R10). -/
abbrev CoeffSeries := Series reference

/-- The eight scalar field registers (R21). -/
structure FieldRegs where
  f0 : FieldElement
  f1 : FieldElement
  f2 : FieldElement
  f3 : FieldElement
  f4 : FieldElement
  f5 : FieldElement
  f6 : FieldElement
  f7 : FieldElement
deriving DecidableEq, Repr

/-- The four series buffers; the state of a buffer is one Series, its length included (R25, R26). -/
structure SeriesBufs where
  v0 : CoeffSeries
  v1 : CoeffSeries
  v2 : CoeffSeries
  v3 : CoeffSeries
deriving DecidableEq, Repr

/-- What can arrive from outside the machine. -/
inductive HostEvent where
  /-- `MemRead(addr, 1)` (R56). An address may have bits above `AW` (R51). -/
  | read (addr : Nat)
  /-- `MemWrite(addr, 1, v)` (R57). -/
  | write (addr : Nat) (v : Word)
  /-- `rst` sampled high while the engine is idle (R231). -/
  | reset
  /-- `rst` asserted while the command `c`, just written to `CMD`, is running (R233). -/
  | resetDuring (c : Word)
deriving DecidableEq, Repr

/-- The architectural state (R20), and two fields of the model's own. -/
structure State where
  /-- `F0..F7` (R21). -/
  f : FieldRegs
  /-- `E` (R23). -/
  e : Word
  /-- `N` (R24). -/
  n : Word
  /-- `V0..V3`, with their lengths `VLEN0..VLEN3` (R25, R26). -/
  v : SeriesBufs
  /-- `T`, with its length `TLEN`; the entry `T[i]`, `1 <= i <= TLEN`, stands at position `i - 1` (R27, R28). -/
  t : CoeffSeries
  /-- `STATUS.ERR` (R35). -/
  err : BitVec 4
  /-- `STATUS.AERR` (R36). -/
  aerr : Bool
  /-- `STATUS.ESTK` (R37). -/
  estk : Bool
  /-- The model's own: the host accesses and resets that have not happened yet, first to happen first (R63; log entry 2). -/
  pending : List HostEvent
  /-- The model's own: the words the port has returned to reads, oldest first (R56; log entry 3). -/
  replies : List Word
deriving DecidableEq, Repr

/-- The FieldElement 0. -/
def zeroElement : FieldElement := ⟨0, reference.prime.pos⟩

/-- The machine right after reset (R41, R231). -/
def State.reset : State where
  f := ⟨zeroElement, zeroElement, zeroElement, zeroElement, zeroElement, zeroElement, zeroElement, zeroElement⟩
  e := 0
  n := 0
  v := ⟨[], [], [], []⟩
  t := []
  err := 0
  aerr := false
  estk := false
  pending := []
  replies := []

end Sys2Proof.Machine
end

