-- ==== Sys2Proof/Machine/Flags.lean ====
section
/-! DEFINITION. The three fields of `STATUS`, the only flags there are (spec/10_state.md R34 to R37, R42;
spec/60_exceptions.md R201). -/

namespace Sys2Proof.Machine

/-- The code of a failure kind, the value `STATUS.ERR` takes (R201). -/
def failureCode : FailureKind → BitVec 4
  | .divisionByZero => 1
  | .unsupportedLength => 2
  | .singularInversion => 3
  | .invalidExpInput => 4
  | .invalidLogInput => 5
  | .tableTooShort => 6
  | .badLength => 7
  | .illegalCommand => 8

/-- What a read of `STATUS` returns: `bits[3:0] = ERR`, `bit 8 = AERR`, `bit 9 = ESTK`, every other bit 0 (R34). -/
def State.statusWord (s : State) : Word :=
  (0 : BitVec 22) ++ BitVec.ofBool s.estk ++ BitVec.ofBool s.aerr ++ (0 : BitVec 4) ++ s.err

/-- A host write of `STATUS`: write one to clear on bits 8 (`AERR`) and 9 (`ESTK`), every other bit ignored (R34). -/
def State.clearFlags (s : State) (v : Word) : State :=
  { s with aerr := s.aerr && !v.getLsbD 8, estk := s.estk && !v.getLsbD 9 }

/-- A success: `STATUS.ERR <- 0`; `ESTK` stays as it was (R35, R37). -/
def State.recordSuccess (s : State) : State := { s with err := 0 }

/-- A failure of kind `k`: `STATUS.ERR <- code(k)`, `STATUS.ESTK <- 1` (R35, R37). -/
def State.recordFailure (s : State) (k : FailureKind) : State := { s with err := failureCode k, estk := true }

/-- A dropped access: `STATUS.AERR <- 1` (R36, R61). -/
def State.recordDropped (s : State) : State := { s with aerr := true }

end Sys2Proof.Machine
end

