-- ==== Sys2Proof/Machine/Geometry.lean ====
section
/-! DEFINITION. What follows from the modulus: the longest transform, the capacity of a buffer and the width of an address
(spec/00_scope.md R6, R7; spec/20_memory.md R51). -/

namespace Sys2Proof.Machine

/-- The 2-adic valuation of `n`, for `0 < n < 2^fuel`: the largest `k` with `2^k` dividing `n` (R6). -/
def v2 : (fuel : Nat) → (n : Nat) → Nat
  | 0, _ => 0
  | fuel + 1, n => if n % 2 = 0 then v2 fuel (n / 2) + 1 else 0

/-- `K = v2(P - 1)` (R6); `P < 2^32`. -/
def logMax (c : Params) : Nat := v2 32 (c.P - 1)

/-- `CAP = 2^K`, the longest transform and the capacity of every buffer and of the table (R6, R7). -/
def cap (c : Params) : Nat := 2 ^ logMax c

/-- `OW = max(K + 1, 7)`, the width of an offset (R51). -/
def offsetWidth (c : Params) : Nat := max (logMax c + 1) 7

/-- `AW = OW + 4`, the width of a word address (R51). -/
def addressWidth (c : Params) : Nat := offsetWidth c + 4

end Sys2Proof.Machine
end

