-- ==== Sys2Proof/Machine/FieldAlu.lean ====
section
/-! DEFINITION. The block modular_field_alu (spec/40_field_alu.md R91 to R97, R100): five functions on FieldElements. Every
other block computes with these and nothing else. -/

namespace Sys2Proof.Machine

/-- The integer `x` as a FieldElement: `x mod P` (R97). -/
def elem (c : Params) (x : Nat) : Elem c := ⟨x % c.P, Nat.mod_lt x c.prime.pos⟩

/-- `fadd(x, y) = (x + y) mod P` (R91). -/
def fadd (c : Params) (x y : Elem c) : Elem c := elem c (x.val + y.val)

/-- `fsub(x, y) = (x - y) mod P`, the least non-negative residue (R92). -/
def fsub (c : Params) (x y : Elem c) : Elem c := elem c (if y.val ≤ x.val then x.val - y.val else x.val + c.P - y.val)

/-- `fmul(x, y) = (x * y) mod P`, the product formed exactly (R93). -/
def fmul (c : Params) (x y : Elem c) : Elem c := elem c (x.val * y.val)

/-- The loop of R94: `r` the accumulator, `b` the square, `e` what is left of the exponent. `fuel` bounds the iterations. -/
def fpowLoop (c : Params) : (fuel : Nat) → (r b : Elem c) → (e : Nat) → Elem c
  | 0, r, _, _ => r
  | fuel + 1, r, b, e =>
    if 0 < e then fpowLoop c fuel (if e % 2 = 1 then fmul c r b else r) (fmul c b b) (e / 2) else r

/-- `fpow(b, e) = b^e mod P` by binary exponentiation from the identity, so `fpow(b, 0) = 1 mod P` for every `b` (R94). The
loop halves `e`, so it runs at most `log2 e + 1` times. -/
def fpow (c : Params) (b : Elem c) (e : Nat) : Elem c := fpowLoop c (e.log2 + 1) (elem c 1) b e

/-- `finv(x)`: the zero test first, then `fpow(x, P - 2)` (R95). -/
def finv (c : Params) (x : Elem c) : Except FailureKind (Elem c) :=
  if x = elem c 0 then .error .divisionByZero else .ok (fpow c x (c.P - 2))

/-- `op` of the block: 0 add, 1 sub, 2 mul, 3 pow, 4 inv; 5 to 7 are never driven (R100). -/
inductive AluOp where
  | add
  | sub
  | mul
  | pow
  | inv
deriving DecidableEq, Repr

/-- The block's function: `r`, or `err`, which is 1 exactly when `op` is inv and `a = 0` (R100). `start` and `done` have no
place in a model without a clock (R243; log entry 11). -/
def alu (c : Params) (op : AluOp) (a b : Elem c) (e : Nat) : Except FailureKind (Elem c) :=
  match op with
  | .add => .ok (fadd c a b)
  | .sub => .ok (fsub c a b)
  | .mul => .ok (fmul c a b)
  | .pow => .ok (fpow c a e)
  | .inv => finv c a

end Sys2Proof.Machine
end

