-- ==== Sys2Proof/Machine/SeriesOps.lean ====
section
/-! DEFINITION. The two primitives on series that every engine uses (spec/00_scope.md R12, R13). -/

namespace Sys2Proof.Machine

/-- `coef(a, i)`: `a[i]` when stored, else 0 (R13). -/
def coef (c : Params) (a : Series c) (i : Nat) : Elem c := a.getD i (elem c 0)

/-- `resize(a, L)`: drop what is beyond `L`, or pad with zeros to `L` (R12). -/
def resize (c : Params) (a : Series c) (L : Nat) : Series c := a.take L ++ List.replicate (L - a.length) (elem c 0)

end Sys2Proof.Machine
end

