-- ==== Sys2Proof/Machine/Operands.lean ====
section
/-! DEFINITION. The operand forms of a command: an `F` register, a `V` buffer, and the implicit operands `N`, `E` and `T`
(spec/30_encoding.md R72, R74, R78; spec/10_state.md R21 to R28). No register is hardwired and none aliases another
(R21). -/

namespace Sys2Proof.Machine

/-- `F[i]`, `0 <= i < 8`. There is no other register: a command that names one is illegal before it reads anything (R74,
R76), so the value here at `i >= 8` is never used (log entry 14). -/
def FieldRegs.get (r : FieldRegs) (i : Nat) : FieldElement :=
  match i with
  | 0 => r.f0
  | 1 => r.f1
  | 2 => r.f2
  | 3 => r.f3
  | 4 => r.f4
  | 5 => r.f5
  | 6 => r.f6
  | 7 => r.f7
  | _ => zeroElement

/-- `F[i] <- x`. -/
def FieldRegs.set (r : FieldRegs) (i : Nat) (x : FieldElement) : FieldRegs :=
  match i with
  | 0 => { r with f0 := x }
  | 1 => { r with f1 := x }
  | 2 => { r with f2 := x }
  | 3 => { r with f3 := x }
  | 4 => { r with f4 := x }
  | 5 => { r with f5 := x }
  | 6 => { r with f6 := x }
  | 7 => { r with f7 := x }
  | _ => r

/-- `V[i]`, the whole series, `0 <= i < 4`; as for `F` there is no other buffer (log entry 14). -/
def SeriesBufs.get (r : SeriesBufs) (i : Nat) : CoeffSeries :=
  match i with
  | 0 => r.v0
  | 1 => r.v1
  | 2 => r.v2
  | 3 => r.v3
  | _ => []

/-- `V[i] <- a`: the whole series is replaced, its length included (R25). -/
def SeriesBufs.set (r : SeriesBufs) (i : Nat) (a : CoeffSeries) : SeriesBufs :=
  match i with
  | 0 => { r with v0 := a }
  | 1 => { r with v1 := a }
  | 2 => { r with v2 := a }
  | 3 => { r with v3 := a }
  | _ => r

/-- `F[i]`. -/
def State.readF (s : State) (i : Nat) : FieldElement := s.f.get i
/-- `F[i] <- x`. -/
def State.writeF (s : State) (i : Nat) (x : FieldElement) : State := { s with f := s.f.set i x }
/-- `V[i]`. -/
def State.readV (s : State) (i : Nat) : CoeffSeries := s.v.get i
/-- `V[i] <- a`. -/
def State.writeV (s : State) (i : Nat) (a : CoeffSeries) : State := { s with v := s.v.set i a }
/-- The exponent, the value of `E` (R23). -/
def State.exponent (s : State) : Nat := s.e.toNat
/-- The truncation length, the value of `N` (R24). -/
def State.truncation (s : State) : Nat := s.n.toNat
/-- `T[i]`, `1 <= i <= TLEN` (R27). -/
def State.tableEntry (s : State) (i : Nat) : FieldElement := coef reference s.t (i - 1)

end Sys2Proof.Machine
end

