-- ==== Sys2Proof/Machine/Transform.lean ====
section
/-! DEFINITION. The blocks ntt_twiddle_rom, ntt_butterfly and ntt_engine (spec/41_ntt.md). The transform is the in-place
algorithm of R117 to R121, not the sums of R123 (log entry 8). -/

namespace Sys2Proof.Machine

/-! The twiddle ROM. -/

/-- `ROM.ROOT[k] = fpow(G, (P - 1) / 2^k)` (R111). -/
def romRoot (c : Params) (k : Nat) : Elem c := fpow c (elem c c.G) ((c.P - 1) / 2 ^ k)

/-- `ROM.IROOT[k] = finv(ROM.ROOT[k])` (R112); a root of unity is not 0, so the zero test of `finv` never decides. -/
def romIroot (c : Params) (k : Nat) : Elem c := fpow c (romRoot c k) (c.P - 2)

/-- `ROM.NINV[k] = finv(2^k mod P)` (R113); `2^k mod P` is not 0 for `k <= K`. -/
def romNinv (c : Params) (k : Nat) : Elem c := fpow c (elem c (2 ^ k)) (c.P - 2)

/-- The block's port: `bank` 0 `ROOT`, 1 `IROOT`, 2 `NINV`; valid for `bank <= 2` and `k <= K` (R114). -/
def romData (c : Params) (bank k : Nat) : Option (Elem c) :=
  if k ≤ logMax c then
    match bank with
    | 0 => some (romRoot c k)
    | 1 => some (romIroot c k)
    | 2 => some (romNinv c k)
    | _ => none
  else none

/-! The butterfly. -/

/-- `butterfly(u, v, w) = (fadd(u, t), fsub(u, t))` where `t = fmul(v, w)` (R116, R126). -/
def butterfly (c : Params) (u v w : Elem c) : Elem c × Elem c :=
  let t := fmul c v w
  (fadd c u t, fsub c u t)

/-! The engine. -/

/-- `bitrev(i, s)`: the `s`-bit binary representation of `i` read backwards (R118). -/
def bitrev : (i s : Nat) → Nat
  | _, 0 => 0
  | i, s + 1 => i % 2 * 2 ^ s + bitrev (i / 2) s

/-- Step (a): `a'[i] = a[bitrev(i, s)]` for every `i < 2^s` (R118). -/
def bitReverse (c : Params) (s : Nat) (a : Series c) : Series c :=
  (List.range (2 ^ s)).map fun i => coef c a (bitrev i s)

/-- The butterflies of one block, on its lower and its upper half; the twiddle of the first pair is `w`, and each next one
is the last times `wlen` (R119, R120). -/
def blockButterflies (c : Params) (wlen : Elem c) : (w : Elem c) → (lower upper : Series c) → Series c × Series c
  | w, u :: us, v :: vs =>
    let p := butterfly c u v w
    let rest := blockButterflies c wlen (fmul c w wlen) us vs
    (p.1 :: rest.1, p.2 :: rest.2)
  | _, _, _ => ([], [])

/-- One pass over `blocks` blocks of length `2 * half` (R119). -/
def passBlocks (c : Params) (wlen : Elem c) (half : Nat) : (blocks : Nat) → Series c → Series c
  | 0, _ => []
  | blocks + 1, a =>
    let p := blockButterflies c wlen (elem c 1) (a.take half) ((a.drop half).take half)
    p.1 ++ p.2 ++ passBlocks c wlen half blocks (a.drop (2 * half))

/-- `wlen` of pass `t` (R119). -/
def passRoot (c : Params) (dir : Direction) (t : Nat) : Elem c :=
  match dir with
  | .forward => romRoot c t
  | .inverse => romIroot c t

/-- Step (b): the first `t` of the `s` passes, in order (R119, R125). Pass `t` works on blocks of length `2^t`. -/
def passes (c : Params) (dir : Direction) (s : Nat) : (t : Nat) → Series c → Series c
  | 0, a => a
  | t + 1, a => passBlocks c (passRoot c dir (t + 1)) (2 ^ t) (2 ^ (s - (t + 1))) (passes c dir s t a)

/-- The inverse direction scales every element by `NINV[s]` (R121). -/
def scaleInverse (c : Params) (dir : Direction) (s : Nat) (a : Series c) : Series c :=
  match dir with
  | .forward => a
  | .inverse => a.map fun x => fmul c x (romNinv c s)

/-- The engine, started only with `0 <= s <= K` on a buffer of length `2^s`; it cannot fail (R117 to R121, R127). -/
def nttEngine (c : Params) (dir : Direction) (s : Nat) (a : Series c) : Series c :=
  scaleInverse c dir s (passes c dir s s (bitReverse c s a))

/-- `n` is a power of two; 0 is not (R122). -/
def isPowerOfTwo (n : Nat) : Bool := n != 0 && 2 ^ n.log2 == n

/-- `ntt(a, dir)`: the length checks of R122, then the engine (R117). -/
def ntt (c : Params) (a : Series c) (dir : Direction) : Except FailureKind (Series c) :=
  if isPowerOfTwo a.length then
    if cap c < a.length then .error .unsupportedLength else .ok (nttEngine c dir a.length.log2 a)
  else .error .badLength

end Sys2Proof.Machine
end

