-- ==== Sys2Proof/Machine/Ops.lean ====
section
/-! DEFINITION. The shared operations: how a command ends (spec/30_encoding.md R82), how a failure is entered
(spec/60_exceptions.md R211; there is no return from one, R213), the host address space and its accesses
(spec/20_memory.md), and reset (spec/70_reset_and_hazards.md R231 to R233). -/

namespace Sys2Proof.Machine

/-! ## How a command ends -/

/-- Failure entry (R211): the code and the sticky bit, and nothing else; control goes nowhere. -/
def State.fail (s : State) (k : FailureKind) : Host.Outcome State Fault Refusal := .next (s.recordFailure k)

/-- The pseudocode of R82. `result` is the command's function evaluated on `s`, the state its sources are read in: on
success the state with the destinations written, on failure the kind. An ill-formed command fails with `IllegalCommand`
before anything else (R76, R79, R210; log entry 15). -/
def command (i : Instr) (s : State) (result : Except FailureKind State) : Host.Outcome State Fault Refusal :=
  if i.wf then
    match result with
    | .ok t => .next t.recordSuccess
    | .error k => s.fail k
  else s.fail .illegalCommand

/-- The commit of one scalar destination. -/
def commitF (s : State) (rd : Index) (result : Except FailureKind FieldElement) : Except FailureKind State :=
  match result with
  | .ok x => .ok (s.writeF rd.toNat x)
  | .error k => .error k

/-- The commit of one series destination: the whole series, its length included (R25). -/
def commitV (s : State) (rd : Index) (result : Except FailureKind CoeffSeries) : Except FailureKind State :=
  match result with
  | .ok a => .ok (s.writeV rd.toNat a)
  | .error k => .error k

/-! ## The host address space -/

/-- The mapped locations (R52, R53, and the names of R81). -/
inductive Location where
  /-- `ID` (R30). -/
  | id
  /-- `MODULUS` (R31). -/
  | modulus
  /-- `ROOT` (R32). -/
  | root
  /-- `LOGMAX` (R33). -/
  | logmax
  /-- `STATUS` (R34). -/
  | status
  /-- `CMD` (R38). -/
  | cmd
  /-- `N` (R24). -/
  | n
  /-- `E` (R23). -/
  | e
  /-- `TLEN` (R28). -/
  | tlen
  /-- `VLEN_i` (R26). -/
  | vlen (i : Nat)
  /-- `F_i` (R21). -/
  | f (i : Nat)
  /-- Region `i + 1`, offset `j`: coefficient `j` of `V_i` (R58). -/
  | coeff (i j : Nat)
  /-- Region 5, offset `j`: `T[j]` (R59). -/
  | table (j : Nat)
  /-- Region 6: the twiddle ROM (R60). -/
  | rom (offset : Nat)
deriving DecidableEq, Repr

/-- Region 0 (the table of R53). Every other offset is unmapped. -/
def csrAt (offset : Nat) : Option Location :=
  match offset with
  | 0x00 => some .id
  | 0x01 => some .modulus
  | 0x02 => some .root
  | 0x03 => some .logmax
  | 0x04 => some .status
  | 0x05 => some .cmd
  | 0x06 => some .n
  | 0x07 => some .e
  | 0x08 => some .tlen
  | _ =>
    if 0x10 ≤ offset ∧ offset < 0x14 then some (.vlen (offset - 0x10))
    else if 0x20 ≤ offset ∧ offset < 0x28 then some (.f (offset - 0x20))
    else none

/-- The location at a word address: `addr = region * 2^OW + offset` (R51, R52). Regions 7 to 15, and an address with a bit
set above `AW - 1`, are unmapped. -/
def locate (c : Params) (addr : Nat) : Option Location :=
  let offset := addr % 2 ^ offsetWidth c
  match addr / 2 ^ offsetWidth c with
  | 0 => csrAt offset
  | 1 => some (.coeff 0 offset)
  | 2 => some (.coeff 1 offset)
  | 3 => some (.coeff 2 offset)
  | 4 => some (.coeff 3 offset)
  | 5 => some (.table offset)
  | 6 => some (.rom offset)
  | _ => none

/-- The word address of a location (R51 to R53, R81). -/
def addressOf (c : Params) (l : Location) : Nat :=
  match l with
  | .id => 0x00
  | .modulus => 0x01
  | .root => 0x02
  | .logmax => 0x03
  | .status => 0x04
  | .cmd => 0x05
  | .n => 0x06
  | .e => 0x07
  | .tlen => 0x08
  | .vlen i => 0x10 + i
  | .f i => 0x20 + i
  | .coeff i j => (i + 1) * 2 ^ offsetWidth c + j
  | .table j => 5 * 2 ^ offsetWidth c + j
  | .rom offset => 6 * 2 ^ offsetWidth c + offset

/-- The value of `ID`, "MFA1" in ASCII (R30). -/
def idValue : Word := 0x4D464131

/-- A FieldElement zero-extended to a word (R56). -/
def wordOfElement (x : FieldElement) : Word := BitVec.ofNat 32 x.val

/-- The FieldElement a word is, when it is below `P`; the port does not reduce (R57). -/
def elementOfWord (v : Word) : Option FieldElement :=
  if h : v.toNat < reference.P then some ⟨v.toNat, h⟩ else none

/-- A read of the ROM region at `offset = bank * 32 + k` (R60): no entry from offset 96 on, nor for `k > K`. -/
def readRom (offset : Nat) : Option Word :=
  if offset < 96 then (romData reference (offset / 32) (offset % 32)).map wordOfElement else none

/-- What a read of a location returns; `none` where the read is dropped (R56, R58 to R60). -/
def State.readLocation (s : State) (l : Location) : Option Word :=
  match l with
  | .id => some idValue
  | .modulus => some (BitVec.ofNat 32 reference.P)
  | .root => some (BitVec.ofNat 32 reference.G)
  | .logmax => some (BitVec.ofNat 32 (logMax reference))
  | .status => some s.statusWord
  | .cmd => some 0
  | .n => some s.n
  | .e => some s.e
  | .tlen => some (BitVec.ofNat 32 s.t.length)
  | .vlen i => some (BitVec.ofNat 32 (s.readV i).length)
  | .f i => some (wordOfElement (s.readF i))
  | .coeff i j => if j < cap reference then some (wordOfElement (coef reference (s.readV i) j)) else none
  | .table j =>
    if j ≤ cap reference then some (if j = 0 then 0 else wordOfElement (s.tableEntry j)) else none
  | .rom offset => readRom offset

/-- What a write of `v` to a location leaves; `none` where the write is dropped (R57 to R61). `CMD` holds nothing (R38):
the command it carries is executed by `issue`. -/
def State.writeLocation (s : State) (l : Location) (v : Word) : Option State :=
  match l with
  | .status => some (s.clearFlags v)
  | .cmd => some s
  | .n => some { s with n := v }
  | .e => some { s with e := v }
  | .tlen => if v.toNat ≤ cap reference then some { s with t := resize reference s.t v.toNat } else none
  | .vlen i =>
    if v.toNat ≤ cap reference then some (s.writeV i (resize reference (s.readV i) v.toNat)) else none
  | .f i => (elementOfWord v).map (s.writeF i)
  | .coeff i j =>
    if j < (s.readV i).length then (elementOfWord v).map fun x => s.writeV i ((s.readV i).set j x) else none
  | .table j =>
    if 1 ≤ j ∧ j ≤ s.t.length then (elementOfWord v).map fun x => { s with t := s.t.set (j - 1) x } else none
  | .id | .modulus | .root | .logmax | .rom _ => none

/-- What a read of an address returns; `none` where the read is dropped. No read has another effect (R56, R62). -/
def State.peek (s : State) (addr : Nat) : Option Word := (locate reference addr).bind s.readLocation

/-- `MemRead(addr, 1)`: the word, or 0 and `AERR` for a dropped read (R56, R61). -/
def State.hostRead (s : State) (addr : Nat) : State :=
  match s.peek addr with
  | some w => { s with replies := s.replies ++ [w] }
  | none => { s.recordDropped with replies := s.replies ++ [0] }

/-- `MemWrite(addr, 1, v)` at every location but `CMD`: performed, or dropped with `AERR` and no other effect (R57, R61). -/
def State.hostStore (s : State) (addr : Nat) (v : Word) : State :=
  match (locate reference addr).bind fun l => s.writeLocation l v with
  | some t => t
  | none => s.recordDropped

/-- The address of `CMD` (R53). -/
def cmdAddress : Nat := addressOf reference .cmd

/-! ## Reset -/

/-- `rst` sampled high: the architectural state of R41, whatever was before and whatever was running (R231, R233). What the
host has still to do, and what it has been told, are not the hardware's (log entries 2, 3). -/
def State.applyReset (s : State) : State := { State.reset with pending := s.pending, replies := s.replies }

end Sys2Proof.Machine
end

