-- ==== Sys2Proof/Machine/ExecField.lean ====
section
/-! DEFINITION. The field commands FADD, FSUB, FMUL, FPOW, FINV (spec/40_field_alu.md R101 to R105). -/

namespace Sys2Proof.Machine

/-- FADD: `F[rd] <- fadd(F[ra], F[rb])` (R101). -/
def execFadd (rd ra rb : Index) (s : State) : Host.Outcome State Fault Refusal :=
  command (.fadd rd ra rb) s (commitF s rd (alu reference .add (s.readF ra.toNat) (s.readF rb.toNat) 0))

/-- FSUB: `F[rd] <- fsub(F[ra], F[rb])` (R102). -/
def execFsub (rd ra rb : Index) (s : State) : Host.Outcome State Fault Refusal :=
  command (.fsub rd ra rb) s (commitF s rd (alu reference .sub (s.readF ra.toNat) (s.readF rb.toNat) 0))

/-- FMUL: `F[rd] <- fmul(F[ra], F[rb])` (R103). -/
def execFmul (rd ra rb : Index) (s : State) : Host.Outcome State Fault Refusal :=
  command (.fmul rd ra rb) s (commitF s rd (alu reference .mul (s.readF ra.toNat) (s.readF rb.toNat) 0))

/-- FPOW: `F[rd] <- fpow(F[ra], E)` (R104). -/
def execFpow (rd ra : Index) (s : State) : Host.Outcome State Fault Refusal :=
  command (.fpow rd ra) s (commitF s rd (alu reference .pow (s.readF ra.toNat) zeroElement s.exponent))

/-- FINV: `F[rd] <- finv(F[ra])`, `DivisionByZero` when `F[ra] = 0` (R105). -/
def execFinv (rd ra : Index) (s : State) : Host.Outcome State Fault Refusal :=
  command (.finv rd ra) s (commitF s rd (alu reference .inv (s.readF ra.toNat) zeroElement 0))

end Sys2Proof.Machine
end

