-- ==== Sys2Proof/Machine/Calculus.lean ====
section
/-! DEFINITION. The calculus primitives (spec/43_calculus.md R151, R153, R154). -/

namespace Sys2Proof.Machine

/-- `derivative(a)`: `[0]` for a series of length at most 1, else `r[i] = (i + 1) * a[i + 1]` (R151). -/
def derivative (c : Params) (a : Series c) : Series c :=
  if a.length ≤ 1 then [elem c 0]
  else (List.range (a.length - 1)).map fun i => fmul c (elem c (i + 1)) (coef c a (i + 1))

/-- `integral(a, T)`: the table must cover `len(a)` (R154); then `r[0] = 0` and `r[i] = a[i - 1] * T[i]` for
`1 <= i <= len(a)` (R153). `T[i]` stands at position `i - 1` of `table`. -/
def integral (c : Params) (a table : Series c) : Except FailureKind (Series c) :=
  if table.length < a.length then .error .tableTooShort
  else .ok (elem c 0 :: List.zipWith (fmul c) a table)

end Sys2Proof.Machine
end

