-- ==== Sys2Proof/Machine/Convolver.lean ====
section
/-! DEFINITION. The block polynomial_convolver (spec/42_convolver.md R140 to R147): the only multiplication of series. -/

namespace Sys2Proof.Machine

/-- The smallest power of two that is at least `n` (R142). -/
def nextPow2 (n : Nat) : Nat := if n ≤ 1 then 1 else 2 ^ ((n - 1).log2 + 1)

/-- `convolve(a, b, nmax)` by the algorithm of R144: the degenerate case first (R146), then the size check (R143), then
three transforms. -/
def convolve (c : Params) (a b : Series c) (nmax : Nat) : Except FailureKind (Series c) :=
  if a.length = 0 ∨ b.length = 0 then .ok []
  else
    let full := a.length + b.length - 1
    let size := nextPow2 full
    if cap c < size then .error .unsupportedLength
    else do
      let fa ← ntt c (resize c a size) .forward
      let fb ← ntt c (resize c b size) .forward
      let r ← ntt c (List.zipWith (fmul c) fa fb) .inverse
      .ok (r.take (min nmax full))

end Sys2Proof.Machine
end

