-- ==== Sys2Proof/Machine/Inverter.lean ====
section
/-! DEFINITION. The block series_inverter (spec/44_series_inverter.md R160 to R169), and the Newton loop it shares with the
exponential. -/

namespace Sys2Proof.Machine

/-- The loop over the working precision: state `m`, transition `m -> min(N, 2m)`, terminal state `m = N` (R169, R184). The
new `m` is computed first and the step uses it (R165, R182). A failure inside a step ends the loop at once (R83). `fuel`
bounds the steps (log entry 10). -/
def newton {α : Type} (body : Nat → α → Except FailureKind α) (N : Nat) :
    (fuel : Nat) → (m : Nat) → α → Except FailureKind α
  | 0, _, x => .ok x
  | fuel + 1, m, x =>
    if m < N then do
      let y ← body (min N (2 * m)) x
      newton body N fuel (min N (2 * m)) y
    else .ok x

/-- Enough steps to reach `N` from `m = 1`: `m` at least doubles or reaches `N` (R166). -/
def newtonSteps (N : Nat) : Nat := N.log2 + 1

/-- `s = 2 * e0 - ab`: `s[0] = 2 - ab[0]`, `s[i] = -ab[i]` for `i > 0` (R165). -/
def newtonCorrection (c : Params) (ab : Series c) : Series c :=
  match ab with
  | [] => []
  | x :: xs => fsub c (elem c 2) x :: xs.map (fsub c (elem c 0))

/-- One step to precision `m` (R165). -/
def inverseStep (c : Params) (a : Series c) (m : Nat) (b : Series c) : Except FailureKind (Series c) := do
  let ab ← convolve c (resize c a m) b m
  convolve c b (newtonCorrection c ab) m

/-- `series_inverse(a, N)` (R161 to R166): `N = 0` first (R163), then the leading coefficient (R162), then the start
(R164) and the loop. -/
def seriesInverse (c : Params) (a : Series c) (N : Nat) : Except FailureKind (Series c) :=
  if N = 0 then .error .badLength
  else if coef c a 0 = elem c 0 then .error .singularInversion
  else do
    let b0 ← finv c (coef c a 0)
    newton (inverseStep c a) N (newtonSteps N) 1 [b0]

end Sys2Proof.Machine
end

