-- ==== Sys2Proof/Machine/LogExp.lean ====
section
/-! DEFINITION. The block series_log_exp_engine (spec/45_series_log_exp.md R171 to R188). -/

namespace Sys2Proof.Machine

/-- `series_log(a, N, T)` (R171 to R176): `N = 0` first (R173), then the leading coefficient (R172), then the steps of R174
in order. -/
def seriesLog (c : Params) (a : Series c) (N : Nat) (table : Series c) : Except FailureKind (Series c) :=
  if N = 0 then .error .badLength
  else if coef c a 0 ≠ elem c 1 then .error .invalidLogInput
  else do
    let ia ← seriesInverse c a N
    let p ← convolve c (derivative c a) ia (max 1 (N - 1))
    let r ← integral c p table
    .ok (resize c r N)

/-- `delta = f truncated to m - lg`, then `delta[0] += 1` (R182). -/
def expDelta (c : Params) (f lg : Series c) (m : Nat) : Series c :=
  match List.zipWith (fsub c) (resize c f m) lg with
  | [] => []
  | d :: ds => fadd c d (elem c 1) :: ds

/-- One step to precision `m`; the last product takes `g` at its previous length (R182). -/
def expStep (c : Params) (f table : Series c) (m : Nat) (g : Series c) : Except FailureKind (Series c) := do
  let lg ← seriesLog c (resize c g m) m table
  convolve c g (expDelta c f lg m) m

/-- `series_exp(f, N, T)` (R178 to R184): `N = 0` first (R180), then the leading coefficient (R179), then the start
`g = [1]` (R181) and the loop. -/
def seriesExp (c : Params) (f : Series c) (N : Nat) (table : Series c) : Except FailureKind (Series c) :=
  if N = 0 then .error .badLength
  else if coef c f 0 ≠ elem c 0 then .error .invalidExpInput
  else newton (expStep c f table) N (newtonSteps N) 1 [elem c 1]

/-- `op` of the block: 0 derivative, 1 integral, 2 log, 3 exp (R188). -/
inductive LogExpOp where
  | derivative
  | integral
  | log
  | exp
deriving DecidableEq, Repr

/-- The block's function: its inputs are the source series, `n` and the table (R188). -/
def logExpEngine (c : Params) (op : LogExpOp) (a : Series c) (n : Nat) (table : Series c) :
    Except FailureKind (Series c) :=
  match op with
  | .derivative => .ok (derivative c a)
  | .integral => integral c a table
  | .log => seriesLog c a n table
  | .exp => seriesExp c a n table

end Sys2Proof.Machine
end

