-- ==== Sys2Proof/Machine/ExecSeries.lean ====
section
/-! DEFINITION. The series commands CONV, DERIV, INTEG, SINV, SLOG, SEXP and VRSZ (spec/42_convolver.md R148,
spec/43_calculus.md R152, R156, spec/44_series_inverter.md R168, spec/45_series_log_exp.md R177, R186,
spec/46_resize.md R190). -/

namespace Sys2Proof.Machine

/-- CONV: `V[rd] <- convolve(V[ra], V[rb], N)` (R148). -/
def execConv (rd ra rb : Index) (s : State) : Host.Outcome State Fault Refusal :=
  command (.conv rd ra rb) s
    (commitV s rd (convolve reference (s.readV ra.toNat) (s.readV rb.toNat) s.truncation))

/-- DERIV: `V[rd] <- derivative(V[ra])` (R152). -/
def execDeriv (rd ra : Index) (s : State) : Host.Outcome State Fault Refusal :=
  command (.deriv rd ra) s (commitV s rd (logExpEngine reference .derivative (s.readV ra.toNat) 0 []))

/-- The function of INTEG: the capacity check of its destination comes before the integral's own check (R155, R156). -/
def integralToBuffer (c : Params) (a table : Series c) : Except FailureKind (Series c) :=
  if cap c < a.length + 1 then .error .badLength else logExpEngine c .integral a 0 table

/-- INTEG: `V[rd] <- integral(V[ra], T)` (R156). -/
def execInteg (rd ra : Index) (s : State) : Host.Outcome State Fault Refusal :=
  command (.integ rd ra) s (commitV s rd (integralToBuffer reference (s.readV ra.toNat) s.t))

/-- SINV: `V[rd] <- series_inverse(V[ra], N)` (R168). -/
def execSinv (rd ra : Index) (s : State) : Host.Outcome State Fault Refusal :=
  command (.sinv rd ra) s (commitV s rd (seriesInverse reference (s.readV ra.toNat) s.truncation))

/-- SLOG: `V[rd] <- series_log(V[ra], N, T)` (R177). -/
def execSlog (rd ra : Index) (s : State) : Host.Outcome State Fault Refusal :=
  command (.slog rd ra) s (commitV s rd (logExpEngine reference .log (s.readV ra.toNat) s.truncation s.t))

/-- SEXP: `V[rd] <- series_exp(V[ra], N, T)` (R186). -/
def execSexp (rd ra : Index) (s : State) : Host.Outcome State Fault Refusal :=
  command (.sexp rd ra) s (commitV s rd (logExpEngine reference .exp (s.readV ra.toNat) s.truncation s.t))

/-- The function of VRSZ: no buffer holds more than `CAP` coefficients (R190). -/
def resizeToBuffer (c : Params) (a : Series c) (N : Nat) : Except FailureKind (Series c) :=
  if cap c < N then .error .badLength else .ok (resize c a N)

/-- VRSZ: `V[rd] <- resize(V[ra], N)` (R190). -/
def execVrsz (rd ra : Index) (s : State) : Host.Outcome State Fault Refusal :=
  command (.vrsz rd ra) s (commitV s rd (resizeToBuffer reference (s.readV ra.toNat) s.truncation))

end Sys2Proof.Machine
end

