-- ==== Sys2Proof/Machine/ExecTransform.lean ====
section
/-! DEFINITION. The transform commands BFLY and NTT (spec/41_ntt.md R130, R131). -/

namespace Sys2Proof.Machine

/-- BFLY: the three reads, then the write of `F[ra]`, then the write of `F[rb]`, which prevails when `ra = rb` (R130). -/
def execBfly (ra rb rc : Index) (s : State) : Host.Outcome State Fault Refusal :=
  let p := butterfly reference (s.readF ra.toNat) (s.readF rb.toNat) (s.readF rc.toNat)
  command (.bfly ra rb rc) s (.ok ((s.writeF ra.toNat p.1).writeF rb.toNat p.2))

/-- NTT: `V[rd] <- ntt(V[rd], dir)` (R131). -/
def execNtt (rd : Index) (dir : Direction) (s : State) : Host.Outcome State Fault Refusal :=
  command (.ntt rd dir) s (commitV s rd (ntt reference (s.readV rd.toNat) dir))

end Sys2Proof.Machine
end

