-- ==== Sys2Proof/Machine/Dispatch.lean ====
section
/-! DEFINITION. The meaning of each command: one arm per constructor of `Instr` (the 14 rows of spec/opcode_table.json). -/

namespace Sys2Proof.Machine

def exec (i : Instr) (s : State) : Host.Outcome State Fault Refusal :=
  match i with
  | .fadd rd ra rb => Sys2Proof.Machine.execFadd rd ra rb s
  | .fsub rd ra rb => Sys2Proof.Machine.execFsub rd ra rb s
  | .fmul rd ra rb => Sys2Proof.Machine.execFmul rd ra rb s
  | .fpow rd ra => Sys2Proof.Machine.execFpow rd ra s
  | .finv rd ra => Sys2Proof.Machine.execFinv rd ra s
  | .bfly ra rb rc => Sys2Proof.Machine.execBfly ra rb rc s
  | .ntt rd dir => Sys2Proof.Machine.execNtt rd dir s
  | .conv rd ra rb => Sys2Proof.Machine.execConv rd ra rb s
  | .deriv rd ra => Sys2Proof.Machine.execDeriv rd ra s
  | .integ rd ra => Sys2Proof.Machine.execInteg rd ra s
  | .sinv rd ra => Sys2Proof.Machine.execSinv rd ra s
  | .slog rd ra => Sys2Proof.Machine.execSlog rd ra s
  | .sexp rd ra => Sys2Proof.Machine.execSexp rd ra s
  | .vrsz rd ra => Sys2Proof.Machine.execVrsz rd ra s

end Sys2Proof.Machine
end

