-- ==== Sys2Proof/Machine/Port.lean ====
section
/-! DEFINITION. The host port with commands: a write to `CMD` executes the command (spec/20_memory.md R57, R64;
spec/30_encoding.md R82), and what one event from outside does. -/

namespace Sys2Proof.Machine

/-- `MemWrite(CMD, 1, c)`: an illegal word fails at once; a well-formed command runs to completion (R76, R82). -/
def issue (c : Word) (s : State) : Host.Outcome State Fault Refusal :=
  match decode c with
  | .ok i => exec i s
  | .error _ => s.fail .illegalCommand

/-- `MemWrite(addr, 1, v)` (R57). -/
def hostWrite (addr : Nat) (v : Word) (s : State) : Host.Outcome State Fault Refusal :=
  if locate reference addr = some .cmd then issue v s else .next (s.hostStore addr v)

/-- One event from outside, completely (R63, R64). A reset during a command abandons it: it commits nothing, and the
pending write to `CMD` is lost (R233). -/
def perform (ev : HostEvent) (s : State) : Host.Outcome State Fault Refusal :=
  match ev with
  | .read addr => .next (s.hostRead addr)
  | .write addr v => hostWrite addr v s
  | .reset => .next s.applyReset
  | .resetDuring _ => .next s.applyReset

/-- The next thing that happens: the first event that has not happened yet. With none, the engine is idle and holds its
state (R222; log entry 4). -/
def advance (s : State) : Host.Outcome State Fault Refusal :=
  match s.pending with
  | [] => .next s
  | ev :: rest => perform ev { s with pending := rest }

end Sys2Proof.Machine
end

