-- ==== Sys2Proof/Machine/Step.lean ====
section
/-! DEFINITION. One step of the machine. There is no program counter and no fetch (spec/10_state.md R22): a step performs
the next event from outside, and a command is executed when the host writes it to `CMD` (log entry 2). -/

namespace Sys2Proof.Machine

/-- One step: the next event from outside, or nothing. -/
def step (s : State) : Host.Outcome State Fault Refusal := advance s

/-- `s` with a host write of the command word `w` to `CMD` as the very next event (log entry 2). -/
def State.withFetchWord (s : State) (nbits w : Nat) : State :=
  { s with pending := .write cmdAddress (tableWord nbits w) :: s.pending }

end Sys2Proof.Machine
end

