-- ==== Sys2Proof/Machine/HostDuties.lean ====
section
/-! DEFINITION. What the host has to supply before a command, as far as the spec writes it down: the inverse table
(spec/70_reset_and_hazards.md R235, R236). No command builds or checks it (R242). -/

namespace Sys2Proof.Machine

/-- The host's construction of `T[1..L]`: `T[1] = 1`, and `T[i] = fmul(fsub(0, (P div i) mod P), T[P mod i])` for
`i = 2 .. L` (R236). -/
def hostTable (c : Params) : (L : Nat) → Series c
  | 0 => []
  | L + 1 =>
    let t := hostTable c L
    if L = 0 then [elem c 1]
    else t ++ [fmul c (fsub c (elem c 0) (elem c (c.P / (L + 1)))) (coef c t (c.P % (L + 1) - 1))]

end Sys2Proof.Machine
end

