-- ==== Sys2Proof/Safety.lean ====
section
/-! DEFINITION. The terms claims use: the invariant of the state, the defining sums of the transform and of the product,
and which locations exist. -/

namespace Sys2Proof.Machine

/-- What holds of every state the machine reaches: a buffer and the table hold at most `CAP` entries
(spec/10_state.md R20, R25, R27), and `STATUS.ERR` is one of the codes of spec/60_exceptions.md R201. That every entry
and register is below `P` (spec/00_scope.md R9) is in their type. -/
structure State.Inv (s : State) : Prop where
  buffers : ∀ i, (s.readV i).length ≤ cap reference
  table : s.t.length ≤ cap reference
  code : s.err.toNat ≤ 8

/-- The locations that have an address (spec/20_memory.md R51 to R53). -/
def Location.Exists (c : Params) : Location → Prop
  | .vlen i => i < 4
  | .f i => i < 8
  | .coeff i j => i < 4 ∧ j < 2 ^ offsetWidth c
  | .table j => j < 2 ^ offsetWidth c
  | .rom offset => offset < 2 ^ offsetWidth c
  | _ => True

/-- The coefficient of `x^i` in `a(x) * b(x)`: the sum of R141 (spec/42_convolver.md), with implicit zeros (R13). -/
def productCoef (c : Params) (a b : Series c) (i : Nat) : Elem c :=
  elem c (∑ j ∈ Finset.range (i + 1), (coef c a j).val * (coef c b (i - j)).val)

/-- The sum `sum over j in 0..n-1 of a[j] * w^(j*k)` of R123 (spec/41_ntt.md), as a FieldElement. -/
def powerSum (c : Params) (a : Series c) (w : Elem c) (k : Nat) : Elem c :=
  elem c (∑ j ∈ Finset.range a.length, (coef c a j).val * w.val ^ (j * k))

/-- The defining sum of the transform (R123): `w = ROOT[s]` forward; `w^(-1) = IROOT[s]` and the factor `NINV[s]`
inverse. -/
def transformCoef (c : Params) (a : Series c) (dir : Direction) (s k : Nat) : Elem c :=
  match dir with
  | .forward => powerSum c a (romRoot c s) k
  | .inverse => fmul c (romNinv c s) (powerSum c a (romIroot c s) k)

/-- The entries `T[1] .. T[L]` are the inverses of `1 .. L` (spec/43_calculus.md R157, spec/70_reset_and_hazards.md
R242). -/
def tableCorrect (c : Params) (table : Series c) (L : Nat) : Prop :=
  L ≤ table.length ∧ ∀ i, 1 ≤ i → i ≤ L → finv c (elem c i) = .ok (coef c table (i - 1))

/-- The failure codes a command can report once well formed, in the order tested (the table of R210,
spec/60_exceptions.md). -/
def failuresOf : Instr → List FailureKind
  | .fadd _ _ _ | .fsub _ _ _ | .fmul _ _ _ | .fpow _ _ | .bfly _ _ _ | .deriv _ _ => []
  | .finv _ _ => [.divisionByZero]
  | .ntt _ _ => [.badLength]
  | .conv _ _ _ => [.unsupportedLength]
  | .integ _ _ => [.badLength, .tableTooShort]
  | .sinv _ _ => [.badLength, .singularInversion, .unsupportedLength]
  | .slog _ _ => [.badLength, .invalidLogInput, .unsupportedLength, .tableTooShort]
  | .sexp _ _ => [.badLength, .invalidExpInput, .unsupportedLength, .tableTooShort]
  | .vrsz _ _ => [.badLength]

/-- Two states agree on everything the command names or its rule lists as an implicit operand (spec/30_encoding.md R78,
spec/00_scope.md R16). -/
def operandsAgree (i : Instr) (s t : State) : Prop :=
  match i with
  | .fadd _ ra rb | .fsub _ ra rb | .fmul _ ra rb =>
    s.readF ra.toNat = t.readF ra.toNat ∧ s.readF rb.toNat = t.readF rb.toNat
  | .fpow _ ra => s.readF ra.toNat = t.readF ra.toNat ∧ s.e = t.e
  | .finv _ ra => s.readF ra.toNat = t.readF ra.toNat
  | .bfly ra rb rc =>
    s.readF ra.toNat = t.readF ra.toNat ∧ s.readF rb.toNat = t.readF rb.toNat ∧ s.readF rc.toNat = t.readF rc.toNat
  | .ntt rd _ => s.readV rd.toNat = t.readV rd.toNat
  | .conv _ ra rb => s.readV ra.toNat = t.readV ra.toNat ∧ s.readV rb.toNat = t.readV rb.toNat ∧ s.n = t.n
  | .deriv _ ra => s.readV ra.toNat = t.readV ra.toNat
  | .integ _ ra => s.readV ra.toNat = t.readV ra.toNat ∧ s.t = t.t
  | .sinv _ ra | .vrsz _ ra => s.readV ra.toNat = t.readV ra.toNat ∧ s.n = t.n
  | .slog _ ra | .sexp _ ra => s.readV ra.toNat = t.readV ra.toNat ∧ s.n = t.n ∧ s.t = t.t

/-- Two states agree on the destinations of the command (R72; R130 for BFLY). -/
def destinationsAgree (i : Instr) (s t : State) : Prop :=
  match i with
  | .fadd rd _ _ | .fsub rd _ _ | .fmul rd _ _ | .fpow rd _ | .finv rd _ => s.readF rd.toNat = t.readF rd.toNat
  | .bfly ra rb _ => s.readF ra.toNat = t.readF ra.toNat ∧ s.readF rb.toNat = t.readF rb.toNat
  | .ntt rd _ | .conv rd _ _ | .deriv rd _ | .integ rd _ | .sinv rd _ | .slog rd _ | .sexp rd _ | .vrsz rd _ =>
    s.readV rd.toNat = t.readV rd.toNat

end Sys2Proof.Machine
end

