-- ==== Sys2Proof/Certificates/Slice0/Obligations.lean ====
section
/-! DEFINITION. The statements for the provers, family by family in the order of spec/. "Completes" means that `exec`
answers a next state. `reference.P` is 998244353, `cap reference` is `2^23 = 8388608`. The fields `pending` and `replies`
are the model's own: the events that have not happened yet and the words the port has returned (log entries 2, 3). -/

open Sys2Proof Sys2Proof.Machine

/-! ## The configuration -/

/-- spec/00_scope.md R6: `K` is the largest `k` with `2^k` dividing `P - 1`, and for the reference instance it is 23,
the longest transform having 8388608 points. -/
def Obligations.LogMaxIsTheValuation : Prop :=
  (∀ c : Params, 2 ^ logMax c ∣ c.P - 1 ∧ ¬ 2 ^ (logMax c + 1) ∣ c.P - 1) ∧ logMax reference = 23 ∧
    cap reference = 8388608

/-! ## Command words -/

/-- Words of spec/30_encoding.md section 5, one for each format and more, decode to the commands written beside them. -/
def Obligations.SampleWordsDecode : Prop :=
  decode 0x01201000 = .ok (.fadd 2 0 1) ∧ decode 0x04100000 = .ok (.fpow 1 0) ∧
  decode 0x10001200 = .ok (.bfly 0 1 2) ∧ decode 0x11100001 = .ok (.ntt 1 .inverse) ∧
  decode 0x20201000 = .ok (.conv 2 0 1) ∧ decode 0x31320000 = .ok (.integ 3 2) ∧
  decode 0x40100000 = .ok (.sinv 1 0) ∧ decode 0x51300000 = .ok (.sexp 3 0) ∧
  decode 0x60000000 = .ok (.vrsz 0 0)

/-- spec/30_encoding.md R71: a word is the sum of its fields at their places, for the fields the decoder reads and for the
words the encoder makes. -/
def Obligations.CommandWordIsSumOfFields : Prop :=
  (∀ w : Word, w.toNat = (opcodeOf w).toNat * 2 ^ 24 + (rdOf w).toNat * 2 ^ 20 + (raOf w).toNat * 2 ^ 16 +
    (rbOf w).toNat * 2 ^ 12 + (rcOf w).toNat * 2 ^ 8 + (immOf w).toNat) ∧
  (∀ (op : Opcode) (rd ra rb rc : Index) (imm : BitVec 8), (wordOf op rd ra rb rc imm).toNat =
    op.toNat * 2 ^ 24 + rd.toNat * 2 ^ 20 + ra.toNat * 2 ^ 16 + rb.toNat * 2 ^ 12 + rc.toNat * 2 ^ 8 + imm.toNat)

/-- Decode and encode agree on every well-formed command, every operand at every value its field admits. -/
def Obligations.DecodeOfEncode : Prop :=
  ∀ i : Instr, i.WellFormed → decode (encode i) = .ok i

/-- A word the decoder accepts is the encoding of the one well-formed command it gives: no bit is ignored
(spec/30_encoding.md R75). -/
def Obligations.AcceptedWordIsTheEncoding : Prop :=
  ∀ (w : Word) (i : Instr), decode w = .ok i → i.WellFormed ∧ encode i = w

/-- spec/30_encoding.md R73: for each row of the opcode map, a word is an instance of its command exactly when
`c AND mask = match`; no word is an instance of two rows; every opcode outside the map is reserved. -/
def Obligations.OpcodeMapDecidesDecoding : Prop :=
  (∀ r ∈ opcodeTable, ∀ w : Word, r.accepts w = true ↔ ∃ i, decode w = .ok i ∧ i.mnemonic = r.mnemonic) ∧
  opcodeTable.Pairwise (fun r q => ∀ w : Word, ¬ (r.accepts w = true ∧ q.accepts w = true)) ∧
  (∀ w : Word, (∀ r ∈ opcodeTable, opcodeOf w ≠ opcodeOf r.pattern) → decode w = .error .reservedOpcode)

/-- spec/30_encoding.md R76, spec/60_exceptions.md R209: a word that is an instance of no row, written to `CMD`, fails with
`IllegalCommand` and changes nothing but `STATUS`; the all-zero word and `0xFFFFFFFF` are such words. -/
def Obligations.IllegalWordFails : Prop :=
  (∀ (c : Word) (s : State), (∀ r ∈ opcodeTable, r.accepts c = false) →
    hostWrite cmdAddress c s = .next { s with err := 8, estk := true }) ∧
  (∀ r ∈ opcodeTable, r.accepts 0x00000000 = false ∧ r.accepts 0xFFFFFFFF = false)

/-- A command with an index field out of range (spec/30_encoding.md R74), handed to `exec`, fails the same way. -/
def Obligations.IllFormedCommandFails : Prop :=
  ∀ (i : Instr) (s : State), ¬ i.WellFormed → exec i s = .next { s with err := 8, estk := true }

/-! ## The step -/

/-- A step runs the decoded command: when the next event is a host write of a command word to `CMD`, the step is `exec` of
the command it decodes to, on the state with that event taken away; and `withFetchWord` makes it the next event. -/
def Obligations.StepRunsDecodedCommand : Prop :=
  (∀ (s : State) (rest : List HostEvent) (w : Word) (i : Instr),
    s.pending = .write cmdAddress w :: rest → decode w = .ok i → step s = exec i { s with pending := rest }) ∧
  (∀ (s : State) (nbits w : Nat) (i : Instr),
    decodeTableWord nbits w = some i → step (s.withFetchWord nbits w) = exec i s)

/-- What a step does with every other kind of event (the model's own event list, log entry 2): nothing without one, a host
read, a host write to another address than `CMD`, and reset. -/
def Obligations.StepPerformsTheNextEvent : Prop :=
  ∀ (s : State) (rest : List HostEvent),
    (s.pending = [] → step s = .next s) ∧
    (∀ addr, s.pending = .read addr :: rest → step s = .next (State.hostRead { s with pending := rest } addr)) ∧
    (∀ addr v, s.pending = .write addr v :: rest → addr ≠ 5 →
      step s = .next (State.hostStore { s with pending := rest } addr v)) ∧
    (s.pending = .reset :: rest → step s = .next { State.reset with pending := rest, replies := s.replies }) ∧
    (∀ c, s.pending = .resetDuring c :: rest →
      step s = .next { State.reset with pending := rest, replies := s.replies })

/-- Nothing stops the machine (spec/70_reset_and_hazards.md R234, R244): every step answers a next state, and takes
exactly one event. -/
def Obligations.EveryStepAnswersAndTakesOneEvent : Prop :=
  ∀ s : State, ∃ t, step s = .next t ∧ t.pending = s.pending.tail

/-- spec/10_state.md R41, spec/70_reset_and_hazards.md R231 and R233: the state after reset, whatever was before and
whatever command was running; the constants and the ROM read their fixed values. That a reset is an event in a list, and
takes the abandoned write with it, is the model's form (log entries 2, 5). -/
def Obligations.ResetLeavesTheResetState : Prop :=
  ∀ (s : State) (rest : List HostEvent) (c : Word),
    (s.pending = .reset :: rest ∨ s.pending = .resetDuring c :: rest) →
    ∃ t, step s = .next t ∧ t.pending = rest ∧ (∀ i, i < 8 → (t.readF i).val = 0) ∧ t.e = 0 ∧ t.n = 0 ∧
      (∀ i, i < 4 → t.readV i = []) ∧
      t.t = [] ∧ t.err = 0 ∧ t.aerr = false ∧ t.estk = false ∧
      t.peek 0 = some 0x4D464131 ∧ t.peek 1 = some 998244353 ∧ t.peek 2 = some 3 ∧ t.peek 3 = some 23 ∧
      (∀ k, k ≤ 23 → t.peek (6 * 2 ^ 24 + k) = some (BitVec.ofNat 32 (romRoot reference k).val) ∧
        t.peek (6 * 2 ^ 24 + 32 + k) = some (BitVec.ofNat 32 (romIroot reference k).val) ∧
        t.peek (6 * 2 ^ 24 + 64 + k) = some (BitVec.ofNat 32 (romNinv reference k).val))

/-- The invariant of the state holds right after reset. -/
def Obligations.ResetHasTheInvariant : Prop := State.reset.Inv

/-- Every step keeps the invariant: no buffer and no table outgrows `CAP`, `STATUS.ERR` stays a code of
spec/60_exceptions.md R201. -/
def Obligations.EveryStepKeepsTheInvariant : Prop :=
  ∀ s t : State, s.Inv → step s = .next t → t.Inv

/-! ## The host port -/

/-- Every location that exists is found at its address, and an address leads only to the location it is the address of
(spec/20_memory.md section 1). -/
def Obligations.LocationsAndAddressesAgree : Prop :=
  ∀ c : Params, (∀ l : Location, l.Exists c → locate c (addressOf c l) = some l) ∧
    (∀ (addr : Nat) (l : Location), locate c addr = some l → l.Exists c ∧ addressOf c l = addr)

/-- What a host read of each location returns (spec/20_memory.md R56, R58 to R60), `none` standing for a dropped read; a
read that is not dropped changes no state but what the host has been told (R62). -/
def Obligations.ReadsReturnTheLocation : Prop :=
  ∀ s : State,
    s.peek 0x00 = some 0x4D464131 ∧ s.peek 0x01 = some 998244353 ∧ s.peek 0x02 = some 3 ∧ s.peek 0x03 = some 23 ∧
    s.peek 0x04 = some s.statusWord ∧ s.peek 0x05 = some 0 ∧ s.peek 0x06 = some s.n ∧ s.peek 0x07 = some s.e ∧
    s.peek 0x08 = some (BitVec.ofNat 32 s.t.length) ∧
    (∀ i, i < 4 → s.peek (0x10 + i) = some (BitVec.ofNat 32 (s.readV i).length)) ∧
    (∀ i, i < 8 → s.peek (0x20 + i) = some (BitVec.ofNat 32 (s.readF i).val)) ∧
    (∀ i j, i < 4 → j < 2 ^ 24 → s.peek ((i + 1) * 2 ^ 24 + j) =
      if h : j < (s.readV i).length ∧ j < 8388608 then some (BitVec.ofNat 32 ((s.readV i)[j]'h.1).val)
      else if j < 8388608 then some 0 else none) ∧
    (∀ j, j < 2 ^ 24 → s.peek (5 * 2 ^ 24 + j) =
      if h : 1 ≤ j ∧ j - 1 < s.t.length ∧ j ≤ 8388608 then some (BitVec.ofNat 32 ((s.t)[j - 1]'h.2.1).val)
      else if j ≤ 8388608 then some 0 else none) ∧
    (∀ bank k, k < 32 → bank * 32 + k < 2 ^ 24 → s.peek (6 * 2 ^ 24 + (bank * 32 + k)) =
      if 23 < k then none
      else if bank = 0 then some (BitVec.ofNat 32 (romRoot reference k).val)
      else if bank = 1 then some (BitVec.ofNat 32 (romIroot reference k).val)
      else if bank = 2 then some (BitVec.ofNat 32 (romNinv reference k).val) else none) ∧
    (∀ addr w, s.peek addr = some w → s.hostRead addr = { s with replies := s.replies ++ [w] })

/-- The host writes that store (spec/20_memory.md R57 to R59): `N`, `E`, an `F` register, a coefficient, a table entry. -/
def Obligations.WritesStore : Prop :=
  ∀ (s : State) (v : Word),
    hostWrite 0x06 v s = .next { s with n := v } ∧
    hostWrite 0x07 v s = .next { s with e := v } ∧
    (∀ i, i < 8 → ∀ h : v.toNat < reference.P, hostWrite (0x20 + i) v s = .next (s.writeF i ⟨v.toNat, h⟩)) ∧
    (∀ i j, i < 4 → j < 2 ^ 24 → j < (s.readV i).length → ∀ h : v.toNat < reference.P,
      hostWrite ((i + 1) * 2 ^ 24 + j) v s = .next (s.writeV i ((s.readV i).set j ⟨v.toNat, h⟩))) ∧
    (∀ j, 1 ≤ j → j < 2 ^ 24 → j ≤ s.t.length → ∀ h : v.toNat < reference.P,
      hostWrite (5 * 2 ^ 24 + j) v s = .next { s with t := s.t.set (j - 1) ⟨v.toNat, h⟩ })

/-- spec/10_state.md R26 and R28: a length register reads as the length; a write of a length `L <= CAP`
resizes with zero fill, and a write of a longer one is dropped. -/
def Obligations.LengthWritesResize : Prop :=
  ∀ (s : State) (v : Word),
    (∀ i, i < 4 → v.toNat ≤ 8388608 → ∃ t, hostWrite (0x10 + i) v s = .next t ∧ t = s.writeV i (t.readV i) ∧
      (t.readV i).length = v.toNat ∧
      (∀ j, j < v.toNat → j < (s.readV i).length → (t.readV i)[j]? = (s.readV i)[j]?) ∧
      (∀ j, j < v.toNat → (s.readV i).length ≤ j → (t.readV i)[j]? = some zeroElement)) ∧
    (∀ i, i < 4 → 8388608 < v.toNat → hostWrite (0x10 + i) v s = .next { s with aerr := true }) ∧
    (v.toNat ≤ 8388608 → ∃ t, hostWrite 0x08 v s = .next t ∧ t = { s with t := t.t } ∧ t.t.length = v.toNat ∧
      (∀ j, j < v.toNat → j < s.t.length → t.t[j]? = s.t[j]?) ∧
      (∀ j, j < v.toNat → s.t.length ≤ j → t.t[j]? = some zeroElement)) ∧
    (8388608 < v.toNat → hostWrite 0x08 v s = .next { s with aerr := true }) ∧
    (∀ i, i < 4 → s.peek (0x10 + i) = some (BitVec.ofNat 32 (s.readV i).length)) ∧
    s.peek 0x08 = some (BitVec.ofNat 32 s.t.length)

/-- spec/10_state.md R34: the layout of `STATUS`, which a read returns, and write one to clear on bits 8 and 9;
the write is never dropped. -/
def Obligations.StatusLayoutAndClear : Prop :=
  ∀ (s : State) (v : Word),
    s.statusWord.toNat = s.err.toNat + (if s.aerr then 256 else 0) + (if s.estk then 512 else 0) ∧
    s.hostRead 0x04 = { s with replies := s.replies ++ [s.statusWord] } ∧
    hostWrite 0x04 v s = .next { s with
      aerr := if v.getLsbD 8 then false else s.aerr
      estk := if v.getLsbD 9 then false else s.estk }

/-- spec/20_memory.md R61: the accesses the port does not perform. A dropped write changes nothing but `AERR`; a dropped
read returns 0 and sets `AERR`. -/
def Obligations.DroppedAccesses : Prop :=
  ∀ (s : State) (v : Word),
    (∀ addr, (7 * 2 ^ 24 ≤ addr ∨ (0x09 ≤ addr ∧ addr ≤ 0x0F) ∨ (0x14 ≤ addr ∧ addr ≤ 0x1F) ∨
        (0x28 ≤ addr ∧ addr < 2 ^ 24)) →
      hostWrite addr v s = .next { s with aerr := true } ∧
      s.hostRead addr = { s with aerr := true, replies := s.replies ++ [0] }) ∧
    (∀ addr, addr ≤ 0x03 → hostWrite addr v s = .next { s with aerr := true }) ∧
    (∀ i, i < 4 → 8388608 < v.toNat → hostWrite (0x10 + i) v s = .next { s with aerr := true }) ∧
    (8388608 < v.toNat → hostWrite 0x08 v s = .next { s with aerr := true }) ∧
    (∀ j, j < 2 ^ 24 → hostWrite (6 * 2 ^ 24 + j) v s = .next { s with aerr := true }) ∧
    (∀ i, i < 8 → reference.P ≤ v.toNat → hostWrite (0x20 + i) v s = .next { s with aerr := true }) ∧
    (∀ i j, i < 4 → j < 2 ^ 24 → ((s.readV i).length ≤ j ∨ reference.P ≤ v.toNat) →
      hostWrite ((i + 1) * 2 ^ 24 + j) v s = .next { s with aerr := true }) ∧
    (∀ j, j < 2 ^ 24 → (j = 0 ∨ s.t.length < j ∨ reference.P ≤ v.toNat) →
      hostWrite (5 * 2 ^ 24 + j) v s = .next { s with aerr := true }) ∧
    (∀ i j, i < 4 → 8388608 ≤ j → j < 2 ^ 24 →
      s.hostRead ((i + 1) * 2 ^ 24 + j) = { s with aerr := true, replies := s.replies ++ [0] }) ∧
    (∀ j, 8388608 < j → j < 2 ^ 24 →
      s.hostRead (5 * 2 ^ 24 + j) = { s with aerr := true, replies := s.replies ++ [0] }) ∧
    (∀ j, j < 2 ^ 24 → (96 ≤ j ∨ 23 < j % 32) →
      s.hostRead (6 * 2 ^ 24 + j) = { s with aerr := true, replies := s.replies ++ [0] })

/-- spec/10_state.md R36 and R37: only a host write of 1 to bit 8 of `STATUS`, or reset, clears `AERR`; only a host write
of 1 to bit 9, or reset, clears `ESTK`; no command touches `AERR`. -/
def Obligations.StickyFlagsClearedOnlyByTheHost : Prop :=
  (∀ s t : State, step s = .next t → s.aerr = true → t.aerr = false →
    ∃ rest, (∃ v, s.pending = .write 0x04 v :: rest ∧ v.getLsbD 8 = true) ∨ s.pending = .reset :: rest ∨
      ∃ c, s.pending = .resetDuring c :: rest) ∧
  (∀ s t : State, step s = .next t → s.estk = true → t.estk = false →
    ∃ rest, (∃ v, s.pending = .write 0x04 v :: rest ∧ v.getLsbD 9 = true) ∨ s.pending = .reset :: rest ∨
      ∃ c, s.pending = .resetDuring c :: rest) ∧
  (∀ (i : Instr) (s t : State), exec i s = .next t → t.aerr = s.aerr)

/-! ## Outcomes of commands -/

/-- spec/60_exceptions.md R211 and R212: a failed command records its code and sets `ESTK`, and changes nothing else; a
command that succeeds leaves `ERR = 0` and `ESTK` as it was (spec/10_state.md R35, R37). -/
def Obligations.FailedCommandChangesOnlyStatus : Prop :=
  ∀ (i : Instr) (s t : State), exec i s = .next t →
    (t.err ≠ 0 → ∃ k, t = { s with err := failureCode k, estk := true }) ∧ (t.err = 0 → t.estk = s.estk)

/-- The table of spec/60_exceptions.md R210: a well-formed command reports no other failure than its row lists, in every
state that meets the invariant (a buffer longer than `CAP` could make NTT report `UnsupportedLength`). -/
def Obligations.CommandReportsOnlyItsFailures : Prop :=
  ∀ (i : Instr) (s t : State), s.Inv → i.WellFormed → exec i s = .next t → t.err ≠ 0 →
    ∃ k ∈ failuresOf i, t.err = failureCode k

/-- spec/00_scope.md R16: the outcome of a command depends only on the operands it names and on the implicit operands of
its rule. -/
def Obligations.CommandReadsOnlyItsOperands : Prop :=
  ∀ (i : Instr) (s s' t t' : State), i.WellFormed → operandsAgree i s s' → exec i s = .next t → exec i s' = .next t' →
    t.err = t'.err ∧ (t.err = 0 → destinationsAgree i t t')

/-! ## The field ALU -/

/-- spec/40_field_alu.md R91, R92, R93: addition, subtraction and multiplication modulo `P`. -/
def Obligations.FieldOperationsReduce : Prop :=
  ∀ (c : Params) (x y : Elem c),
    (fadd c x y).val = (x.val + y.val) % c.P ∧
    (fadd c x y).val = (if x.val + y.val < c.P then x.val + y.val else x.val + y.val - c.P) ∧
    ((fsub c x y).val : Int) = ((x.val : Int) - (y.val : Int)) % (c.P : Int) ∧
    (fsub c x y).val = (if y.val ≤ x.val then x.val - y.val else x.val + c.P - y.val) ∧
    (fsub c (elem c 0) y).val = (if y.val = 0 then 0 else c.P - y.val) ∧
    (fmul c x y).val = x.val * y.val % c.P

/-- spec/40_field_alu.md R94: the loop computes `b^e mod P`; exponent 0 gives 1 for every base; base 0 gives 0 for every
other exponent. -/
def Obligations.FpowIsThePower : Prop :=
  ∀ (c : Params) (b : Elem c) (e : Nat),
    (fpow c b e).val = b.val ^ e % c.P ∧ (fpow c b 0).val = 1 ∧ (1 ≤ e → (fpow c (elem c 0) e).val = 0)

/-- spec/40_field_alu.md R95: `finv` fails on 0 and is otherwise `fpow(x, P - 2)`, the unique inverse. -/
def Obligations.FinvIsTheInverse : Prop :=
  ∀ c : Params, finv c (elem c 0) = .error .divisionByZero ∧
    ∀ x : Elem c, x ≠ elem c 0 → finv c x = .ok (fpow c x (c.P - 2)) ∧
      fmul c x (fpow c x (c.P - 2)) = elem c 1 ∧ ∀ y, fmul c x y = elem c 1 → y = fpow c x (c.P - 2)

/-- The ring laws of spec/40_field_alu.md R96. -/
def Obligations.FieldRingLaws : Prop :=
  ∀ (c : Params) (x y z : Elem c),
    fadd c x y = fadd c y x ∧ fadd c (fadd c x y) z = fadd c x (fadd c y z) ∧
    fmul c x y = fmul c y x ∧ fmul c (fmul c x y) z = fmul c x (fmul c y z) ∧
    fmul c x (fadd c y z) = fadd c (fmul c x y) (fmul c x z) ∧
    fadd c x (elem c 0) = x ∧ fmul c x (elem c 1) = x ∧ fmul c x (elem c 0) = elem c 0 ∧
    fsub c x y = fadd c x (fsub c (elem c 0) y) ∧ fsub c x x = elem c 0

/-- FADD, FSUB and FMUL (R101 to R103) complete on every state with the sum, the difference and the product. -/
def Obligations.FaddFsubFmulComplete : Prop :=
  ∀ (rd ra rb : Index) (s : State), rd.toNat < 8 → ra.toNat < 8 → rb.toNat < 8 →
    (∃ x : FieldElement, x.val = ((s.readF ra.toNat).val + (s.readF rb.toNat).val) % 998244353 ∧
      exec (.fadd rd ra rb) s = .next { s.writeF rd.toNat x with err := 0 }) ∧
    (∃ x : FieldElement, (x.val : Int) = (((s.readF ra.toNat).val : Int) - (s.readF rb.toNat).val) % 998244353 ∧
      exec (.fsub rd ra rb) s = .next { s.writeF rd.toNat x with err := 0 }) ∧
    (∃ x : FieldElement, x.val = (s.readF ra.toNat).val * (s.readF rb.toNat).val % 998244353 ∧
      exec (.fmul rd ra rb) s = .next { s.writeF rd.toNat x with err := 0 })

/-- FPOW (R104) completes on every state with the power, the exponent used as it stands. -/
def Obligations.FpowCompletes : Prop :=
  ∀ (rd ra : Index) (s : State), rd.toNat < 8 → ra.toNat < 8 →
    ∃ x : FieldElement, x.val = (s.readF ra.toNat).val ^ s.e.toNat % 998244353 ∧
      exec (.fpow rd ra) s = .next { s.writeF rd.toNat x with err := 0 }

/-- FINV (R105) completes with the inverse when the source is not 0, and fails with code 1 exactly when it is. -/
def Obligations.FinvCompletesOrFails : Prop :=
  ∀ (rd ra : Index) (s : State), rd.toNat < 8 → ra.toNat < 8 →
    ((s.readF ra.toNat).val ≠ 0 → ∃ x : FieldElement, (s.readF ra.toNat).val * x.val % 998244353 = 1 ∧
      exec (.finv rd ra) s = .next { s.writeF rd.toNat x with err := 0 }) ∧
    ((s.readF ra.toNat).val = 0 → exec (.finv rd ra) s = .next { s with err := 1, estk := true })

/-- The frame of FADD, FSUB, FMUL, FPOW and FINV: every register but `F[rd]`, every buffer, the table, `N`, `E` and `AERR`
keep their values, and every address but those of `F[rd]` and `STATUS` reads as before. -/
def Obligations.FieldCommandFrame : Prop :=
  ∀ (i : Instr) (rd ra rb : Index) (s t : State),
    (i = .fadd rd ra rb ∨ i = .fsub rd ra rb ∨ i = .fmul rd ra rb ∨ i = .fpow rd ra ∨ i = .finv rd ra) →
    exec i s = .next t →
    (∀ j, j ≠ rd.toNat → t.readF j = s.readF j) ∧ t.e = s.e ∧ t.n = s.n ∧ (∀ j, t.readV j = s.readV j) ∧ t.t = s.t ∧
    t.aerr = s.aerr ∧ (t.err = 0 → t.estk = s.estk) ∧ t.pending = s.pending ∧ t.replies = s.replies ∧
    ∀ addr, addr ≠ addressOf reference (.f rd.toNat) → addr ≠ addressOf reference .status → t.peek addr = s.peek addr

/-! ## The transform -/

/-- spec/41_ntt.md R111 to R113: the twiddle ROM holds the roots of unity, their inverses and the inverses of the lengths,
for every legal configuration. -/
def Obligations.RomHoldsRootsOfUnity : Prop :=
  ∀ (c : Params) (k : Nat), k ≤ logMax c → 2 ^ k ∣ c.P - 1 ∧
    (romRoot c k).val = c.G ^ ((c.P - 1) / 2 ^ k) % c.P ∧
    (∀ e, fpow c (romRoot c k) e = elem c 1 ↔ 2 ^ k ∣ e) ∧
    (romRoot c 0).val = 1 ∧ (c.P % 2 = 1 → (romRoot c 1).val = c.P - 1) ∧
    (1 ≤ k → fmul c (romRoot c k) (romRoot c k) = romRoot c (k - 1)) ∧
    finv c (romRoot c k) = .ok (romIroot c k) ∧ romIroot c k = fpow c (romRoot c k) (2 ^ k - 1) ∧
    finv c (elem c (2 ^ k)) = .ok (romNinv c k) ∧ (elem c (2 ^ k)).val ≠ 0 ∧ (romNinv c 0).val = 1

/-- The contents of the ROM for the reference instance: the table of spec/41_ntt.md R115. -/
def Obligations.RomReferenceContents : Prop :=
  (List.range 24).map (fun k => (romRoot reference k).val) =
    [1, 998244352, 911660635, 372528824, 929031873, 452798380, 922799308, 781712469, 476477967, 166035806, 258648936,
     584193783, 63912897, 350007156, 666702199, 968855178, 629671588, 24514907, 996173970, 363395222, 565042129,
     733596141, 267099868, 15311432] ∧
  (List.range 24).map (fun k => (romIroot reference k).val) =
    [1, 998244352, 86583718, 509520358, 337190230, 87557064, 609441965, 135236158, 304459705, 685443576, 381598368,
     335559352, 129292727, 358024708, 814576206, 708402881, 283043518, 3707709, 121392023, 704923114, 950391366,
     428961804, 382752275, 469870224] ∧
  (List.range 24).map (fun k => (romNinv reference k).val) =
    [1, 499122177, 748683265, 873463809, 935854081, 967049217, 982646785, 990445569, 994344961, 996294657, 997269505,
     997756929, 998000641, 998122497, 998183425, 998213889, 998229121, 998236737, 998240545, 998242449, 998243401,
     998243877, 998244115, 998244234]

/-- spec/41_ntt.md R118: the index map of the bit reversal, and the permutation it makes. -/
def Obligations.BitReversalReadsBitsBackwards : Prop :=
  (∀ i s : Nat, bitrev i s = ∑ t ∈ Finset.range s, (if i.testBit t then 1 else 0) * 2 ^ (s - 1 - t)) ∧
  (∀ i s : Nat, i < 2 ^ s → bitrev (bitrev i s) s = i ∧ bitrev i s < 2 ^ s) ∧
  (∀ (c : Params) (s i : Nat) (a : Series c), i < 2 ^ s → (bitReverse c s a)[i]? = some (coef c a (bitrev i s))) ∧
  (List.range 4).map (fun i => bitrev i 2) = [0, 2, 1, 3] ∧
  (List.range 8).map (fun i => bitrev i 3) = [0, 4, 2, 6, 1, 5, 3, 7]

/-- spec/41_ntt.md R122, R123: the length checks, and the in-place algorithm computes the defining sums, for every legal
configuration, length and direction. -/
def Obligations.TransformComputesTheSums : Prop :=
  ∀ (c : Params) (a : Series c) (dir : Direction),
    ((∀ s, a.length ≠ 2 ^ s) → ntt c a dir = .error .badLength) ∧
    (∀ s, a.length = 2 ^ s → 2 ^ logMax c < 2 ^ s → ntt c a dir = .error .unsupportedLength) ∧
    (∀ s, a.length = 2 ^ s → s ≤ logMax c →
      ∃ r, ntt c a dir = .ok r ∧ r.length = 2 ^ s ∧ ∀ k, k < 2 ^ s → coef c r k = transformCoef c a dir s k)

/-- spec/41_ntt.md R124: forward then inverse, and inverse then forward, is the identity. -/
def Obligations.TransformRoundTrip : Prop :=
  ∀ (c : Params) (a : Series c) (s : Nat), a.length = 2 ^ s → s ≤ logMax c →
    (∃ r, ntt c a .forward = .ok r ∧ ntt c r .inverse = .ok a) ∧
    (∃ r, ntt c a .inverse = .ok r ∧ ntt c r .forward = .ok a)

/-- BFLY (R130) completes on every state: all three reads come first, `F[ra]` is written and then `F[rb]`, which prevails
when they are one register. -/
def Obligations.BflyCompletes : Prop :=
  ∀ (ra rb rc : Index) (s : State), ra.toNat < 8 → rb.toNat < 8 → rc.toNat < 8 →
    ∃ x y : FieldElement,
      x.val = ((s.readF ra.toNat).val + (s.readF rb.toNat).val * (s.readF rc.toNat).val) % 998244353 ∧
      (y.val : Int) = (((s.readF ra.toNat).val : Int) - (s.readF rb.toNat).val * (s.readF rc.toNat).val) % 998244353 ∧
      exec (.bfly ra rb rc) s = .next { (s.writeF ra.toNat x).writeF rb.toNat y with err := 0 } ∧
      ∀ t, exec (.bfly ra rb rc) s = .next t → t.readF rb.toNat = y ∧ (ra ≠ rb → t.readF ra.toNat = x)

/-- The frame of BFLY: nothing but `F[ra]`, `F[rb]` and `STATUS` changes, in the state and at every address. -/
def Obligations.BflyFrame : Prop :=
  ∀ (ra rb rc : Index) (s t : State), exec (.bfly ra rb rc) s = .next t →
    (∀ j, j ≠ ra.toNat → j ≠ rb.toNat → t.readF j = s.readF j) ∧ t.e = s.e ∧ t.n = s.n ∧
    (∀ j, t.readV j = s.readV j) ∧ t.t = s.t ∧ t.aerr = s.aerr ∧ (t.err = 0 → t.estk = s.estk) ∧
    t.pending = s.pending ∧ t.replies = s.replies ∧
    ∀ addr, addr ≠ addressOf reference (.f ra.toNat) → addr ≠ addressOf reference (.f rb.toNat) →
      addr ≠ addressOf reference .status → t.peek addr = s.peek addr

/-- NTT (R131) completes when the buffer's length is a power of two, in both directions, with the transform in the same
buffer at the same length; it fails with `BadLength` when the length is 0 or no power of two. -/
def Obligations.NttCompletesOrFails : Prop :=
  ∀ (rd : Index) (dir : Direction) (s : State), rd.toNat < 4 →
    (∀ k, k ≤ 23 → (s.readV rd.toNat).length = 2 ^ k →
      ∃ r : CoeffSeries, ntt reference (s.readV rd.toNat) dir = .ok r ∧ r.length = 2 ^ k ∧
        exec (.ntt rd dir) s = .next { s.writeV rd.toNat r with err := 0 }) ∧
    ((∀ k, (s.readV rd.toNat).length ≠ 2 ^ k) → exec (.ntt rd dir) s = .next { s with err := 7, estk := true })

/-! ## The convolver -/

/-- spec/42_convolver.md R141, R143, R145 and R146: the transform-based convolution is the product, coefficient by
coefficient, at the length `min(nmax, len(a) + len(b) - 1)`; it is empty when an operand is, and fails exactly when the
product needs a longer transform than there is. -/
def Obligations.ConvolutionIsTheProduct : Prop :=
  ∀ (c : Params) (a b : Series c) (nmax : Nat),
    ((a = [] ∨ b = []) → convolve c a b nmax = .ok []) ∧
    (a ≠ [] → b ≠ [] → cap c < a.length + b.length - 1 → convolve c a b nmax = .error .unsupportedLength) ∧
    (a ≠ [] → b ≠ [] → a.length + b.length - 1 ≤ cap c → ∃ r, convolve c a b nmax = .ok r ∧
      r.length = min nmax (a.length + b.length - 1) ∧ ∀ i, i < r.length → coef c r i = productCoef c a b i)

/-- CONV (R148) completes with the convolution of the two buffers, of any lengths, unless both are non-empty and the
product is longer than `2^23`; then it fails with `UnsupportedLength`, whatever `N` is. -/
def Obligations.ConvCompletesOrFails : Prop :=
  ∀ (rd ra rb : Index) (s : State), rd.toNat < 4 → ra.toNat < 4 → rb.toNat < 4 →
    ((s.readV ra.toNat = [] ∨ s.readV rb.toNat = []) →
      exec (.conv rd ra rb) s = .next { s.writeV rd.toNat [] with err := 0 }) ∧
    (s.readV ra.toNat ≠ [] → s.readV rb.toNat ≠ [] →
      (s.readV ra.toNat).length + (s.readV rb.toNat).length ≤ 8388609 →
      ∃ r : CoeffSeries, convolve reference (s.readV ra.toNat) (s.readV rb.toNat) s.n.toNat = .ok r ∧
        r.length = min s.n.toNat ((s.readV ra.toNat).length + (s.readV rb.toNat).length - 1) ∧
        exec (.conv rd ra rb) s = .next { s.writeV rd.toNat r with err := 0 }) ∧
    (s.readV ra.toNat ≠ [] → s.readV rb.toNat ≠ [] →
      8388609 < (s.readV ra.toNat).length + (s.readV rb.toNat).length →
      exec (.conv rd ra rb) s = .next { s with err := 2, estk := true })

/-! ## The calculus primitives -/

/-- DERIV (R152) completes on every state: `[0]` for a source of length at most 1, else `(i + 1) * a[i + 1]`. -/
def Obligations.DerivCompletes : Prop :=
  ∀ (rd ra : Index) (s : State), rd.toNat < 4 → ra.toNat < 4 →
    ∃ r : CoeffSeries, exec (.deriv rd ra) s = .next { s.writeV rd.toNat r with err := 0 } ∧
      ((s.readV ra.toNat).length ≤ 1 → r = [zeroElement]) ∧
      (1 < (s.readV ra.toNat).length → r.length = (s.readV ra.toNat).length - 1 ∧
        ∀ i, i < r.length → (coef reference r i).val =
          (i + 1) % 998244353 * (coef reference (s.readV ra.toNat) (i + 1)).val % 998244353)

/-- INTEG (R156) completes when the result fits and the table covers the source, with `0` and then `a[i - 1] * T[i]`; it
fails with `BadLength` when the source has `CAP` coefficients or more, else with `TableTooShort`. -/
def Obligations.IntegCompletesOrFails : Prop :=
  ∀ (rd ra : Index) (s : State), rd.toNat < 4 → ra.toNat < 4 →
    ((s.readV ra.toNat).length < 8388608 → (s.readV ra.toNat).length ≤ s.t.length →
      ∃ r : CoeffSeries, exec (.integ rd ra) s = .next { s.writeV rd.toNat r with err := 0 } ∧
        r.length = (s.readV ra.toNat).length + 1 ∧ coef reference r 0 = zeroElement ∧
        ∀ i, 1 ≤ i → i < r.length → (coef reference r i).val =
          (coef reference (s.readV ra.toNat) (i - 1)).val * (s.tableEntry i).val % 998244353) ∧
    (8388608 ≤ (s.readV ra.toNat).length → exec (.integ rd ra) s = .next { s with err := 7, estk := true }) ∧
    ((s.readV ra.toNat).length < 8388608 → s.t.length < (s.readV ra.toNat).length →
      exec (.integ rd ra) s = .next { s with err := 6, estk := true })

/-- spec/43_calculus.md R157: derivative and integral undo one another, but for the constant term, for a table of correct
inverses. -/
def Obligations.CalculusLaws : Prop :=
  ∀ (c : Params) (a table : Series c),
    (1 ≤ a.length → tableCorrect c table a.length →
      ∃ r, integral c a table = .ok r ∧ derivative c r = a) ∧
    (2 ≤ a.length → tableCorrect c table (a.length - 1) →
      ∃ r, integral c (derivative c a) table = .ok r ∧ r.length = a.length ∧ coef c r 0 = elem c 0 ∧
        ∀ i, 1 ≤ i → i < a.length → coef c r i = coef c a i) ∧
    (a.length = 1 → 1 ≤ table.length → integral c (derivative c a) table = .ok [elem c 0, elem c 0])

/-- spec/70_reset_and_hazards.md R236: the host's sieve builds the table of inverses. -/
def Obligations.HostTableHoldsTheInverses : Prop :=
  ∀ (c : Params) (L : Nat), L ≤ cap c → (hostTable c L).length = L ∧ tableCorrect c (hostTable c L) L

/-! ## The series inverter -/

/-- spec/44_series_inverter.md R161: a result of the inverter has length `N` and is the inverse modulo `x^N`; only the first
`N` coefficients of the source matter. -/
def Obligations.SeriesInverseInverts : Prop :=
  ∀ (c : Params) (a : Series c) (N : Nat),
    (∀ b, seriesInverse c a N = .ok b → b.length = N ∧
      ∀ k, k < N → productCoef c a b k = if k = 0 then elem c 1 else elem c 0) ∧
    seriesInverse c (resize c a N) N = seriesInverse c a N

/-- spec/44_series_inverter.md R162, R163 and R167: when the inverter fails, with which kind, the last for every
configuration with `K >= 1`; in every other case it succeeds. -/
def Obligations.SeriesInverseFailures : Prop :=
  ∀ (c : Params) (a : Series c) (N : Nat),
    (N = 0 → seriesInverse c a N = .error .badLength) ∧
    (N ≠ 0 → coef c a 0 = elem c 0 → seriesInverse c a N = .error .singularInversion) ∧
    (1 ≤ logMax c → coef c a 0 ≠ elem c 0 → 2 ^ (logMax c - 1) + 1 < N → seriesInverse c a N = .error .unsupportedLength) ∧
    (1 ≤ logMax c → N ≠ 0 → coef c a 0 ≠ elem c 0 → N ≤ 2 ^ (logMax c - 1) + 1 → ∃ b, seriesInverse c a N = .ok b)

/-- spec/44_series_inverter.md R170: the inversion identity through `convolve`, where that product has a transform, and the
recurrence that determines the inverse. -/
def Obligations.SeriesInverseRecurrence : Prop :=
  ∀ (c : Params) (a b : Series c) (N : Nat), seriesInverse c a N = .ok b →
    (a.length + N - 1 ≤ cap c → convolve c a b N = .ok (resize c [elem c 1] N)) ∧
    finv c (coef c a 0) = .ok (coef c b 0) ∧
    ∀ k, 1 ≤ k → k < N → coef c b k = fmul c (fsub c (elem c 0) (coef c b 0))
      (elem c (∑ j ∈ Finset.Icc 1 k, (coef c a j).val * (coef c b (k - j)).val))

/-- SINV (R168) completes with a series of length `N` when `1 <= N <= 2^22 + 1` and the source's leading coefficient is not
0; else it fails, in the order of the rule. -/
def Obligations.SinvCompletesOrFails : Prop :=
  ∀ (rd ra : Index) (s : State), rd.toNat < 4 → ra.toNat < 4 →
    (1 ≤ s.n.toNat → s.n.toNat ≤ 4194305 → (coef reference (s.readV ra.toNat) 0).val ≠ 0 →
      ∃ r : CoeffSeries, seriesInverse reference (s.readV ra.toNat) s.n.toNat = .ok r ∧ r.length = s.n.toNat ∧
        exec (.sinv rd ra) s = .next { s.writeV rd.toNat r with err := 0 }) ∧
    (s.n = 0 → exec (.sinv rd ra) s = .next { s with err := 7, estk := true }) ∧
    (s.n ≠ 0 → (coef reference (s.readV ra.toNat) 0).val = 0 →
      exec (.sinv rd ra) s = .next { s with err := 3, estk := true }) ∧
    (4194305 < s.n.toNat → (coef reference (s.readV ra.toNat) 0).val ≠ 0 →
      exec (.sinv rd ra) s = .next { s with err := 2, estk := true })

/-! ## Logarithm and exponential -/

/-- The closed form of spec/45_series_log_exp.md R176: `r[0] = 0` and `r[i] = q[i - 1] * T[i]`, `q` the product of the
derivative and the inverse. -/
def Obligations.SeriesLogClosedForm : Prop :=
  ∀ (c : Params) (a table r : Series c) (N : Nat), seriesLog c a N table = .ok r →
    r.length = N ∧ ∃ ia, seriesInverse c a N = .ok ia ∧
      ∀ i, i < N → coef c r i = if i = 0 then elem c 0
        else fmul c (productCoef c (derivative c a) ia (i - 1)) (coef c table (i - 1))

/-- SLOG (R177) completes with a series of length `N` when its four conditions hold; else it fails, in the order of the
rule. -/
def Obligations.SlogCompletesOrFails : Prop :=
  ∀ (rd ra : Index) (s : State), rd.toNat < 4 → ra.toNat < 4 →
    (1 ≤ s.n.toNat → s.n.toNat ≤ 4194305 → (coef reference (s.readV ra.toNat) 0).val = 1 →
      max ((s.readV ra.toNat).length - 1) 1 + s.n.toNat - 1 ≤ 8388608 → max 1 (s.n.toNat - 1) ≤ s.t.length →
      ∃ r : CoeffSeries, seriesLog reference (s.readV ra.toNat) s.n.toNat s.t = .ok r ∧ r.length = s.n.toNat ∧
        exec (.slog rd ra) s = .next { s.writeV rd.toNat r with err := 0 }) ∧
    (s.n = 0 → exec (.slog rd ra) s = .next { s with err := 7, estk := true }) ∧
    (s.n ≠ 0 → (coef reference (s.readV ra.toNat) 0).val ≠ 1 →
      exec (.slog rd ra) s = .next { s with err := 5, estk := true }) ∧
    (s.n ≠ 0 → (coef reference (s.readV ra.toNat) 0).val = 1 →
      (4194305 < s.n.toNat ∨ 8388608 < max ((s.readV ra.toNat).length - 1) 1 + s.n.toNat - 1) →
      exec (.slog rd ra) s = .next { s with err := 2, estk := true }) ∧
    (1 ≤ s.n.toNat → s.n.toNat ≤ 4194305 → (coef reference (s.readV ra.toNat) 0).val = 1 →
      max ((s.readV ra.toNat).length - 1) 1 + s.n.toNat - 1 ≤ 8388608 → s.t.length < max 1 (s.n.toNat - 1) →
      exec (.slog rd ra) s = .next { s with err := 6, estk := true })

/-- spec/70_reset_and_hazards.md R245: truncating the source of a logarithm to `N` first does not change the result. -/
def Obligations.LogOfTruncatedSourceIsTheSame : Prop :=
  ∀ (c : Params) (a table r : Series c) (N : Nat), seriesLog c a N table = .ok r →
    seriesLog c (resize c a N) N table = .ok r

/-- SEXP (R186, R185) completes with a series of length `N` and leading coefficient 1 when `1 <= N <= 2^22 + 1`, the
source's leading coefficient is 0 and the table reaches `N - 1`; else it fails with the kind of the first step that
fails. -/
def Obligations.SexpCompletesOrFails : Prop :=
  ∀ (rd ra : Index) (s : State), rd.toNat < 4 → ra.toNat < 4 →
    (1 ≤ s.n.toNat → s.n.toNat ≤ 4194305 → (coef reference (s.readV ra.toNat) 0).val = 0 →
      s.n.toNat - 1 ≤ s.t.length →
      ∃ r : CoeffSeries, seriesExp reference (s.readV ra.toNat) s.n.toNat s.t = .ok r ∧ r.length = s.n.toNat ∧
        (coef reference r 0).val = 1 ∧ exec (.sexp rd ra) s = .next { s.writeV rd.toNat r with err := 0 }) ∧
    (s.n = 0 → exec (.sexp rd ra) s = .next { s with err := 7, estk := true }) ∧
    (s.n ≠ 0 → (coef reference (s.readV ra.toNat) 0).val ≠ 0 →
      exec (.sexp rd ra) s = .next { s with err := 4, estk := true }) ∧
    (1 ≤ s.n.toNat → s.n.toNat ≤ 4194305 → (coef reference (s.readV ra.toNat) 0).val = 0 →
      s.t.length < s.n.toNat - 1 → exec (.sexp rd ra) s = .next { s with err := 6, estk := true }) ∧
    (4194305 < s.n.toNat → (coef reference (s.readV ra.toNat) 0).val = 0 →
      s.t.length < 4194303 → exec (.sexp rd ra) s = .next { s with err := 6, estk := true }) ∧
    (4194305 < s.n.toNat → (coef reference (s.readV ra.toNat) 0).val = 0 →
      4194303 ≤ s.t.length → exec (.sexp rd ra) s = .next { s with err := 2, estk := true })

/-- spec/45_series_log_exp.md R187: with a table of correct inverses, the logarithm undoes the exponential and the
exponential undoes the logarithm, at every truncation length that succeeds. -/
def Obligations.LogAndExpAreInverse : Prop :=
  ∀ (c : Params) (a table : Series c) (N : Nat), tableCorrect c table (max 1 (N - 1)) →
    (∀ g, seriesExp c a N table = .ok g → seriesLog c g N table = .ok (resize c a N)) ∧
    (∀ l, seriesLog c a N table = .ok l → seriesExp c l N table = .ok (resize c a N))

/-! ## Resize, and the frame of the series commands -/

/-- spec/46_resize.md R191: the laws of `resize`. -/
def Obligations.ResizeLaws : Prop :=
  ∀ (c : Params) (a : Series c) (L M i : Nat),
    (resize c a L).length = L ∧ resize c a a.length = a ∧
    (M ≤ L → resize c (resize c a L) M = resize c a M) ∧
    (L < M → resize c (resize c a L) M = resize c a L ++ List.replicate (M - L) (elem c 0)) ∧
    (L < M → (∃ j, L ≤ j ∧ j < M ∧ coef c a j ≠ elem c 0) → resize c (resize c a L) M ≠ resize c a M) ∧
    coef c (resize c a L) i = if i < L then coef c a i else elem c 0

/-- VRSZ (R190) completes for every `N <= CAP`, `N = 0` included, with the source cut or padded to `N`; it fails with
`BadLength` exactly when `N > CAP`. -/
def Obligations.VrszCompletesOrFails : Prop :=
  ∀ (rd ra : Index) (s : State), rd.toNat < 4 → ra.toNat < 4 →
    (s.n.toNat ≤ 8388608 → ∃ r : CoeffSeries, exec (.vrsz rd ra) s = .next { s.writeV rd.toNat r with err := 0 } ∧
      r.length = s.n.toNat ∧ ∀ i, i < s.n.toNat → r[i]? = some ((s.readV ra.toNat).getD i zeroElement)) ∧
    (8388608 < s.n.toNat → exec (.vrsz rd ra) s = .next { s with err := 7, estk := true })

/-- The frame of NTT, CONV, DERIV, INTEG, SINV, SLOG, SEXP and VRSZ: every other buffer, every `F` register, the table, `N`,
`E` and `AERR` keep their values, and every address but those of `V[rd]`, its length and `STATUS` reads as before. -/
def Obligations.SeriesCommandFrame : Prop :=
  ∀ (i : Instr) (rd ra rb : Index) (dir : Direction) (s t : State),
    (i = .ntt rd dir ∨ i = .conv rd ra rb ∨ i = .deriv rd ra ∨ i = .integ rd ra ∨ i = .sinv rd ra ∨ i = .slog rd ra ∨
      i = .sexp rd ra ∨ i = .vrsz rd ra) →
    exec i s = .next t →
    (∀ j, j ≠ rd.toNat → t.readV j = s.readV j) ∧ (∀ j, t.readF j = s.readF j) ∧ t.e = s.e ∧ t.n = s.n ∧ t.t = s.t ∧
    t.aerr = s.aerr ∧ (t.err = 0 → t.estk = s.estk) ∧ t.pending = s.pending ∧ t.replies = s.replies ∧
    ∀ addr, addr ≠ addressOf reference (.vlen rd.toNat) →
      (∀ j, j < 2 ^ 24 → addr ≠ addressOf reference (.coeff rd.toNat j)) →
      addr ≠ addressOf reference .status → t.peek addr = s.peek addr
end

