-- ==== Sys2Proof/Laws/Encoding.lean ====
section
/-! SUPPORT. Each field of a command word reads back what the word was made of (spec/30_encoding.md R71). -/

namespace Sys2Proof.Laws

variable (op : Opcode) (rd ra rb rc : Index) (imm : BitVec 8)

/-- A bit of a command word, by the field it lies in (R71). -/
theorem wordOf_getLsbD (k : Nat) : (wordOf op rd ra rb rc imm).getLsbD k =
    if k < 8 then imm.getLsbD k else if k < 12 then rc.getLsbD (k - 8) else if k < 16 then rb.getLsbD (k - 12)
    else if k < 20 then ra.getLsbD (k - 16) else if k < 24 then rd.getLsbD (k - 20) else op.getLsbD (k - 24) := by
  simp only [wordOf, BitVec.getLsbD_append]
  simp only [Nat.sub_sub, Nat.reduceAdd]
  split_ifs <;> first | rfl | omega

@[simp] theorem opcodeOf_wordOf : opcodeOf (wordOf op rd ra rb rc imm) = op := by
  ext k hk
  simp only [opcodeOf, BitVec.getElem_extractLsb', wordOf_getLsbD]
  rw [if_neg (by omega), if_neg (by omega), if_neg (by omega), if_neg (by omega), if_neg (by omega),
    show 24 + k - 24 = k by omega, BitVec.getLsbD_eq_getElem hk]

@[simp] theorem rdOf_wordOf : rdOf (wordOf op rd ra rb rc imm) = rd := by
  ext k hk
  simp only [rdOf, BitVec.getElem_extractLsb', wordOf_getLsbD]
  rw [if_neg (by omega), if_neg (by omega), if_neg (by omega), if_neg (by omega), if_pos (by omega),
    show 20 + k - 20 = k by omega, BitVec.getLsbD_eq_getElem hk]

@[simp] theorem raOf_wordOf : raOf (wordOf op rd ra rb rc imm) = ra := by
  ext k hk
  simp only [raOf, BitVec.getElem_extractLsb', wordOf_getLsbD]
  rw [if_neg (by omega), if_neg (by omega), if_neg (by omega), if_pos (by omega),
    show 16 + k - 16 = k by omega, BitVec.getLsbD_eq_getElem hk]

@[simp] theorem rbOf_wordOf : rbOf (wordOf op rd ra rb rc imm) = rb := by
  ext k hk
  simp only [rbOf, BitVec.getElem_extractLsb', wordOf_getLsbD]
  rw [if_neg (by omega), if_neg (by omega), if_pos (by omega),
    show 12 + k - 12 = k by omega, BitVec.getLsbD_eq_getElem hk]

@[simp] theorem rcOf_wordOf : rcOf (wordOf op rd ra rb rc imm) = rc := by
  ext k hk
  simp only [rcOf, BitVec.getElem_extractLsb', wordOf_getLsbD]
  rw [if_neg (by omega), if_pos (by omega), show 8 + k - 8 = k by omega, BitVec.getLsbD_eq_getElem hk]

@[simp] theorem immOf_wordOf : immOf (wordOf op rd ra rb rc imm) = imm := by
  ext k hk
  simp only [immOf, BitVec.getElem_extractLsb', wordOf_getLsbD]
  rw [if_pos (by omega), show 0 + k = k by omega, BitVec.getLsbD_eq_getElem hk]

/-- A word is made of its six fields. -/
theorem wordOf_fields (w : Word) :
    wordOf (opcodeOf w) (rdOf w) (raOf w) (rbOf w) (rcOf w) (immOf w) = w := by
  refine BitVec.eq_of_getLsbD_eq fun k hk => ?_
  simp only [wordOf_getLsbD, opcodeOf, rdOf, raOf, rbOf, rcOf, immOf, BitVec.getLsbD_extractLsb']
  have field : ∀ lo n : Nat, lo ≤ k → k < lo + n →
      (decide (k - lo < n) && w.getLsbD (lo + (k - lo))) = w.getLsbD k := by
    intro lo n h1 h2
    rw [Nat.add_sub_cancel' h1, decide_eq_true (by omega), Bool.true_and]
  repeat' split
  · exact field 0 8 (by omega) (by omega)
  · exact field 8 4 (by omega) (by omega)
  · exact field 12 4 (by omega) (by omega)
  · exact field 16 4 (by omega) (by omega)
  · exact field 20 4 (by omega) (by omega)
  · exact field 24 8 (by omega) (by omega)

end Sys2Proof.Laws
end

