-- ==== Sys2Proof/Laws/State.lean ====
section
/-! SUPPORT. One lemma per field per update of the state, each true by definition, so that no proof unfolds a record
update. -/

namespace Sys2Proof.Machine.Laws

variable (s : State)

@[simp] theorem recordSuccess_f : s.recordSuccess.f = s.f := rfl
@[simp] theorem recordSuccess_e : s.recordSuccess.e = s.e := rfl
@[simp] theorem recordSuccess_n : s.recordSuccess.n = s.n := rfl
@[simp] theorem recordSuccess_v : s.recordSuccess.v = s.v := rfl
@[simp] theorem recordSuccess_t : s.recordSuccess.t = s.t := rfl
@[simp] theorem recordSuccess_err : s.recordSuccess.err = 0 := rfl
@[simp] theorem recordSuccess_aerr : s.recordSuccess.aerr = s.aerr := rfl
@[simp] theorem recordSuccess_estk : s.recordSuccess.estk = s.estk := rfl
@[simp] theorem recordSuccess_pending : s.recordSuccess.pending = s.pending := rfl
@[simp] theorem recordSuccess_replies : s.recordSuccess.replies = s.replies := rfl

@[simp] theorem recordFailure_f (k : FailureKind) : (s.recordFailure k).f = s.f := rfl
@[simp] theorem recordFailure_e (k : FailureKind) : (s.recordFailure k).e = s.e := rfl
@[simp] theorem recordFailure_n (k : FailureKind) : (s.recordFailure k).n = s.n := rfl
@[simp] theorem recordFailure_v (k : FailureKind) : (s.recordFailure k).v = s.v := rfl
@[simp] theorem recordFailure_t (k : FailureKind) : (s.recordFailure k).t = s.t := rfl
@[simp] theorem recordFailure_err (k : FailureKind) : (s.recordFailure k).err = failureCode k := rfl
@[simp] theorem recordFailure_aerr (k : FailureKind) : (s.recordFailure k).aerr = s.aerr := rfl
@[simp] theorem recordFailure_estk (k : FailureKind) : (s.recordFailure k).estk = true := rfl
@[simp] theorem recordFailure_pending (k : FailureKind) : (s.recordFailure k).pending = s.pending := rfl
@[simp] theorem recordFailure_replies (k : FailureKind) : (s.recordFailure k).replies = s.replies := rfl

@[simp] theorem recordDropped_f : s.recordDropped.f = s.f := rfl
@[simp] theorem recordDropped_e : s.recordDropped.e = s.e := rfl
@[simp] theorem recordDropped_n : s.recordDropped.n = s.n := rfl
@[simp] theorem recordDropped_v : s.recordDropped.v = s.v := rfl
@[simp] theorem recordDropped_t : s.recordDropped.t = s.t := rfl
@[simp] theorem recordDropped_err : s.recordDropped.err = s.err := rfl
@[simp] theorem recordDropped_aerr : s.recordDropped.aerr = true := rfl
@[simp] theorem recordDropped_estk : s.recordDropped.estk = s.estk := rfl
@[simp] theorem recordDropped_pending : s.recordDropped.pending = s.pending := rfl
@[simp] theorem recordDropped_replies : s.recordDropped.replies = s.replies := rfl

@[simp] theorem clearFlags_f (w : Word) : (s.clearFlags w).f = s.f := rfl
@[simp] theorem clearFlags_e (w : Word) : (s.clearFlags w).e = s.e := rfl
@[simp] theorem clearFlags_n (w : Word) : (s.clearFlags w).n = s.n := rfl
@[simp] theorem clearFlags_v (w : Word) : (s.clearFlags w).v = s.v := rfl
@[simp] theorem clearFlags_t (w : Word) : (s.clearFlags w).t = s.t := rfl
@[simp] theorem clearFlags_err (w : Word) : (s.clearFlags w).err = s.err := rfl
@[simp] theorem clearFlags_aerr (w : Word) : (s.clearFlags w).aerr = (s.aerr && !w.getLsbD 8) := rfl
@[simp] theorem clearFlags_estk (w : Word) : (s.clearFlags w).estk = (s.estk && !w.getLsbD 9) := rfl
@[simp] theorem clearFlags_pending (w : Word) : (s.clearFlags w).pending = s.pending := rfl
@[simp] theorem clearFlags_replies (w : Word) : (s.clearFlags w).replies = s.replies := rfl

@[simp] theorem writeF_f (i : Nat) (x : FieldElement) : (s.writeF i x).f = s.f.set i x := rfl
@[simp] theorem writeF_e (i : Nat) (x : FieldElement) : (s.writeF i x).e = s.e := rfl
@[simp] theorem writeF_n (i : Nat) (x : FieldElement) : (s.writeF i x).n = s.n := rfl
@[simp] theorem writeF_v (i : Nat) (x : FieldElement) : (s.writeF i x).v = s.v := rfl
@[simp] theorem writeF_t (i : Nat) (x : FieldElement) : (s.writeF i x).t = s.t := rfl
@[simp] theorem writeF_err (i : Nat) (x : FieldElement) : (s.writeF i x).err = s.err := rfl
@[simp] theorem writeF_aerr (i : Nat) (x : FieldElement) : (s.writeF i x).aerr = s.aerr := rfl
@[simp] theorem writeF_estk (i : Nat) (x : FieldElement) : (s.writeF i x).estk = s.estk := rfl
@[simp] theorem writeF_pending (i : Nat) (x : FieldElement) : (s.writeF i x).pending = s.pending := rfl
@[simp] theorem writeF_replies (i : Nat) (x : FieldElement) : (s.writeF i x).replies = s.replies := rfl

@[simp] theorem writeV_f (i : Nat) (a : CoeffSeries) : (s.writeV i a).f = s.f := rfl
@[simp] theorem writeV_e (i : Nat) (a : CoeffSeries) : (s.writeV i a).e = s.e := rfl
@[simp] theorem writeV_n (i : Nat) (a : CoeffSeries) : (s.writeV i a).n = s.n := rfl
@[simp] theorem writeV_v (i : Nat) (a : CoeffSeries) : (s.writeV i a).v = s.v.set i a := rfl
@[simp] theorem writeV_t (i : Nat) (a : CoeffSeries) : (s.writeV i a).t = s.t := rfl
@[simp] theorem writeV_err (i : Nat) (a : CoeffSeries) : (s.writeV i a).err = s.err := rfl
@[simp] theorem writeV_aerr (i : Nat) (a : CoeffSeries) : (s.writeV i a).aerr = s.aerr := rfl
@[simp] theorem writeV_estk (i : Nat) (a : CoeffSeries) : (s.writeV i a).estk = s.estk := rfl
@[simp] theorem writeV_pending (i : Nat) (a : CoeffSeries) : (s.writeV i a).pending = s.pending := rfl
@[simp] theorem writeV_replies (i : Nat) (a : CoeffSeries) : (s.writeV i a).replies = s.replies := rfl

@[simp] theorem applyReset_f : s.applyReset.f = State.reset.f := rfl
@[simp] theorem applyReset_e : s.applyReset.e = State.reset.e := rfl
@[simp] theorem applyReset_n : s.applyReset.n = State.reset.n := rfl
@[simp] theorem applyReset_v : s.applyReset.v = State.reset.v := rfl
@[simp] theorem applyReset_t : s.applyReset.t = State.reset.t := rfl
@[simp] theorem applyReset_err : s.applyReset.err = State.reset.err := rfl
@[simp] theorem applyReset_aerr : s.applyReset.aerr = State.reset.aerr := rfl
@[simp] theorem applyReset_estk : s.applyReset.estk = State.reset.estk := rfl
@[simp] theorem applyReset_pending : s.applyReset.pending = s.pending := rfl
@[simp] theorem applyReset_replies : s.applyReset.replies = s.replies := rfl

@[simp] theorem recordSuccess_readF (j : Nat) : s.recordSuccess.readF j = s.readF j := rfl
@[simp] theorem recordSuccess_readV (j : Nat) : s.recordSuccess.readV j = s.readV j := rfl
@[simp] theorem recordFailure_readF (k : FailureKind) (j : Nat) : (s.recordFailure k).readF j = s.readF j := rfl
@[simp] theorem recordFailure_readV (k : FailureKind) (j : Nat) : (s.recordFailure k).readV j = s.readV j := rfl
@[simp] theorem recordDropped_readF (j : Nat) : s.recordDropped.readF j = s.readF j := rfl
@[simp] theorem recordDropped_readV (j : Nat) : s.recordDropped.readV j = s.readV j := rfl
@[simp] theorem clearFlags_readF (w : Word) (j : Nat) : (s.clearFlags w).readF j = s.readF j := rfl
@[simp] theorem clearFlags_readV (w : Word) (j : Nat) : (s.clearFlags w).readV j = s.readV j := rfl
@[simp] theorem writeF_readV (i : Nat) (x : FieldElement) (j : Nat) : (s.writeF i x).readV j = s.readV j := rfl
@[simp] theorem writeV_readF (i : Nat) (a : CoeffSeries) (j : Nat) : (s.writeV i a).readF j = s.readF j := rfl

/-! Popping the event list leaves the architectural state alone. -/

theorem pop_f (rest : List HostEvent) : ({ s with pending := rest } : State).f = s.f := rfl
theorem pop_e (rest : List HostEvent) : ({ s with pending := rest } : State).e = s.e := rfl
theorem pop_n (rest : List HostEvent) : ({ s with pending := rest } : State).n = s.n := rfl
theorem pop_v (rest : List HostEvent) : ({ s with pending := rest } : State).v = s.v := rfl
theorem pop_t (rest : List HostEvent) : ({ s with pending := rest } : State).t = s.t := rfl
theorem pop_err (rest : List HostEvent) : ({ s with pending := rest } : State).err = s.err := rfl
theorem pop_aerr (rest : List HostEvent) : ({ s with pending := rest } : State).aerr = s.aerr := rfl
theorem pop_estk (rest : List HostEvent) : ({ s with pending := rest } : State).estk = s.estk := rfl

end Sys2Proof.Machine.Laws
end

