-- ==== Sys2Proof/Laws/Operands.lean ====
section
/-! SUPPORT. Register and buffer access: a read after a write, and what a write leaves alone. -/

namespace Sys2Proof.Machine.Laws

@[simp] theorem fieldRegs_get_set_same (r : FieldRegs) (i : Nat) (x : FieldElement) (h : i < 8) :
    (r.set i x).get i = x := by
  interval_cases i <;> rfl

@[simp] theorem fieldRegs_get_set_ne (r : FieldRegs) (i j : Nat) (x : FieldElement) (h : j ≠ i) :
    (r.set i x).get j = r.get j := by
  unfold FieldRegs.set
  split <;> first | rfl | (unfold FieldRegs.get; split <;> first | rfl | omega)

@[simp] theorem seriesBufs_get_set_same (r : SeriesBufs) (i : Nat) (a : CoeffSeries) (h : i < 4) :
    (r.set i a).get i = a := by
  interval_cases i <;> rfl

@[simp] theorem seriesBufs_get_set_ne (r : SeriesBufs) (i j : Nat) (a : CoeffSeries) (h : j ≠ i) :
    (r.set i a).get j = r.get j := by
  unfold SeriesBufs.set
  split <;> first | rfl | (unfold SeriesBufs.get; split <;> first | rfl | omega)

/-- A buffer write leaves in each buffer either what was there or what was written. -/
theorem seriesBufs_get_set_cases (r : SeriesBufs) (i j : Nat) (a : CoeffSeries) :
    (r.set i a).get j = r.get j ∨ (j = i ∧ (r.set i a).get j = a) := by
  by_cases h : j = i
  · subst h
    by_cases h4 : j < 4
    · exact .inr ⟨rfl, seriesBufs_get_set_same r j a h4⟩
    · left
      unfold SeriesBufs.set
      split <;> first | rfl | omega
  · exact .inl (seriesBufs_get_set_ne r i j a h)

@[simp] theorem readF_writeF_same (s : State) (i : Nat) (x : FieldElement) (h : i < 8) :
    (s.writeF i x).readF i = x := fieldRegs_get_set_same _ _ _ h

@[simp] theorem readF_writeF_ne (s : State) (i j : Nat) (x : FieldElement) (h : j ≠ i) :
    (s.writeF i x).readF j = s.readF j := fieldRegs_get_set_ne _ _ _ _ h

@[simp] theorem readV_writeV_same (s : State) (i : Nat) (a : CoeffSeries) (h : i < 4) :
    (s.writeV i a).readV i = a := seriesBufs_get_set_same _ _ _ h

@[simp] theorem readV_writeV_ne (s : State) (i j : Nat) (a : CoeffSeries) (h : j ≠ i) :
    (s.writeV i a).readV j = s.readV j := seriesBufs_get_set_ne _ _ _ _ h

end Sys2Proof.Machine.Laws
end

