-- ==== Sys2Proof/Laws/Ops.lean ====
section
/-! SUPPORT. What each shared operation can do, said once. -/

namespace Sys2Proof.Machine.Laws

/-- Everything the end of a command can be (R82): ill formed, failed, or committed. -/
theorem command_cases {i : Instr} {s t : State} {r : Except FailureKind State} (h : command i s r = .next t) :
    (¬ i.WellFormed ∧ t = s.recordFailure .illegalCommand) ∨
    (i.WellFormed ∧ ∃ k, r = .error k ∧ t = s.recordFailure k) ∨
    (i.WellFormed ∧ ∃ u, r = .ok u ∧ t = u.recordSuccess) := by
  unfold command State.fail at h
  split at h
  · next hw =>
    split at h
    · exact .inr (.inr ⟨hw, _, rfl, by injection h with h; exact h.symm⟩)
    · exact .inr (.inl ⟨hw, _, rfl, by injection h with h; exact h.symm⟩)
  · next hw => exact .inl ⟨hw, by injection h with h; exact h.symm⟩

/-- A command always answers a next state. -/
theorem command_next (i : Instr) (s : State) (r : Except FailureKind State) : ∃ t, command i s r = .next t := by
  unfold command State.fail
  split
  · split <;> exact ⟨_, rfl⟩
  · exact ⟨_, rfl⟩

theorem command_ok {i : Instr} (hw : i.WellFormed) (s u : State) : command i s (.ok u) = .next u.recordSuccess := by
  simp [command, hw]

theorem command_error {i : Instr} (hw : i.WellFormed) (s : State) (k : FailureKind) :
    command i s (.error k) = .next (s.recordFailure k) := by
  simp [command, hw, State.fail]

theorem command_illegal {i : Instr} (hw : ¬ i.WellFormed) (s : State) (r : Except FailureKind State) :
    command i s r = .next (s.recordFailure .illegalCommand) := by
  simp [command, hw, State.fail]

@[simp] theorem commitF_ok (s : State) (rd : Index) (x : FieldElement) :
    commitF s rd (.ok x) = .ok (s.writeF rd.toNat x) := rfl

@[simp] theorem commitF_error (s : State) (rd : Index) (k : FailureKind) : commitF s rd (.error k) = .error k := rfl

@[simp] theorem commitV_ok (s : State) (rd : Index) (a : CoeffSeries) :
    commitV s rd (.ok a) = .ok (s.writeV rd.toNat a) := rfl

@[simp] theorem commitV_error (s : State) (rd : Index) (k : FailureKind) : commitV s rd (.error k) = .error k := rfl

/-- Everything a commit of a scalar can be. -/
theorem commitF_eq_ok {s u : State} {rd : Index} {r : Except FailureKind FieldElement} (h : commitF s rd r = .ok u) :
    ∃ x, r = .ok x ∧ u = s.writeF rd.toNat x := by
  cases r with
  | ok x => exact ⟨x, rfl, by injection h with h; exact h.symm⟩
  | error k => cases h

/-- Everything a commit of a series can be. -/
theorem commitV_eq_ok {s u : State} {rd : Index} {r : Except FailureKind CoeffSeries} (h : commitV s rd r = .ok u) :
    ∃ a, r = .ok a ∧ u = s.writeV rd.toNat a := by
  cases r with
  | ok a => exact ⟨a, rfl, by injection h with h; exact h.symm⟩
  | error k => cases h

/-- Everything a host read can do (R56, R61). -/
theorem hostRead_cases (s : State) (addr : Nat) :
    (∃ w, s.peek addr = some w ∧ s.hostRead addr = { s with replies := s.replies ++ [w] }) ∨
    (s.peek addr = none ∧ s.hostRead addr = { s with aerr := true, replies := s.replies ++ [0] }) := by
  unfold State.hostRead
  cases h : s.peek addr with
  | some w => exact .inl ⟨w, rfl, rfl⟩
  | none => exact .inr ⟨rfl, rfl⟩

/-- Everything a host write to another location than `CMD` can do (R57, R61). -/
theorem hostStore_cases (s : State) (addr : Nat) (v : Word) :
    (∃ l t, locate reference addr = some l ∧ s.writeLocation l v = some t ∧ s.hostStore addr v = t) ∨
    s.hostStore addr v = s.recordDropped := by
  unfold State.hostStore
  cases hl : locate reference addr with
  | none => exact .inr rfl
  | some l =>
    cases hw : s.writeLocation l v with
    | none => right; simp [hw]
    | some t => exact .inl ⟨l, t, rfl, hw, by simp [hw]⟩

/-- A failed bind, or a success of both parts: peels an `Except` computation apart. -/
theorem except_bind_eq_ok {ε α β : Type} {x : Except ε α} {f : α → Except ε β} {b : β} (h : x >>= f = .ok b) :
    ∃ a, x = .ok a ∧ f a = .ok b := by
  cases x with
  | ok a => exact ⟨a, rfl, h⟩
  | error k => cases h

/-- A bind fails because its first part does, or because its second does. -/
theorem except_bind_eq_error {ε α β : Type} {x : Except ε α} {f : α → Except ε β} {k : ε} (h : x >>= f = .error k) :
    x = .error k ∨ ∃ a, x = .ok a ∧ f a = .error k := by
  cases x with
  | ok a => exact .inr ⟨a, rfl, h⟩
  | error k' => exact .inl (by cases h; rfl)

end Sys2Proof.Machine.Laws
end

