-- ==== Sys2Proof/Laws/Engines.lean ====
section
/-! SUPPORT. What each engine can do, said once: the values of the field functions, the lengths of every series, when a
convolution fails, and the rule of the Newton loop. -/

namespace Sys2Proof.Machine.Laws

/-! ## The reference instance -/

theorem reference_P : reference.P = 998244353 := rfl
theorem reference_G : reference.G = 3 := rfl
theorem logMax_reference : logMax reference = 23 := by decide
theorem cap_reference : cap reference = 8388608 := by decide
theorem offsetWidth_reference : offsetWidth reference = 24 := by decide

/-! ## Field functions -/

theorem elem_val (c : Params) (x : Nat) : (elem c x).val = x % c.P := rfl
theorem elem_of_val (c : Params) (x : Elem c) : elem c x.val = x := Fin.ext (Nat.mod_eq_of_lt x.isLt)
theorem elem_zero_val (c : Params) : (elem c 0).val = 0 := Nat.zero_mod _
theorem elem_one_val (c : Params) : (elem c 1).val = 1 := Nat.mod_eq_of_lt c.prime.one_lt
theorem fadd_val (c : Params) (x y : Elem c) : (fadd c x y).val = (x.val + y.val) % c.P := rfl
theorem fmul_val (c : Params) (x y : Elem c) : (fmul c x y).val = x.val * y.val % c.P := rfl

/-- The least non-negative residue of the difference, whichever way it borrows. -/
theorem fsub_val (c : Params) (x y : Elem c) : (fsub c x y).val = (x.val + (c.P - y.val)) % c.P := by
  have hx := x.isLt
  have hy := y.isLt
  unfold fsub
  rw [elem_val]
  split
  · rw [show x.val + (c.P - y.val) = x.val - y.val + c.P by omega, Nat.add_mod_right]
  · rw [show x.val + (c.P - y.val) = x.val + c.P - y.val by omega]

/-- Everything `finv` can do (R95). -/
theorem finv_cases (c : Params) (x : Elem c) :
    (x = elem c 0 ∧ finv c x = .error .divisionByZero) ∨ (x ≠ elem c 0 ∧ finv c x = .ok (fpow c x (c.P - 2))) := by
  unfold finv
  by_cases h : x = elem c 0
  · exact .inl ⟨h, if_pos h⟩
  · exact .inr ⟨h, if_neg h⟩

/-! ## Series -/

theorem resize_length (c : Params) (a : Series c) (L : Nat) : (resize c a L).length = L := by
  simp only [resize, List.length_append, List.length_take, List.length_replicate]; omega

theorem coef_of_lt (c : Params) (a : Series c) (i : Nat) (h : i < a.length) : coef c a i = a[i] := by
  simp [coef, h]

theorem coef_of_le (c : Params) (a : Series c) (i : Nat) (h : a.length ≤ i) : coef c a i = elem c 0 := by
  simp [coef, h]

theorem coef_resize (c : Params) (a : Series c) (L i : Nat) :
    coef c (resize c a L) i = if i < L then coef c a i else elem c 0 := by
  unfold coef resize
  by_cases hL : i < L
  · rw [if_pos hL, List.getD_eq_getElem?_getD, List.getD_eq_getElem?_getD]
    by_cases hi : i < a.length
    · rw [List.getElem?_append_left (by simp; omega), List.getElem?_take_of_lt hL]
    · rw [List.getElem?_append_right (by simp; omega), List.getElem?_replicate,
        List.getElem?_eq_none (by omega)]
      split <;> rfl
  · rw [if_neg hL, List.getD_eq_getElem?_getD, List.getElem?_eq_none]
    · rfl
    · simp; omega

/-- Two series of one length with the same coefficients are equal (R25). -/
theorem series_ext (c : Params) (a b : Series c) (hl : a.length = b.length)
    (h : ∀ i, i < a.length → coef c a i = coef c b i) : a = b := by
  refine List.ext_getElem hl fun i h1 h2 => ?_
  rw [← coef_of_lt c a i h1, ← coef_of_lt c b i h2]
  exact h i h1

/-! ## The transform -/

theorem bitReverse_length (c : Params) (s : Nat) (a : Series c) : (bitReverse c s a).length = 2 ^ s := by
  simp [bitReverse]

theorem blockButterflies_length (c : Params) (wlen : Elem c) (us vs : Series c) (w : Elem c)
    (h : us.length = vs.length) :
    (blockButterflies c wlen w us vs).1.length = us.length ∧
    (blockButterflies c wlen w us vs).2.length = us.length := by
  induction us generalizing vs w with
  | nil => simp [blockButterflies]
  | cons u us ih =>
    cases vs with
    | nil => simp at h
    | cons v vs =>
      have := ih vs (fmul c w wlen) (by simpa using h)
      simp [blockButterflies, this]

theorem passBlocks_length (c : Params) (wlen : Elem c) (half blocks : Nat) (a : Series c)
    (h : a.length = blocks * (2 * half)) : (passBlocks c wlen half blocks a).length = a.length := by
  induction blocks generalizing a with
  | zero => simp [passBlocks, h]
  | succ n ih =>
    have ha : a.length = n * (2 * half) + 2 * half := by rw [h]; ring
    have hb := blockButterflies_length c wlen (a.take half) ((a.drop half).take half) (elem c 1)
      (by simp; omega)
    have hr := ih (a.drop (2 * half)) (by simp; omega)
    simp only [passBlocks, List.length_append, hb, hr, List.length_take, List.length_drop]
    omega

theorem passes_length (c : Params) (dir : Direction) (s t : Nat) (a : Series c) (ha : a.length = 2 ^ s) (ht : t ≤ s) :
    (passes c dir s t a).length = 2 ^ s := by
  induction t with
  | zero => exact ha
  | succ t ih =>
    have hp := ih (by omega)
    have : 2 ^ s = 2 ^ (s - (t + 1)) * (2 * 2 ^ t) := by
      rw [← pow_succ', ← pow_add]; congr 1; omega
    simp only [passes]
    rw [passBlocks_length _ _ _ _ _ (by rw [hp, this]), hp]

theorem nttEngine_length (c : Params) (dir : Direction) (s : Nat) (a : Series c) :
    (nttEngine c dir s a).length = 2 ^ s := by
  have := passes_length c dir s s (bitReverse c s a) (bitReverse_length c s a) le_rfl
  cases dir <;> simp [nttEngine, scaleInverse, this]

theorem isPowerOfTwo_two_pow (s : Nat) : isPowerOfTwo (2 ^ s) = true := by
  simp [isPowerOfTwo, Nat.log2_two_pow]

theorem isPowerOfTwo_iff (n : Nat) : isPowerOfTwo n = true ↔ ∃ s, n = 2 ^ s := by
  constructor
  · intro h
    simp only [isPowerOfTwo, Bool.and_eq_true, beq_iff_eq] at h
    exact ⟨_, h.2.symm⟩
  · rintro ⟨s, rfl⟩
    exact isPowerOfTwo_two_pow s

/-- `ntt` on a legal length (R117). -/
theorem ntt_two_pow (c : Params) (a : Series c) (dir : Direction) (s : Nat) (ha : a.length = 2 ^ s)
    (hs : s ≤ logMax c) : ntt c a dir = .ok (nttEngine c dir s a) := by
  have hc : ¬ cap c < 2 ^ s := Nat.not_lt.2 (Nat.pow_le_pow_right (by norm_num) hs)
  simp [ntt, ha, isPowerOfTwo_two_pow, hc, Nat.log2_two_pow]

/-- Everything `ntt` can do (R122). -/
theorem ntt_cases (c : Params) (a : Series c) (dir : Direction) :
    (¬ (∃ s, a.length = 2 ^ s) ∧ ntt c a dir = .error .badLength) ∨
    (∃ s, a.length = 2 ^ s ∧ logMax c < s ∧ ntt c a dir = .error .unsupportedLength) ∨
    (∃ s, a.length = 2 ^ s ∧ s ≤ logMax c ∧ ntt c a dir = .ok (nttEngine c dir s a)) := by
  by_cases h : ∃ s, a.length = 2 ^ s
  · obtain ⟨s, hs⟩ := h
    by_cases hk : s ≤ logMax c
    · exact .inr (.inr ⟨s, hs, hk, ntt_two_pow c a dir s hs hk⟩)
    · have hc : cap c < 2 ^ s := Nat.pow_lt_pow_right (by norm_num) (by omega)
      exact .inr (.inl ⟨s, hs, by omega, by simp [ntt, hs, isPowerOfTwo_two_pow, hc]⟩)
  · have : ¬ isPowerOfTwo a.length = true := fun h' => h ((isPowerOfTwo_iff _).1 h')
    exact .inl ⟨h, by simp [ntt, this]⟩

/-! ## The convolver -/

theorem nextPow2_eq_two_pow (n : Nat) : ∃ s, nextPow2 n = 2 ^ s := by
  unfold nextPow2
  split
  · exact ⟨0, rfl⟩
  · exact ⟨_, rfl⟩

theorem le_nextPow2 (n : Nat) : n ≤ nextPow2 n := by
  unfold nextPow2
  split
  · omega
  · have := @Nat.lt_log2_self (n - 1)
    omega

/-- `nextPow2` is the smallest power of two that is at least `n` (R142). -/
theorem nextPow2_le_iff (n s : Nat) : nextPow2 n ≤ 2 ^ s ↔ n ≤ 2 ^ s := by
  refine ⟨le_trans (le_nextPow2 n), fun h => ?_⟩
  unfold nextPow2
  split
  · exact Nat.one_le_two_pow
  · refine Nat.pow_le_pow_right (by norm_num) ?_
    exact (Nat.log2_lt (by omega)).2 (by omega)

/-- Everything a convolution can do (R141, R143, R146). -/
theorem convolve_cases (c : Params) (a b : Series c) (nmax : Nat) :
    ((a.length = 0 ∨ b.length = 0) ∧ convolve c a b nmax = .ok []) ∨
    (a.length ≠ 0 ∧ b.length ≠ 0 ∧ cap c < a.length + b.length - 1 ∧
      convolve c a b nmax = .error .unsupportedLength) ∨
    (a.length ≠ 0 ∧ b.length ≠ 0 ∧ a.length + b.length - 1 ≤ cap c ∧ ∃ s r, s ≤ logMax c ∧
      nextPow2 (a.length + b.length - 1) = 2 ^ s ∧
      r = nttEngine c .inverse s (List.zipWith (fmul c) (nttEngine c .forward s (resize c a (2 ^ s)))
        (nttEngine c .forward s (resize c b (2 ^ s)))) ∧ r.length = 2 ^ s ∧
      convolve c a b nmax = .ok (r.take (min nmax (a.length + b.length - 1)))) := by
  by_cases h0 : a.length = 0 ∨ b.length = 0
  · exact .inl ⟨h0, by simp only [convolve, if_pos h0]⟩
  · obtain ⟨ha, hb⟩ := not_or.1 h0
    obtain ⟨s, hs⟩ := nextPow2_eq_two_pow (a.length + b.length - 1)
    have hle := nextPow2_le_iff (a.length + b.length - 1) (logMax c)
    by_cases hc : cap c < a.length + b.length - 1
    · have : cap c < nextPow2 (a.length + b.length - 1) := lt_of_lt_of_le hc (le_nextPow2 _)
      exact .inr (.inl ⟨ha, hb, hc, by simp only [convolve, if_neg h0, if_pos this]⟩)
    · have hsz : ¬ cap c < nextPow2 (a.length + b.length - 1) := Nat.not_lt.2 (hle.2 (Nat.not_lt.1 hc))
      have hk : s ≤ logMax c := by
        have : 2 ^ s ≤ 2 ^ logMax c := hs ▸ Nat.not_lt.1 hsz
        exact (Nat.pow_le_pow_iff_right (by norm_num)).1 this
      refine .inr (.inr ⟨ha, hb, Nat.not_lt.1 hc, s, _, hk, hs, rfl, nttEngine_length _ _ _ _, ?_⟩)
      have hz : (List.zipWith (fmul c) (nttEngine c .forward s (resize c a (2 ^ s)))
          (nttEngine c .forward s (resize c b (2 ^ s)))).length = 2 ^ s := by
        simp [nttEngine_length]
      rw [hs] at hsz
      simp only [convolve, if_neg h0, hs, if_neg hsz, ntt_two_pow c _ .forward s (resize_length c _ _) hk]
      exact congrArg (fun x : Except FailureKind (Series c) =>
        x >>= fun r => .ok (r.take (min nmax (a.length + b.length - 1)))) (ntt_two_pow c _ .inverse s hz hk)

/-- The length of a convolution's result (R141). -/
theorem convolve_length {c : Params} {a b r : Series c} {nmax : Nat} (h : convolve c a b nmax = .ok r)
    (ha : a.length ≠ 0) (hb : b.length ≠ 0) : r.length = min nmax (a.length + b.length - 1) := by
  rcases convolve_cases c a b nmax with ⟨h0, _⟩ | ⟨_, _, _, he⟩ | ⟨_, _, _, s, r', _, hs, _, hl, he⟩
  · omega
  · rw [he] at h; cases h
  · rw [he] at h
    injection h with h
    have := le_nextPow2 (a.length + b.length - 1)
    rw [← h, List.length_take, hl]
    omega

/-! ## Calculus -/

theorem derivative_length (c : Params) (a : Series c) : (derivative c a).length = max (a.length - 1) 1 := by
  unfold derivative
  split <;> simp <;> omega

/-- Everything `integral` can do (R153, R154). -/
theorem integral_cases (c : Params) (a table : Series c) :
    (table.length < a.length ∧ integral c a table = .error .tableTooShort) ∨
    (a.length ≤ table.length ∧
      integral c a table = .ok (elem c 0 :: List.zipWith (fmul c) a table) ∧
      (elem c 0 :: List.zipWith (fmul c) a table).length = a.length + 1) := by
  unfold integral
  by_cases h : table.length < a.length
  · exact .inl ⟨h, if_pos h⟩
  · exact .inr ⟨by omega, if_neg h, by simp; omega⟩

/-! ## The Newton loop -/

/-- The rule of the loop (R169, R184): an invariant that holds at the start and that every step from `m` to
`min(N, 2m)` keeps holds of the result at precision `N`. -/
theorem newton_ok {α : Type} {body : Nat → α → Except FailureKind α} {N : Nat} {I : Nat → α → Prop}
    (hbody : ∀ m x y, 1 ≤ m → m < N → I m x → body (min N (2 * m)) x = .ok y → I (min N (2 * m)) y) :
    ∀ (fuel m : Nat) (x y : α), 1 ≤ m → m ≤ N → N < 2 ^ fuel * m ∨ N = m → I m x →
      newton body N fuel m x = .ok y → I N y := by
  intro fuel
  induction fuel with
  | zero =>
    intro m x y h1 hm hf hI h
    have : m = N := by omega
    simp only [newton] at h
    cases h
    exact this ▸ hI
  | succ fuel ih =>
    intro m x y h1 hm hf hI h
    simp only [newton] at h
    split at h
    · next hlt =>
      obtain ⟨z, hz, hrest⟩ := except_bind_eq_ok h
      refine ih (min N (2 * m)) z y (by omega) (by omega) ?_ (hbody m x z h1 hlt hI hz) hrest
      rcases hf with hf | hf
      · by_cases h2 : N ≤ 2 * m
        · right; omega
        · left
          have : 2 ^ (fuel + 1) * m = 2 ^ fuel * (2 * m) := by ring
          rw [show min N (2 * m) = 2 * m by omega]
          omega
      · omega
    · next hge =>
      have : m = N := by omega
      cases h
      exact this ▸ hI

/-- The fuel of the loop is enough from `m = 1`. -/
theorem newtonSteps_enough (N : Nat) : N < 2 ^ newtonSteps N * 1 ∨ N = 1 := by
  left
  rw [Nat.mul_one]
  exact Nat.lt_log2_self

end Sys2Proof.Machine.Laws
end

