-- ==== Sys2Proof/Laws/Invariant.lean ====
section
/-! SUPPORT. The operations of the host port and reset keep the invariant of the state. -/

namespace Sys2Proof.Machine.Laws

theorem recordDropped_inv {s : State} (h : s.Inv) : s.recordDropped.Inv := ⟨h.buffers, h.table, h.code⟩

/-- Codes 9 to 15 are never produced (R201). -/
theorem failureCode_le (k : FailureKind) : (failureCode k).toNat ≤ 8 := by cases k <;> decide

theorem recordFailure_inv {s : State} (h : s.Inv) (k : FailureKind) : (s.recordFailure k).Inv :=
  ⟨h.buffers, h.table, failureCode_le k⟩

theorem recordSuccess_inv {s : State} (h : s.Inv) : s.recordSuccess.Inv := ⟨h.buffers, h.table, by simp⟩

theorem writeF_inv {s : State} (h : s.Inv) (i : Nat) (x : FieldElement) : (s.writeF i x).Inv :=
  ⟨h.buffers, h.table, h.code⟩

theorem writeV_inv {s : State} (h : s.Inv) (i : Nat) (a : CoeffSeries) (ha : a.length ≤ cap reference) :
    (s.writeV i a).Inv := by
  refine ⟨fun j => ?_, h.table, h.code⟩
  rcases seriesBufs_get_set_cases s.v i j a with hj | ⟨_, hj⟩
  · exact (congrArg List.length hj).trans_le (h.buffers j)
  · exact (congrArg List.length hj).trans_le ha

theorem hostRead_inv {s : State} (h : s.Inv) (addr : Nat) : (s.hostRead addr).Inv := by
  rcases hostRead_cases s addr with ⟨w, _, hr⟩ | ⟨_, hr⟩ <;> rw [hr] <;> exact ⟨h.buffers, h.table, h.code⟩

theorem writeLocation_inv {s t : State} (h : s.Inv) {l : Location} {v : Word} (hw : s.writeLocation l v = some t) :
    t.Inv := by
  cases l with
  | status => injection hw with hw; exact hw ▸ ⟨h.buffers, h.table, h.code⟩
  | cmd => injection hw with hw; exact hw ▸ h
  | n => injection hw with hw; exact hw ▸ ⟨h.buffers, h.table, h.code⟩
  | e => injection hw with hw; exact hw ▸ ⟨h.buffers, h.table, h.code⟩
  | tlen =>
    simp only [State.writeLocation] at hw
    split at hw
    · next hv => injection hw with hw; exact hw ▸ ⟨h.buffers, (resize_length _ _ _).trans_le hv, h.code⟩
    · cases hw
  | vlen i =>
    simp only [State.writeLocation] at hw
    split at hw
    · next hv => injection hw with hw; exact hw ▸ writeV_inv h i _ ((resize_length _ _ _).trans_le hv)
    · cases hw
  | f i =>
    obtain ⟨x, _, hx⟩ := Option.map_eq_some_iff.1 hw
    exact hx ▸ writeF_inv h i x
  | coeff i j =>
    simp only [State.writeLocation] at hw
    split at hw
    · obtain ⟨x, _, hx⟩ := Option.map_eq_some_iff.1 hw
      exact hx ▸ writeV_inv h i _ (by simpa using h.buffers i)
    · cases hw
  | table j =>
    simp only [State.writeLocation] at hw
    split at hw
    · obtain ⟨x, _, hx⟩ := Option.map_eq_some_iff.1 hw
      exact hx ▸ ⟨h.buffers, by simpa using h.table, h.code⟩
    · cases hw
  | id | modulus | root | logmax | rom => cases hw

theorem hostStore_inv {s : State} (h : s.Inv) (addr : Nat) (v : Word) : (s.hostStore addr v).Inv := by
  rcases hostStore_cases s addr v with ⟨l, t, _, hw, ht⟩ | ht
  · exact ht ▸ writeLocation_inv h hw
  · exact ht ▸ recordDropped_inv h

end Sys2Proof.Machine.Laws
end

