-- ==== Sys2Proof/Laws/PerInstr.lean ====
section
/-! SUPPORT. The per-instruction family `EncodesOpcode`: the opcode byte of a command's word is the table's
(spec/30_encoding.md R73). -/

namespace Sys2Proof.Laws

def EncodesOpcode.Statement (i : Instr) : Prop := opcodeOf (encode i) = i.opcode

theorem EncodesOpcode.fadd (rd ra rb : Index) : EncodesOpcode.Statement (.fadd rd ra rb) := opcodeOf_wordOf ..
theorem EncodesOpcode.fsub (rd ra rb : Index) : EncodesOpcode.Statement (.fsub rd ra rb) := opcodeOf_wordOf ..
theorem EncodesOpcode.fmul (rd ra rb : Index) : EncodesOpcode.Statement (.fmul rd ra rb) := opcodeOf_wordOf ..
theorem EncodesOpcode.fpow (rd ra : Index) : EncodesOpcode.Statement (.fpow rd ra) := opcodeOf_wordOf ..
theorem EncodesOpcode.finv (rd ra : Index) : EncodesOpcode.Statement (.finv rd ra) := opcodeOf_wordOf ..
theorem EncodesOpcode.bfly (ra rb rc : Index) : EncodesOpcode.Statement (.bfly ra rb rc) := opcodeOf_wordOf ..
theorem EncodesOpcode.ntt (rd : Index) (dir : Direction) : EncodesOpcode.Statement (.ntt rd dir) := opcodeOf_wordOf ..
theorem EncodesOpcode.conv (rd ra rb : Index) : EncodesOpcode.Statement (.conv rd ra rb) := opcodeOf_wordOf ..
theorem EncodesOpcode.deriv (rd ra : Index) : EncodesOpcode.Statement (.deriv rd ra) := opcodeOf_wordOf ..
theorem EncodesOpcode.integ (rd ra : Index) : EncodesOpcode.Statement (.integ rd ra) := opcodeOf_wordOf ..
theorem EncodesOpcode.sinv (rd ra : Index) : EncodesOpcode.Statement (.sinv rd ra) := opcodeOf_wordOf ..
theorem EncodesOpcode.slog (rd ra : Index) : EncodesOpcode.Statement (.slog rd ra) := opcodeOf_wordOf ..
theorem EncodesOpcode.sexp (rd ra : Index) : EncodesOpcode.Statement (.sexp rd ra) := opcodeOf_wordOf ..
theorem EncodesOpcode.vrsz (rd ra : Index) : EncodesOpcode.Statement (.vrsz rd ra) := opcodeOf_wordOf ..

end Sys2Proof.Laws
end

