-- ==== Sys2Proof/Tests/Slice0.lean ====
section
/-! SUPPORT. Tests of the model: the index checks, the decoding of words written out from spec/30_encoding.md, one-step
tests whose expected results are the vectors of spec/95_test_vectors.md, and a witness for each statement that has
hypotheses. -/

namespace Sys2Proof.Tests

-- One theorem after another: the kernel evaluations side by side would take more threads than the check's memory limit allows.
set_option Elab.async false

open Sys2Proof.Machine

/-! ## Helpers -/

/-- A series from natural numbers. -/
def ser (c : Params) (xs : List Nat) : Series c := xs.map (elem c)

/-- The reset state with the registers `F0..F7` loaded from the list and zeros after it. -/
def withF (xs : List Nat) : State :=
  { State.reset with
    f := ⟨elem _ (xs.getD 0 0), elem _ (xs.getD 1 0), elem _ (xs.getD 2 0), elem _ (xs.getD 3 0), elem _ (xs.getD 4 0),
      elem _ (xs.getD 5 0), elem _ (xs.getD 6 0), elem _ (xs.getD 7 0)⟩ }

/-- The reset state with `V0`, `V1`, `N` and a table of correct inverses of length `L` loaded. -/
def withV (v0 v1 : List Nat) (n : Word) (L : Nat) : State :=
  { State.reset with v := ⟨ser _ v0, ser _ v1, [], []⟩, n := n, t := hostTable reference L }

/-- One step of the machine on the state in which the next event is a host write of the word `w` to `CMD`, checked. -/
def issued (w : Nat) (s : State) (check : State → Bool) : Bool :=
  match step (s.withFetchWord 32 w) with
  | .next t => check t
  | .fault _ => false
  | .refused _ => false

/-- The command succeeded and its destination buffer holds the series. -/
def bufferIs (i : Nat) (xs : List Nat) (t : State) : Bool := t.err == 0 && t.readV i == ser _ xs

/-- What the host reads in the registers `F0, F1, ...`, and that the command succeeded. -/
def registersAre (xs : List Nat) (t : State) : Bool :=
  t.err == 0 && (List.range xs.length).all fun i => (t.readF i).val == xs.getD i 0

/-- One host event performed on a state, checked. -/
def after (ev : HostEvent) (s : State) (check : State → Bool) : Bool :=
  match step { s with pending := [ev] } with
  | .next t => check t
  | .fault _ => false
  | .refused _ => false

/-- A series result is this one. -/
def isOk {c : Params} (r : Except FailureKind (Series c)) (xs : List Nat) : Bool :=
  match r with
  | .ok a => a == ser c xs
  | .error _ => false

/-- A result is this failure. -/
def isError {α : Type} (r : Except FailureKind α) (k : FailureKind) : Bool :=
  match r with
  | .ok _ => false
  | .error k' => k' == k

/-- `n` ones. -/
def ones (n : Nat) : List Nat := List.replicate n 1

/-! ## Well-formedness: each index check refuses an index out of range (R74) -/

theorem test_wf_refuses_fadd :
    ¬ (Instr.fadd 8 0 0).WellFormed ∧ ¬ (Instr.fadd 0 8 0).WellFormed ∧ ¬ (Instr.fadd 0 0 8).WellFormed := by decide
theorem test_wf_refuses_fsub :
    ¬ (Instr.fsub 8 0 0).WellFormed ∧ ¬ (Instr.fsub 0 8 0).WellFormed ∧ ¬ (Instr.fsub 0 0 8).WellFormed := by decide
theorem test_wf_refuses_fmul :
    ¬ (Instr.fmul 8 0 0).WellFormed ∧ ¬ (Instr.fmul 0 8 0).WellFormed ∧ ¬ (Instr.fmul 0 0 8).WellFormed := by decide
theorem test_wf_refuses_fpow : ¬ (Instr.fpow 8 0).WellFormed ∧ ¬ (Instr.fpow 0 8).WellFormed := by decide
theorem test_wf_refuses_finv : ¬ (Instr.finv 15 0).WellFormed ∧ ¬ (Instr.finv 0 15).WellFormed := by decide
theorem test_wf_refuses_bfly :
    ¬ (Instr.bfly 8 0 0).WellFormed ∧ ¬ (Instr.bfly 0 8 0).WellFormed ∧ ¬ (Instr.bfly 0 0 8).WellFormed := by decide
theorem test_wf_refuses_ntt : ¬ (Instr.ntt 4 .forward).WellFormed ∧ ¬ (Instr.ntt 4 .inverse).WellFormed := by decide
theorem test_wf_refuses_conv :
    ¬ (Instr.conv 4 0 0).WellFormed ∧ ¬ (Instr.conv 0 4 0).WellFormed ∧ ¬ (Instr.conv 0 0 4).WellFormed := by decide
theorem test_wf_refuses_deriv : ¬ (Instr.deriv 4 0).WellFormed ∧ ¬ (Instr.deriv 0 4).WellFormed := by decide
theorem test_wf_refuses_integ : ¬ (Instr.integ 4 0).WellFormed ∧ ¬ (Instr.integ 0 4).WellFormed := by decide
theorem test_wf_refuses_sinv : ¬ (Instr.sinv 4 0).WellFormed ∧ ¬ (Instr.sinv 0 4).WellFormed := by decide
theorem test_wf_refuses_slog : ¬ (Instr.slog 4 0).WellFormed ∧ ¬ (Instr.slog 0 4).WellFormed := by decide
theorem test_wf_refuses_sexp : ¬ (Instr.sexp 4 0).WellFormed ∧ ¬ (Instr.sexp 0 4).WellFormed := by decide
theorem test_wf_refuses_vrsz : ¬ (Instr.vrsz 12 0).WellFormed ∧ ¬ (Instr.vrsz 0 4).WellFormed := by decide

/-! ## Decoding: words written out from R71 and R73 (30_encoding.md section 5; 95_test_vectors.md B11) -/

theorem test_decode_fadd : decode 0b00000001_0010_0000_0001_0000_00000000 = .ok (.fadd 2 0 1) := by decide
theorem test_decode_fsub : decode 0b00000010_0111_0111_0111_0000_00000000 = .ok (.fsub 7 7 7) := by decide
theorem test_decode_fmul : decode 0b00000011_0011_0001_0010_0000_00000000 = .ok (.fmul 3 1 2) := by decide
theorem test_decode_fpow : decode 0b00000100_0001_0000_0000_0000_00000000 = .ok (.fpow 1 0) := by decide
theorem test_decode_finv : decode 0b00000101_0100_0101_0000_0000_00000000 = .ok (.finv 4 5) := by decide
theorem test_decode_bfly : decode 0b00010000_0000_0000_0001_0010_00000000 = .ok (.bfly 0 1 2) := by decide
theorem test_decode_nttf : decode 0b00010001_0001_0000_0000_0000_00000000 = .ok (.nttf 1) := by decide
theorem test_decode_ntti : decode 0b00010001_0001_0000_0000_0000_00000001 = .ok (.ntti 1) := by decide
theorem test_decode_conv : decode 0b00100000_0010_0000_0001_0000_00000000 = .ok (.conv 2 0 1) := by decide
theorem test_decode_deriv : decode 0b00110000_0001_0000_0000_0000_00000000 = .ok (.deriv 1 0) := by decide
theorem test_decode_integ : decode 0b00110001_0011_0010_0000_0000_00000000 = .ok (.integ 3 2) := by decide
theorem test_decode_sinv : decode 0b01000000_0001_0000_0000_0000_00000000 = .ok (.sinv 1 0) := by decide
theorem test_decode_slog : decode 0b01010000_0010_0000_0000_0000_00000000 = .ok (.slog 2 0) := by decide
theorem test_decode_sexp : decode 0b01010001_0011_0000_0000_0000_00000000 = .ok (.sexp 3 0) := by decide
theorem test_decode_vrsz : decode 0b01100000_0000_0000_0000_0000_00000000 = .ok (.vrsz 0 0) := by decide

/-- The illegal words of B11, by the reason that is named. -/
theorem test_decode_reserved_opcodes : ([0x00000000, 0xFFFFFFFF, 0x06000000, 0x12000000, 0x61000000] : List Word).all
    (fun w => decide (decode w = .error .reservedOpcode)) = true := by decide
theorem test_decode_unused_fields :
    ([0x01000100, 0x01000001, 0x04001000, 0x05000080, 0x10100000, 0x11000002, 0x11010000, 0x20000100, 0x40001000,
      0x51000001, 0x40100001, 0x10101200] : List Word).all
    (fun w => decide (decode w = .error .unusedField)) = true := by decide
theorem test_decode_index_ranges :
    ([0x01800000, 0x01080000, 0x01008000, 0x10000800, 0x11400000, 0x20400000, 0x30040000, 0x60C00000] : List Word).all
    (fun w => decide (decode w = .error .indexRange)) = true := by decide
/-- The legal words at the ends of the ranges, of B11. -/
theorem test_decode_range_ends :
    decode 0x01777000 = .ok (.fadd 7 7 7) ∧ decode 0x10007700 = .ok (.bfly 0 7 7) ∧
    decode 0x11300001 = .ok (.ntt 3 .inverse) ∧ decode 0x20333000 = .ok (.conv 3 3 3) ∧
    decode 0x60330000 = .ok (.vrsz 3 3) := by decide
/-- R80 and section 5: the text of a command. -/
theorem test_assembly : (Instr.fadd 2 0 1).assembly = "FADD F2, F0, F1" ∧ (Instr.ntti 1).assembly = "NTT V1, 1" := by
  decide
/-- The table's numbering: bits above `nbits` are 0, and a word too short for its opcode is refused. -/
theorem test_decodeTableWord : decodeTableWord 32 0x01012000 = some (.fadd 0 1 2) ∧ decodeTableWord 16 0x01012000 = none := by
  decide

/-! ## One command each (95_test_vectors.md B1 to B10, B14) -/

/-- B1: `(-1) + (-1) = -2`. -/
theorem test_fadd_wraps : issued 0x01012000 (withF [0, 998244352, 998244352]) (registersAre [998244351]) = true := by
  decide +kernel
/-- B1: `5 - 7 = -2`. -/
theorem test_fsub_borrows : issued 0x02012000 (withF [0, 5, 7]) (registersAre [998244351, 5, 7]) = true := by decide +kernel
/-- B1: a 64-bit product reduced. -/
theorem test_fmul_reduces :
    issued 0x03012000 (withF [0, 123456789, 987654321]) (registersAre [263684735]) = true := by decide +kernel
/-- B1: the destination is both sources. -/
theorem test_fmul_aliased : issued 0x03333000 (withF [0, 0, 0, 6]) (registersAre [0, 0, 0, 36]) = true := by decide +kernel
/-- B1: the largest exponent. -/
theorem test_fpow_full_exponent :
    issued 0x04010000 { withF [0, 3] with e := 0xFFFFFFFF } (registersAre [492998393]) = true := by decide +kernel
/-- B14: `0^0 = 1`. -/
theorem test_fpow_zero_zero : issued 0x04000000 State.reset (registersAre [1]) = true := by decide +kernel
/-- B1. -/
theorem test_finv : issued 0x05010000 (withF [0, 2]) (registersAre [499122177]) = true := by decide +kernel
/-- B1: the destination stays, `STATUS = 0x201`. -/
theorem test_finv_zero : issued 0x05010000 (withF [9, 0])
    (fun t => t.statusWord == 0x201 && (t.readF 0).val == 9) = true := by decide +kernel
/-- B3. -/
theorem test_bfly : issued 0x10001200 (withF [5, 7, 3]) (registersAre [26, 998244337, 3]) = true := by decide +kernel
/-- B3: `ra = rb`, the second write prevails. -/
theorem test_bfly_aliased : issued 0x10000200 (withF [5, 0, 3]) (registersAre [998244343, 0, 3]) = true := by decide +kernel
/-- B4: forward, eight coefficients. -/
theorem test_ntt_forward : issued 0x11000000 (withV [1, 2, 3, 4, 5, 6, 7, 8] [] 0 0)
    (bufferIs 0 [36, 894301004, 346334868, 201631260, 998244349, 796613085, 651909477, 103943341]) = true := by
  decide +kernel
/-- B4: inverse, four coefficients. -/
theorem test_ntt_inverse : issued 0x11000001 (withV [1, 2, 3, 4] [] 0 0)
    (bufferIs 0 [499122179, 455830317, 499122176, 542414035]) = true := by decide +kernel
/-- B5: no padding to `N`. -/
theorem test_conv : issued 0x20201000 (withV [1, 2, 3] [4, 5] 10 0) (bufferIs 2 [4, 13, 22, 15]) = true := by decide +kernel
/-- B5: truncated at `N`, the destination being both sources. -/
theorem test_conv_truncated : issued 0x20000000 (withV [1, 1] [] 2 0) (bufferIs 0 [1, 2]) = true := by decide +kernel
/-- B6. -/
theorem test_deriv : issued 0x30100000 (withV [5, 6, 7, 8] [] 0 0) (bufferIs 1 [6, 14, 24]) = true := by decide +kernel
/-- B6: an empty source. -/
theorem test_deriv_empty : issued 0x30100000 State.reset (bufferIs 1 [0]) = true := by decide +kernel
/-- B6. -/
theorem test_integ : issued 0x31100000 (withV [5, 6, 7] [] 0 3) (bufferIs 1 [0, 5, 3, 332748120]) = true := by
  decide +kernel
/-- B6: one entry short; the destination stays. -/
theorem test_integ_short_table : issued 0x31100000 (withV [5, 6, 7] [77] 0 2)
    (fun t => t.statusWord == 0x206 && t.readV 1 == ser _ [77]) = true := by decide +kernel
/-- B7: steps `m = 2, 4, 5`. -/
theorem test_sinv : issued 0x40100000 (withV [2, 3, 5] [] 5 0)
    (bufferIs 1 [499122177, 748683264, 124780544, 935854083, 779878398]) = true := by decide +kernel
/-- B7: the length check comes before the leading coefficient. -/
theorem test_sinv_length_first : issued 0x40100000 (withV [0] [] 0 0) (fun t => t.statusWord == 0x207) = true := by
  decide +kernel
/-- B8. -/
theorem test_slog : issued 0x50100000 (withV [1, 998244352] [] 5 16)
    (bufferIs 1 [0, 998244352, 499122176, 665496235, 249561088]) = true := by decide +kernel
/-- B8: `N = 1` still needs one entry. -/
theorem test_slog_needs_an_entry : issued 0x50100000 (withV [1, 1] [] 1 0) (fun t => t.statusWord == 0x206) = true := by
  decide +kernel
/-- B9: `exp(x + x^2)`. -/
theorem test_sexp : issued 0x51100000 (withV [0, 1, 1] [] 4 16)
    (bufferIs 1 [1, 1, 499122178, 166374060]) = true := by decide +kernel
/-- B9: no step, no table. -/
theorem test_sexp_one_term : issued 0x51100000 (withV [0, 1] [] 1 0) (bufferIs 1 [1]) = true := by decide +kernel
/-- B10. -/
theorem test_vrsz : issued 0x60100000 (withV [1, 2, 3] [] 5 0) (bufferIs 1 [1, 2, 3, 0, 0]) = true := by decide +kernel
/-- B10: `N = CAP + 1`. -/
theorem test_vrsz_too_long : issued 0x60100000 (withV [1, 2, 3] [] 8388609 0) (fun t => t.statusWord == 0x207) = true := by
  decide +kernel
/-- B11: `IllegalCommand` outranks every other failure. -/
theorem test_illegal_first : issued 0x40100001 State.reset (fun t => t.statusWord == 0x208) = true := by decide +kernel

/-! ## The host port and reset (95_test_vectors.md B12, B2) -/

theorem test_write_beyond_length : after (.write 0x1000003 7) (withV [0, 7, 0] [] 0 0)
    (fun t => t.statusWord == 0x100 && t.readV 0 == ser _ [0, 7, 0]) = true := by decide +kernel
theorem test_read_beyond_length : after (.read 0x1000003) (withV [0, 7, 0] [] 0 0)
    (fun t => t.statusWord == 0 && t.replies == [0]) = true := by decide +kernel
theorem test_write_not_reduced : after (.write 0x1000000 998244353) (withV [4] [] 0 0)
    (fun t => t.aerr && t.readV 0 == ser _ [4]) = true := by decide +kernel
theorem test_shrink_then_grow : after (.write 0x10 4) (withV [998244352, 7] [] 0 0) (bufferIs 0 [998244352, 7, 0, 0]) = true := by
  decide +kernel
theorem test_table_entry : after (.write 0x5000002 499122177) (withV [] [] 0 1) (fun t => t.aerr && t.t.length == 1) = true ∧
    after (.read 0x5000001) (withV [] [] 0 1) (fun t => t.replies == [1]) = true := by decide +kernel
theorem test_rom_reads : after (.read 0x6000002) State.reset (fun t => t.replies == [911660635]) = true ∧
    after (.read 0x6000022) State.reset (fun t => t.replies == [86583718]) = true ∧
    after (.read 0x6000057) State.reset (fun t => t.replies == [998244234]) = true := by decide +kernel
theorem test_rom_holes : after (.read 0x6000018) State.reset (fun t => t.aerr && t.replies == [0]) = true ∧
    after (.read 0x6000060) State.reset (fun t => t.aerr && t.replies == [0]) = true := by decide +kernel
theorem test_unmapped : after (.read 0x9) State.reset (fun t => t.aerr && t.replies == [0]) = true ∧
    after (.read 0x7000000) State.reset (fun t => t.aerr) = true ∧
    after (.read 0x10000000) State.reset (fun t => t.aerr) = true := by decide +kernel
theorem test_read_only : after (.write 0x1 5) State.reset (fun t => t.statusWord == 0x100) = true := by decide +kernel
theorem test_status_clear : after (.write 0x4 0x100) { State.reset with aerr := true, estk := true, err := 3 }
    (fun t => t.statusWord == 0x203) = true := by decide +kernel
theorem test_reset_abandons : after (.resetDuring 0x01000000) (withV [1, 2] [3] 7 4)
    (fun t => t == State.reset) = true := by decide +kernel

/-! ## Limits on the small instance (95_test_vectors.md B13) -/

/-- `P = 17`, `G = 3`. -/
def small : Params where
  P := 17
  G := 3
  prime := by norm_num
  P_lt := by norm_num
  G_pos := by norm_num
  G_lt := by norm_num
  primitive := by
    refine ⟨by constructor <;> norm_num, ?_⟩
    rintro e ⟨h1, h2⟩
    by_contra h
    have : e < 16 := by omega
    interval_cases e <;> norm_num at h2

theorem test_small_geometry : logMax small = 4 ∧ cap small = 16 ∧ offsetWidth small = 7 := by decide +kernel
theorem test_small_rom : (List.range 5).map (fun k => (romRoot small k).val) = [1, 16, 13, 9, 3] ∧
    (List.range 5).map (fun k => (romIroot small k).val) = [1, 16, 4, 2, 6] ∧
    (List.range 5).map (fun k => (romNinv small k).val) = [1, 9, 13, 15, 16] := by decide +kernel
theorem test_small_table : hostTable small 16 = ser small [1, 9, 6, 13, 7, 3, 5, 15, 2, 12, 14, 10, 4, 11, 8, 16] := by
  decide +kernel
theorem test_small_convolve :
    isOk (convolve small (ser _ (ones 8)) (ser _ (ones 9)) 16) [1, 2, 3, 4, 5, 6, 7, 8, 8, 7, 6, 5, 4, 3, 2, 1] = true ∧
    isError (convolve small (ser _ (ones 9)) (ser _ (ones 9)) 0) .unsupportedLength = true ∧
    isOk (convolve small [] (ser _ (ones 40)) 9) [] = true := by decide +kernel
theorem test_small_inverse :
    isOk (seriesInverse small (ser _ [1, 1]) 9) [1, 16, 1, 16, 1, 16, 1, 16, 1] = true ∧
    isError (seriesInverse small (ser _ [1, 1]) 10) .unsupportedLength = true ∧
    isError (seriesInverse small (ser _ [1, 1]) 17) .unsupportedLength = true := by decide +kernel
theorem test_small_log :
    isOk (seriesLog small (ser _ [1, 1]) 9 (hostTable small 8)) [0, 1, 8, 6, 4, 7, 14, 5, 2] = true ∧
    isError (seriesLog small (ser _ [1, 1]) 10 []) .unsupportedLength = true ∧
    isOk (seriesLog small (ser _ (ones 12)) 4 (hostTable small 16)) [0, 1, 9, 6] = true ∧
    isError (seriesLog small (ser _ (ones 16)) 4 (hostTable small 2)) .unsupportedLength = true := by decide +kernel
theorem test_small_exp :
    isOk (seriesExp small (ser _ [0, 1]) 9 (hostTable small 8)) [1, 1, 9, 3, 5, 1, 3, 15, 4] = true ∧
    isError (seriesExp small (ser _ [0, 1]) 10 (hostTable small 7)) .unsupportedLength = true ∧
    isError (seriesExp small (ser _ [0, 1]) 10 (hostTable small 6)) .tableTooShort = true ∧
    isError (seriesExp small (ser _ [0, 1]) 9 (hostTable small 7)) .tableTooShort = true := by decide +kernel
theorem test_small_integral_and_resize :
    isError (integralToBuffer small (ser _ (ones 16)) (hostTable small 16)) .badLength = true ∧
    isOk (integralToBuffer small (ser _ (ones 15)) (hostTable small 16))
      [0, 1, 9, 6, 13, 7, 3, 5, 15, 2, 12, 14, 10, 4, 11, 8] = true ∧
    isError (resizeToBuffer small [] 17) .badLength = true ∧
    isOk (resizeToBuffer small [] 16) (List.replicate 16 0) = true := by decide +kernel

/-! ## Witnesses: concrete states and operands that meet the hypotheses of each statement, clause by clause -/

/-- The reset state with `a` coefficients `x` in `V0`, `b` ones in `V1`, `N = n` and `L` entries in the table. -/
def sized (a b L x : Nat) (n : Word) : State :=
  { State.reset with
    v := ⟨List.replicate a (elem _ x), List.replicate b (elem _ 1), [], []⟩, n := n, t := List.replicate L (elem _ 1) }

theorem sized_v0 (a b L x : Nat) (n : Word) : ((sized a b L x n).readV 0).length = a := List.length_replicate ..
theorem sized_v1 (a b L x : Nat) (n : Word) : ((sized a b L x n).readV 1).length = b := List.length_replicate ..
theorem sized_t (a b L x : Nat) (n : Word) : (sized a b L x n).t.length = L := List.length_replicate ..
theorem sized_n (a b L x : Nat) (n : Word) : (sized a b L x n).n = n := rfl
theorem sized_lead (a b L x : Nat) (n : Word) (h : 0 < a) : coef reference ((sized a b L x n).readV 0) 0 = elem _ x := by
  cases a with
  | zero => cases h
  | succ a => rfl

theorem sized_inv (a b L x : Nat) (n : Word) (ha : a ≤ 8388608) (hb : b ≤ 8388608) (hL : L ≤ 8388608) :
    (sized a b L x n).Inv := by
  refine ⟨fun i => ?_, ?_, Nat.zero_le 8⟩
  · rw [Laws.cap_reference]
    match i with
    | 0 => rw [sized_v0]; exact ha
    | 1 => rw [sized_v1]; exact hb
    | 2 => exact Nat.zero_le _
    | 3 => exact Nat.zero_le _
    | _ + 4 => exact Nat.zero_le _
  · rw [Laws.cap_reference, sized_t]; exact hL

/-- `exec` answers a next state with this property. -/
def completes (i : Instr) (s : State) (check : State → Bool) : Bool :=
  match exec i s with
  | .next t => check t
  | .fault _ => false
  | .refused _ => false

theorem exists_of_completes {i : Instr} {s : State} {check : State → Bool} (h : completes i s check = true) :
    ∃ t, exec i s = .next t ∧ check t = true := by
  unfold completes at h
  split at h
  · next t ht => exact ⟨t, ht, h⟩
  · cases h
  · cases h

theorem exists_of_isOk {c : Params} {r : Except FailureKind (Series c)} {xs : List Nat} (h : isOk r xs = true) :
    ∃ a, r = .ok a := by
  cases r with
  | ok a => exact ⟨a, rfl⟩
  | error k => cases h

theorem witness_DecodeOfEncode : (Instr.fadd 7 7 7).WellFormed ∧ (Instr.fpow 7 7).WellFormed ∧
    (Instr.bfly 7 7 7).WellFormed ∧ (Instr.ntt 3 .inverse).WellFormed ∧ (Instr.conv 3 3 3).WellFormed ∧
    (Instr.vrsz 3 3).WellFormed := by decide
theorem witness_AcceptedWordIsTheEncoding : decode 0x11300001 = .ok (.ntt 3 .inverse) := by decide
theorem witness_OpcodeMapDecidesDecoding : (⟨"NTT", 0x11000000, 0xFFCFFFFE⟩ : OpcodeRow) ∈ opcodeTable ∧
    ∀ r ∈ opcodeTable, opcodeOf 0x12000000 ≠ opcodeOf r.pattern := by decide
theorem witness_IllegalWordFails : (∀ r ∈ opcodeTable, r.accepts 0x01800000 = false) ∧
    ∀ r ∈ opcodeTable, r.accepts 0x11000002 = false := by decide
theorem witness_IllFormedCommandFails : ¬ (Instr.fadd 8 0 0).WellFormed ∧ ¬ (Instr.vrsz 0 4).WellFormed := by decide
theorem witness_StepRunsDecodedCommand :
    ({ State.reset with pending := [.write cmdAddress 0x04000000] } : State).pending = .write cmdAddress 0x04000000 :: [] ∧
    decode 0x04000000 = .ok (.fpow 0 0) ∧ decodeTableWord 32 0x04000000 = some (.fpow 0 0) := by decide
theorem witness_StepPerformsTheNextEvent : State.reset.pending = [] ∧
    ({ State.reset with pending := [.read 0] } : State).pending = .read 0 :: [] ∧
    ({ State.reset with pending := [.write 6 9] } : State).pending = .write 6 9 :: [] ∧ (4 : Nat) ≠ 5 ∧ (6 : Nat) ≠ 5 ∧
    ({ State.reset with pending := [.reset] } : State).pending = .reset :: [] ∧
    ({ State.reset with pending := [.resetDuring 0x04000000] } : State).pending = .resetDuring 0x04000000 :: [] := by
  decide
theorem witness_ResetLeavesTheResetState :
    ({ withF [7, 8] with pending := [.reset, .read 0x20] } : State).pending = .reset :: [.read 0x20] ∧
    ({ withF [7, 8] with pending := [.resetDuring 0x04000000] } : State).pending = .resetDuring 0x04000000 :: [] := by
  decide
theorem witness_EveryStepKeepsTheInvariant : (sized 8388608 8388608 8388608 1 0).Inv ∧
    ∃ t, step ((sized 8388608 8388608 8388608 1 0)) = .next t :=
  ⟨sized_inv _ _ _ _ _ (by decide) (by decide) (by decide), _, rfl⟩
theorem witness_LocationsAndAddressesAgree : (Location.vlen 3).Exists reference ∧ (Location.f 7).Exists reference ∧
    (Location.coeff 3 16777215).Exists reference ∧ (Location.table 16777215).Exists reference ∧
    (Location.rom 16777215).Exists reference ∧ locate reference 0x4FFFFFF = some (.coeff 3 0xFFFFFF) := by
  simp only [Location.Exists, Laws.offsetWidth_reference]; decide
theorem witness_ReadsReturnTheLocation : (3 : Nat) < 4 ∧ (7 : Nat) < 8 ∧ (8388607 : Nat) < 2 ^ 24 ∧
    8388607 < ((sized 8388608 0 0 1 0).readV 0).length ∧ (23 : Nat) < 32 ∧ 524287 * 32 + 31 < 2 ^ 24 ∧
    State.reset.peek 0 = some 0x4D464131 := by
  rw [sized_v0]; decide
theorem witness_WritesStore : (7 : Nat) < 8 ∧ (0x3B800000 : Word).toNat < reference.P ∧ (0 : Nat) < 4 ∧
    8388607 < ((sized 8388608 0 8388608 1 0).readV 0).length ∧ (1 : Nat) ≤ 8388608 ∧
    8388608 ≤ (sized 8388608 0 8388608 1 0).t.length := by
  rw [sized_v0, sized_t]; decide
theorem witness_LengthWritesResize : (3 : Nat) < 4 ∧ (8388608 : Word).toNat ≤ 8388608 ∧ 8388608 < (8388609 : Word).toNat ∧
    8388606 < (8388608 : Word).toNat ∧ 8388606 < ((sized 8388607 0 8388607 1 0).readV 0).length ∧
    8388607 < (8388608 : Word).toNat ∧ ((sized 8388607 0 8388607 1 0).readV 0).length ≤ 8388607 ∧
    8388606 < (sized 8388607 0 8388607 1 0).t.length ∧ (sized 8388607 0 8388607 1 0).t.length ≤ 8388607 := by
  rw [sized_v0, sized_t]; decide
theorem witness_DroppedAccesses : 7 * 2 ^ 24 ≤ 0x7000000 ∧ (0x09 ≤ 0x0F ∧ 0x0F ≤ 0x0F) ∧ (0x14 ≤ 0x1F ∧ 0x1F ≤ 0x1F) ∧
    (0x28 ≤ 0x28 ∧ 0x28 < 2 ^ 24) ∧ 0x03 ≤ 0x03 ∧ reference.P ≤ (0x3B800001 : Word).toNat ∧
    ((sized 3 0 2 1 0).readV 0).length ≤ 3 ∧ (sized 3 0 2 1 0).t.length < 3 ∧ 8388608 < 2 ^ 24 ∧ 8388608 < 8388609 ∧
    96 ≤ 96 ∧ 23 < 24 % 32 := by decide
theorem witness_StickyFlagsClearedOnlyByTheHost :
    after (.write 0x04 0x300) { State.reset with aerr := true, estk := true } (fun t => !t.aerr && !t.estk) = true ∧
    after .reset { State.reset with aerr := true, estk := true } (fun t => !t.aerr && !t.estk) = true ∧
    completes (.fpow 0 0) { State.reset with aerr := true } (fun t => t.aerr) = true := by decide +kernel
theorem witness_FailedCommandChangesOnlyStatus :
    (∃ t, exec (.finv 0 0) State.reset = .next t ∧ (t.err != 0) = true) ∧
    ∃ t, exec (.fpow 0 0) { State.reset with estk := true } = .next t ∧ (t.err == 0) = true :=
  ⟨exists_of_completes (by decide +kernel), exists_of_completes (by decide +kernel)⟩
theorem witness_CommandReportsOnlyItsFailures : (sized 2 0 0 0 3).Inv ∧ (Instr.sinv 1 0).WellFormed ∧
    ∃ t, exec (.sinv 1 0) (sized 2 0 0 0 3) = .next t ∧ (t.err != 0) = true :=
  ⟨sized_inv _ _ _ _ _ (by decide) (by decide) (by decide), by decide, exists_of_completes (by decide +kernel)⟩
theorem witness_CommandReadsOnlyItsOperands : (Instr.fadd 0 1 2).WellFormed ∧
    operandsAgree (.fadd 0 1 2) (withF [0, 1, 2]) { withF [5, 1, 2] with n := 3, e := 4 } ∧
    (∃ t, exec (.fadd 0 1 2) (withF [0, 1, 2]) = .next t ∧ (t.err == 0) = true) ∧
    ∃ t, exec (.fadd 0 1 2) { withF [5, 1, 2] with n := 3, e := 4 } = .next t ∧ (t.err == 0) = true :=
  ⟨by decide, ⟨rfl, rfl⟩, exists_of_completes (by decide +kernel), exists_of_completes (by decide +kernel)⟩
theorem witness_FpowIsThePower : 1 ≤ 1 := by decide
theorem witness_FinvIsTheInverse : elem reference 998244352 ≠ elem reference 0 ∧
    fmul reference (elem _ 2) (elem _ 499122177) = elem _ 1 := by decide
theorem witness_FaddFsubFmulComplete : (7 : Index).toNat < 8 ∧ (0 : Index).toNat < 8 := by decide
theorem witness_FpowCompletes : (7 : Index).toNat < 8 := by decide
theorem witness_FinvCompletesOrFails : (7 : Index).toNat < 8 ∧ ((withF [0, 2]).readF 1).val ≠ 0 ∧
    ((withF [0, 2]).readF 0).val = 0 := by decide
theorem witness_FieldCommandFrame : (0x20 : Nat) ≠ addressOf reference (.f 7) ∧ (0x20 : Nat) ≠ addressOf reference .status ∧
    ∃ t, exec (.fadd 7 0 1) (withF [1, 2]) = .next t ∧ (t.err == 0) = true :=
  ⟨by decide, by decide, exists_of_completes (by decide +kernel)⟩
theorem witness_RomHoldsRootsOfUnity : 23 ≤ logMax reference ∧ reference.P % 2 = 1 := by decide
theorem witness_BitReversalReadsBitsBackwards : 7 < 2 ^ 3 ∧ 0 < 2 ^ 0 := by decide
theorem three_not_two_pow (s : Nat) : 3 ≠ 2 ^ s := by
  rcases s with _ | _ | s
  · decide
  · decide
  · rw [pow_succ, pow_succ]; omega
theorem witness_TransformComputesTheSums : (∀ s, (ser small (ones 3)).length ≠ 2 ^ s) ∧
    ((ser small (ones 32)).length = 2 ^ 5 ∧ 2 ^ logMax small < 2 ^ 5) ∧
    (ser small (ones 16)).length = 2 ^ 4 ∧ 4 ≤ logMax small :=
  ⟨three_not_two_pow, ⟨rfl, by decide⟩, rfl, by decide⟩
theorem witness_TransformRoundTrip : (ser small (ones 16)).length = 2 ^ 4 ∧ 4 ≤ logMax small ∧
    (ser small [5]).length = 2 ^ 0 := ⟨rfl, by decide, rfl⟩
theorem witness_BflyCompletes : (7 : Index).toNat < 8 ∧ (6 : Index) ≠ 7 ∧
    ∃ t, exec (.bfly 6 7 0) (withF [1]) = .next t ∧ (t.err == 0) = true :=
  ⟨by decide, by decide, exists_of_completes (by decide +kernel)⟩
theorem witness_BflyFrame : (∃ t, exec (.bfly 0 1 2) (withF [5, 7, 3]) = .next t ∧ (t.err == 0) = true) ∧
    (2 : Nat) ≠ (0 : Index).toNat ∧ (0x22 : Nat) ≠ addressOf reference (.f 0) ∧ (0x22 : Nat) ≠ addressOf reference (.f 1) :=
  ⟨exists_of_completes (by decide +kernel), by decide, by decide, by decide⟩
theorem witness_NttCompletesOrFails : (0 : Index).toNat < 4 ∧ ((sized 8388608 0 0 1 0).readV 0).length = 2 ^ 23 ∧
    ((sized 1 0 0 1 0).readV 0).length = 2 ^ 0 ∧ (∀ k, ((sized 3 0 0 1 0).readV 0).length ≠ 2 ^ k) ∧
    ∀ k, ((sized 0 0 0 1 0).readV 0).length ≠ 2 ^ k := by
  simp only [sized_v0]
  exact ⟨by decide, by decide, by decide, three_not_two_pow, fun k => (Nat.two_pow_pos k).ne⟩
theorem witness_ConvolutionIsTheProduct : ser small (ones 9) ≠ [] ∧ cap small < (ser small (ones 9)).length + 9 - 1 ∧
    (ser small (ones 9)).length + 8 - 1 ≤ cap small ∧ (([] : Series small) = [] ∨ ser small (ones 9) = []) := by decide
theorem ne_nil_of_length {α : Type} {a : List α} {n : Nat} (h : a.length = n + 1) : a ≠ [] := by
  rintro rfl; cases h
theorem witness_ConvCompletesOrFails : (2 : Index).toNat < 4 ∧
    (sized 0 3 0 1 0).readV 0 = [] ∧
    (sized 8388608 1 0 1 0).readV 0 ≠ [] ∧ (sized 8388608 1 0 1 0).readV 1 ≠ [] ∧
    ((sized 8388608 1 0 1 0).readV 0).length + ((sized 8388608 1 0 1 0).readV 1).length ≤ 8388609 ∧
    8388609 < ((sized 8388608 2 0 1 0).readV 0).length + ((sized 8388608 2 0 1 0).readV 1).length ∧
    (sized 8388608 2 0 1 0).readV 0 ≠ [] ∧ (sized 8388608 2 0 1 0).readV 1 ≠ [] := by
  refine ⟨by decide, rfl, ne_nil_of_length (sized_v0 ..), ne_nil_of_length (sized_v1 ..), ?_, ?_,
    ne_nil_of_length (sized_v0 ..), ne_nil_of_length (sized_v1 ..)⟩
  · rw [sized_v0, sized_v1]
  · rw [sized_v0, sized_v1]; decide
theorem witness_DerivCompletes : (1 : Index).toNat < 4 ∧ ((sized 1 0 0 5 0).readV 0).length ≤ 1 ∧
    1 < ((sized 2 0 0 5 0).readV 0).length := by decide
theorem witness_IntegCompletesOrFails : (1 : Index).toNat < 4 ∧
    (((sized 8388607 0 8388607 5 0).readV 0).length < 8388608 ∧
      ((sized 8388607 0 8388607 5 0).readV 0).length ≤ (sized 8388607 0 8388607 5 0).t.length) ∧
    8388608 ≤ ((sized 8388608 0 8388608 5 0).readV 0).length ∧
    (sized 8388607 0 8388606 5 0).t.length < ((sized 8388607 0 8388606 5 0).readV 0).length := by
  simp only [sized_v0, sized_t]; decide
theorem witness_CalculusLaws : tableCorrect small (hostTable small 3) 3 ∧ 1 ≤ (ser small [5, 6, 7]).length ∧
    tableCorrect small (hostTable small 1) ((ser small [5, 6]).length - 1) ∧ 2 ≤ (ser small [5, 6]).length ∧
    (ser small [5]).length = 1 ∧ 1 ≤ (hostTable small 1).length := by
  refine ⟨⟨by decide +kernel, fun i h1 h3 => ?_⟩, by decide, ⟨by decide +kernel, fun i h1 h3 => ?_⟩, by decide, by decide,
    by decide +kernel⟩
  · interval_cases i <;> decide +kernel
  · have h3 : i ≤ 1 := h3
    interval_cases i; decide +kernel
theorem witness_HostTableHoldsTheInverses : 16 ≤ cap small ∧ 0 ≤ cap small := by decide
theorem witness_SeriesInverseInverts : ∃ b, seriesInverse small (ser _ [1, 1]) 9 = .ok b :=
  exists_of_isOk test_small_inverse.1
theorem witness_SeriesInverseFailures : 1 ≤ logMax small ∧ coef small (ser _ [0, 1]) 0 = elem small 0 ∧
    coef small (ser _ [1, 1]) 0 ≠ elem small 0 ∧ 2 ^ (logMax small - 1) + 1 < 10 ∧ 9 ≤ 2 ^ (logMax small - 1) + 1 := by
  decide
theorem witness_SeriesInverseRecurrence : (∃ b, seriesInverse small (ser _ [1, 1]) 9 = .ok b) ∧
    (ser small [1, 1]).length + 9 - 1 ≤ cap small ∧ 1 ≤ 8 ∧ 8 < 9 :=
  ⟨exists_of_isOk test_small_inverse.1, by decide, by decide, by decide⟩
theorem witness_SinvCompletesOrFails : (1 : Index).toNat < 4 ∧ (0 : Index).toNat < 4 ∧ 1 ≤ (4194305 : Word).toNat ∧
    (4194305 : Word).toNat ≤ 4194305 ∧ (coef reference ((sized 2 0 0 5 4194305).readV 0) 0).val ≠ 0 ∧
    (sized 2 0 0 5 0).n = 0 ∧ (coef reference ((sized 2 0 0 0 3).readV 0) 0).val = 0 ∧
    (coef reference ((sized 0 0 0 5 3).readV 0) 0).val = 0 ∧ 4194305 < (sized 2 0 0 5 4194306).n.toNat := by decide
theorem witness_SeriesLogClosedForm : ∃ r, seriesLog small (ser _ [1, 1]) 9 (hostTable small 8) = .ok r :=
  exists_of_isOk test_small_log.1
theorem witness_SlogCompletesOrFails :
    ((coef reference ((sized 4194305 0 4194304 1 4194305).readV 0) 0).val = 1 ∧
      max (((sized 4194305 0 4194304 1 4194305).readV 0).length - 1) 1 + (4194305 : Word).toNat - 1 ≤ 8388608 ∧
      max 1 ((4194305 : Word).toNat - 1) ≤ (sized 4194305 0 4194304 1 4194305).t.length) ∧
    (max (((sized 1 0 1 1 1).readV 0).length - 1) 1 + (1 : Word).toNat - 1 ≤ 8388608 ∧
      max 1 ((1 : Word).toNat - 1) ≤ (sized 1 0 1 1 1).t.length) ∧
    ((sized 1 0 1 2 3).n ≠ 0 ∧ (coef reference ((sized 1 0 1 2 3).readV 0) 0).val ≠ 1) ∧
    (4194305 < (sized 1 0 1 1 4194306).n.toNat ∧ (coef reference ((sized 1 0 1 1 4194306).readV 0) 0).val = 1) ∧
    (8388608 < max (((sized 4194306 0 0 1 4194305).readV 0).length - 1) 1 + (4194305 : Word).toNat - 1) ∧
    (sized 4194305 0 4194303 1 4194305).t.length < max 1 ((4194305 : Word).toNat - 1) := by
  simp only [sized_v0, sized_t, sized_n, sized_lead _ _ _ _ _ (by decide : 0 < 1),
    sized_lead _ _ _ _ _ (by decide : 0 < 4194305)]
  decide
theorem witness_LogOfTruncatedSourceIsTheSame : ∃ r, seriesLog small (ser _ (ones 12)) 4 (hostTable small 16) = .ok r :=
  exists_of_isOk test_small_log.2.2.1
theorem witness_SexpCompletesOrFails : (coef reference ((sized 2 0 4194304 0 4194305).readV 0) 0).val = 0 ∧
    (coef reference ((sized 0 0 0 7 1).readV 0) 0).val = 0 ∧
    (4194305 : Word).toNat - 1 ≤ (sized 2 0 4194304 0 4194305).t.length ∧
    (1 : Word).toNat - 1 ≤ (sized 0 0 0 7 1).t.length ∧
    ((sized 2 0 0 5 3).n ≠ 0 ∧ (coef reference ((sized 2 0 0 5 3).readV 0) 0).val ≠ 0) ∧
    (sized 2 0 4194303 0 4194305).t.length < (4194305 : Word).toNat - 1 ∧
    (4194305 < (sized 2 0 4194302 0 4194306).n.toNat ∧ (sized 2 0 4194302 0 4194306).t.length < 4194303) ∧
    4194303 ≤ (sized 2 0 4194303 0 4194306).t.length := by
  simp only [sized_t, sized_n, sized_lead _ _ _ _ _ (by decide : 0 < 2)]
  decide
theorem witness_LogAndExpAreInverse : tableCorrect small (hostTable small 2) (max 1 (3 - 1)) ∧
    (∃ g, seriesExp small (ser _ [0, 1]) 3 (hostTable small 2) = .ok g) ∧
    ∃ l, seriesLog small (ser _ [1, 1]) 3 (hostTable small 2) = .ok l := by
  refine ⟨⟨by decide +kernel, fun i h1 h3 => ?_⟩, exists_of_isOk (xs := [1, 1, 9]) (by decide +kernel),
    exists_of_isOk (xs := [0, 1, 8]) (by decide +kernel)⟩
  have h3 : i ≤ 2 := h3
  interval_cases i <;> decide +kernel
theorem witness_ResizeLaws : (2 : Nat) ≤ 2 ∧ (2 : Nat) < 3 ∧ ∃ j, 2 ≤ j ∧ j < 3 ∧ coef small (ser _ [1, 2, 3]) j ≠ elem small 0 :=
  ⟨by decide, by decide, 2, by decide, by decide, by decide⟩
theorem witness_VrszCompletesOrFails : (3 : Index).toNat < 4 ∧ (sized 2 0 0 1 8388608).n.toNat ≤ 8388608 ∧
    8388608 < (sized 2 0 0 1 8388609).n.toNat := by decide
theorem witness_SeriesCommandFrame : (∃ t, exec (.deriv 1 0) (withV [5, 6] [7] 0 0) = .next t ∧ (t.err == 0) = true) ∧
    (0x10 : Nat) ≠ addressOf reference (.vlen 1) ∧ (∀ j, j < 2 ^ 24 → (0x1000000 : Nat) ≠ addressOf reference (.coeff 1 j)) := by
  refine ⟨exists_of_completes (by decide +kernel), by decide, fun j _ => ?_⟩
  rw [addressOf, Laws.offsetWidth_reference]; omega

end Sys2Proof.Tests
end

/-! # Proofs for spec/00_scope.md (R6, R16) -/

section

namespace Sys2Proof.Machine.Scope

open Sys2Proof Sys2Proof.Machine Sys2Proof.Machine.Laws

/-! ## The 2-adic valuation of `P - 1` (R6) -/

@[simp] theorem v2_succ_of_even {fuel n : Nat} (h : n % 2 = 0) : v2 (fuel + 1) n = v2 fuel (n / 2) + 1 := if_pos h

@[simp] theorem v2_succ_of_odd {fuel n : Nat} (h : n % 2 = 1) : v2 (fuel + 1) n = 0 := if_neg (by omega)

/-- With enough fuel the loop computes Mathlib's 2-adic valuation. -/
theorem v2_eq_padicValNat (fuel n : Nat) (hpos : 0 < n) (hlt : n < 2 ^ fuel) : v2 fuel n = padicValNat 2 n := by
  induction fuel generalizing n with
  | zero => omega
  | succ fuel ih =>
    rcases Nat.mod_two_eq_zero_or_one n with heven | hodd
    · have hdvd : 2 ∣ n := Nat.dvd_of_mod_eq_zero heven
      have hval : 1 ≤ padicValNat 2 n := one_le_padicValNat_of_dvd hpos.ne' hdvd
      have hhalf : v2 fuel (n / 2) = padicValNat 2 (n / 2) := ih (n / 2) (by omega) (by omega)
      rw [v2_succ_of_even heven, hhalf, padicValNat.div hdvd]
      omega
    · rw [v2_succ_of_odd hodd, padicValNat.eq_zero_of_not_dvd (by omega)]

theorem logMax_eq_padicValNat (c : Params) : logMax c = padicValNat 2 (c.P - 1) := by
  have hP : 1 < c.P := c.prime.one_lt
  have hlt : c.P < 2 ^ 32 := c.P_lt
  exact v2_eq_padicValNat 32 (c.P - 1) (by omega) (by omega)

/-- Settles O1: `logMax` is the 2-adic valuation, whose characterisation is the library's. -/
theorem logMaxIsTheValuation : Obligations.LogMaxIsTheValuation := by
  refine ⟨fun c => ?_, logMax_reference, cap_reference⟩
  have hne : c.P - 1 ≠ 0 := Nat.sub_ne_zero_of_lt c.prime.one_lt
  rw [logMax_eq_padicValNat]
  exact ⟨pow_padicValNat_dvd, pow_succ_padicValNat_not_dvd hne⟩

/-! ## The two index kinds (R74) -/

@[simp] theorem isF_iff (i : Index) : isF i = true ↔ i.toNat < 8 := decide_eq_true_iff

@[simp] theorem isV_iff (i : Index) : isV i = true ↔ i.toNat < 4 := decide_eq_true_iff

/-! ## A command is a commit of an effect (R16, R82)

The effect of a command is everything it computes: where it writes and what. It is a function of the operands alone; the
state enters a second time only as the place the effect is committed to. -/

/-- What a command leaves to commit: one scalar, one series, or the two scalars of BFLY. -/
inductive Effect where
  | scalar (rd : Index) (result : Except FailureKind FieldElement)
  | series (rd : Index) (result : Except FailureKind CoeffSeries)
  | scalarPair (ra rb : Index) (x y : FieldElement)

/-- The effect of each command, computed in the state its sources are read in. -/
def effect (i : Instr) (s : State) : Effect :=
  match i with
  | .fadd rd ra rb => .scalar rd (alu reference .add (s.readF ra.toNat) (s.readF rb.toNat) 0)
  | .fsub rd ra rb => .scalar rd (alu reference .sub (s.readF ra.toNat) (s.readF rb.toNat) 0)
  | .fmul rd ra rb => .scalar rd (alu reference .mul (s.readF ra.toNat) (s.readF rb.toNat) 0)
  | .fpow rd ra => .scalar rd (alu reference .pow (s.readF ra.toNat) zeroElement s.exponent)
  | .finv rd ra => .scalar rd (alu reference .inv (s.readF ra.toNat) zeroElement 0)
  | .bfly ra rb rc =>
    let p := butterfly reference (s.readF ra.toNat) (s.readF rb.toNat) (s.readF rc.toNat)
    .scalarPair ra rb p.1 p.2
  | .ntt rd dir => .series rd (ntt reference (s.readV rd.toNat) dir)
  | .conv rd ra rb => .series rd (convolve reference (s.readV ra.toNat) (s.readV rb.toNat) s.truncation)
  | .deriv rd ra => .series rd (logExpEngine reference .derivative (s.readV ra.toNat) 0 [])
  | .integ rd ra => .series rd (integralToBuffer reference (s.readV ra.toNat) s.t)
  | .sinv rd ra => .series rd (seriesInverse reference (s.readV ra.toNat) s.truncation)
  | .slog rd ra => .series rd (logExpEngine reference .log (s.readV ra.toNat) s.truncation s.t)
  | .sexp rd ra => .series rd (logExpEngine reference .exp (s.readV ra.toNat) s.truncation s.t)
  | .vrsz rd ra => .series rd (resizeToBuffer reference (s.readV ra.toNat) s.truncation)

/-- The state with the effect's destinations written, or the effect's failure. -/
def Effect.commit (s : State) : Effect → Except FailureKind State
  | .scalar rd result => commitF s rd result
  | .series rd result => commitV s rd result
  | .scalarPair ra rb x y => .ok ((s.writeF ra.toNat x).writeF rb.toNat y)

/-- The destinations of the effect are registers or buffers that exist. -/
def Effect.DestinationsExist : Effect → Prop
  | .scalar rd _ => rd.toNat < 8
  | .series rd _ => rd.toNat < 4
  | .scalarPair ra rb _ _ => ra.toNat < 8 ∧ rb.toNat < 8

/-- Two states hold the same in the destinations of the effect. -/
def Effect.DestinationsAgree (s t : State) : Effect → Prop
  | .scalar rd _ => s.readF rd.toNat = t.readF rd.toNat
  | .series rd _ => s.readV rd.toNat = t.readV rd.toNat
  | .scalarPair ra rb _ _ => s.readF ra.toNat = t.readF ra.toNat ∧ s.readF rb.toNat = t.readF rb.toNat

/-- Ties `effect` to the model: every command ends by committing its effect. -/
theorem exec_eq_command_effect (i : Instr) (s : State) : exec i s = command i s ((effect i s).commit s) := by
  cases i <;> rfl

/-- The destinations of a command are those of its effect. -/
theorem destinationsAgree_iff_effect (i : Instr) (s t u : State) :
    destinationsAgree i t u ↔ (effect i s).DestinationsAgree t u := by
  cases i <;> exact Iff.rfl

/-- R74 is what makes the destinations exist. -/
theorem effect_destinationsExist {i : Instr} (hw : i.WellFormed) (s : State) : (effect i s).DestinationsExist := by
  cases i with
  | fadd rd ra rb | fsub rd ra rb | fmul rd ra rb | conv rd ra rb =>
    simp only [Instr.WellFormed, Instr.wf, Bool.and_eq_true, isF_iff, isV_iff] at hw
    obtain ⟨⟨hrd, -⟩, -⟩ := hw
    exact hrd
  | fpow rd ra | finv rd ra | deriv rd ra | integ rd ra | sinv rd ra | slog rd ra | sexp rd ra | vrsz rd ra =>
    simp only [Instr.WellFormed, Instr.wf, Bool.and_eq_true, isF_iff, isV_iff] at hw
    obtain ⟨hrd, -⟩ := hw
    exact hrd
  | ntt rd _ => exact (isV_iff rd).1 hw
  | bfly ra rb rc =>
    simp only [Instr.WellFormed, Instr.wf, Bool.and_eq_true, isF_iff] at hw
    obtain ⟨hab, -⟩ := hw
    exact hab

/-- The purity of R16: the effect is a function of the operands. -/
theorem effect_eq_of_operandsAgree {i : Instr} {s s' : State} (h : operandsAgree i s s') : effect i s = effect i s' := by
  cases i with
  | fadd _ ra rb | fsub _ ra rb | fmul _ ra rb =>
    obtain ⟨ha, hb⟩ := h
    simp only [effect, ha, hb]
  | fpow _ ra =>
    obtain ⟨ha, he⟩ := h
    simp only [effect, State.exponent, ha, he]
  | bfly ra rb rc =>
    obtain ⟨ha, hb, hc⟩ := h
    simp only [effect, ha, hb, hc]
  | finv _ ra | ntt ra _ | deriv _ ra =>
    simp only [operandsAgree] at h
    simp only [effect, h]
  | conv _ ra rb =>
    obtain ⟨ha, hb, hn⟩ := h
    simp only [effect, State.truncation, ha, hb, hn]
  | integ _ ra =>
    obtain ⟨ha, ht⟩ := h
    simp only [effect, ha, ht]
  | sinv _ ra | vrsz _ ra =>
    obtain ⟨ha, hn⟩ := h
    simp only [effect, State.truncation, ha, hn]
  | slog _ ra | sexp _ ra =>
    obtain ⟨ha, hn, ht⟩ := h
    simp only [effect, State.truncation, ha, hn, ht]

/-- One effect committed to two states fails in both with one kind, or leaves the same in its destinations. -/
theorem commit_agree {e : Effect} (he : e.DestinationsExist) (s s' : State) :
    (∃ k, e.commit s = .error k ∧ e.commit s' = .error k) ∨
    (∃ u u', e.commit s = .ok u ∧ e.commit s' = .ok u' ∧ e.DestinationsAgree u u') := by
  cases e with
  | scalar rd result =>
    have hrd : rd.toNat < 8 := he
    cases result with
    | error k => exact .inl ⟨k, rfl, rfl⟩
    | ok x => exact .inr ⟨_, _, rfl, rfl, by simp [Effect.DestinationsAgree, hrd]⟩
  | series rd result =>
    have hrd : rd.toNat < 4 := he
    cases result with
    | error k => exact .inl ⟨k, rfl, rfl⟩
    | ok a => exact .inr ⟨_, _, rfl, rfl, by simp [Effect.DestinationsAgree, hrd]⟩
  | scalarPair ra rb x y =>
    obtain ⟨hra, hrb⟩ := he
    refine .inr ⟨_, _, rfl, rfl, ?_, by simp [hrb]⟩
    by_cases hab : ra.toNat = rb.toNat
    · simp [hab, hrb]
    · simp [hab, hra]

/-- The success record of R35 is no destination. -/
theorem destinationsAgree_recordSuccess {i : Instr} {u u' : State} (h : destinationsAgree i u u') :
    destinationsAgree i u.recordSuccess u'.recordSuccess := by
  cases i <;> exact h

/-- No failure has the code of success (R201, R35). -/
theorem failureCode_ne_zero (k : FailureKind) : failureCode k ≠ 0 := by cases k <;> decide

/-- Settles O24: the two runs commit one effect. -/
theorem commandReadsOnlyItsOperands : Obligations.CommandReadsOnlyItsOperands := by
  intro i s s' t t' hw hagree hs hs'
  rw [exec_eq_command_effect] at hs hs'
  rw [← effect_eq_of_operandsAgree hagree] at hs'
  rcases commit_agree (effect_destinationsExist hw s) s s' with ⟨k, hk, hk'⟩ | ⟨u, u', hu, hu', hdest⟩
  · rw [hk, command_error hw] at hs
    rw [hk', command_error hw] at hs'
    cases hs
    cases hs'
    exact ⟨rfl, fun hzero => absurd hzero (failureCode_ne_zero k)⟩
  · rw [hu, command_ok hw] at hs
    rw [hu', command_ok hw] at hs'
    cases hs
    cases hs'
    have hcommitted : destinationsAgree i u u' := (destinationsAgree_iff_effect i s u u').2 hdest
    exact ⟨rfl, fun _ => destinationsAgree_recordSuccess hcommitted⟩

end Sys2Proof.Machine.Scope
end

/-! # Proofs for spec/10_state.md (R26, R28, R34, R41) -/

section

namespace Sys2Proof.Machine.ArchState

open Sys2Proof Sys2Proof.Machine Sys2Proof.Machine.Laws

/-! ## The address map of the reference instance (R51 to R53) -/

/-- Region 0 is the table of R53. -/
theorem locate_of_lt {addr : Nat} (h : addr < 2 ^ 24) : locate reference addr = csrAt addr := by
  simp only [locate, offsetWidth_reference, Nat.div_eq_of_lt h, Nat.mod_eq_of_lt h]

theorem csrAt_vlen {i : Nat} (h : i < 4) : csrAt (0x10 + i) = some (.vlen i) := by
  interval_cases i <;> rfl

theorem locate_vlen {i : Nat} (h : i < 4) : locate reference (0x10 + i) = some (.vlen i) := by
  rw [locate_of_lt (by omega), csrAt_vlen h]

theorem locate_tlen : locate reference 0x08 = some .tlen := locate_of_lt (by decide)

theorem locate_status : locate reference 0x04 = some .status := locate_of_lt (by decide)

theorem locate_rom {offset : Nat} (h : offset < 2 ^ 24) :
    locate reference (6 * 2 ^ 24 + offset) = some (.rom offset) := by
  have hregion : (6 * 2 ^ 24 + offset) / 2 ^ 24 = 6 := by omega
  have hoffset : (6 * 2 ^ 24 + offset) % 2 ^ 24 = offset := by omega
  simp only [locate, offsetWidth_reference, hregion, hoffset]

/-! ## An access of a mapped address (R56, R57, R61) -/

theorem peek_of_locate {s : State} {addr : Nat} {l : Location} (hl : locate reference addr = some l) :
    s.peek addr = s.readLocation l := by
  rw [State.peek, hl, Option.bind_some]

/-- A register of region 0 reads as its row of the table of R53. -/
theorem peek_csr (s : State) {addr : Nat} {l : Location} (h : addr < 2 ^ 24) (hl : csrAt addr = some l) :
    s.peek addr = s.readLocation l :=
  peek_of_locate ((locate_of_lt h).trans hl)

theorem hostRead_of_peek {s : State} {addr : Nat} {w : Word} (h : s.peek addr = some w) :
    s.hostRead addr = { s with replies := s.replies ++ [w] } := by
  rw [State.hostRead, h]

/-- Only a write to `CMD` runs a command; every other write is a store. -/
theorem hostWrite_of_ne_cmd {addr : Nat} {l : Location} (hl : locate reference addr = some l) (hcmd : l ≠ .cmd)
    (v : Word) (s : State) : hostWrite addr v s = .next (s.hostStore addr v) := by
  rw [hostWrite, hl, if_neg fun h => hcmd (Option.some.inj h)]

/-- A write that the location accepts is performed. -/
theorem hostWrite_of_stored {s t : State} {addr : Nat} {l : Location} {v : Word}
    (hl : locate reference addr = some l) (hcmd : l ≠ .cmd) (hw : s.writeLocation l v = some t) :
    hostWrite addr v s = .next t := by
  rw [hostWrite_of_ne_cmd hl hcmd, State.hostStore, hl, Option.bind_some, hw]

/-- A write that the location refuses is dropped. -/
theorem hostWrite_of_dropped {s : State} {addr : Nat} {l : Location} {v : Word}
    (hl : locate reference addr = some l) (hcmd : l ≠ .cmd) (hw : s.writeLocation l v = none) :
    hostWrite addr v s = .next s.recordDropped := by
  rw [hostWrite_of_ne_cmd hl hcmd, State.hostStore, hl, Option.bind_some, hw]

/-! ## The length registers (R26, R28) -/

theorem zeroElement_eq_elem : zeroElement = elem reference 0 := Fin.ext (elem_zero_val reference).symm

/-- A stored coefficient, read as a list entry or with the implicit zeros of R13. -/
theorem getElem?_eq_coef {c : Params} {a : Series c} {j : Nat} (h : j < a.length) : a[j]? = some (coef c a j) := by
  rw [List.getElem?_eq_getElem h, coef_of_lt c a j h]

/-- Within its new length a resized series has the coefficients of the old one, implicit zeros included. -/
theorem getElem?_resize {c : Params} {a : Series c} {L j : Nat} (h : j < L) :
    (resize c a L)[j]? = some (coef c a j) := by
  rw [getElem?_eq_coef (h.trans_eq (resize_length c a L).symm), coef_resize, if_pos h]

theorem getElem?_resize_of_kept {c : Params} {a : Series c} {L j : Nat} (h : j < L) (hj : j < a.length) :
    (resize c a L)[j]? = a[j]? := by
  rw [getElem?_resize h, getElem?_eq_coef hj]

theorem getElem?_resize_of_new {a : CoeffSeries} {L j : Nat} (h : j < L) (hj : a.length ≤ j) :
    (resize reference a L)[j]? = some zeroElement := by
  rw [getElem?_resize h, coef_of_le reference a j hj, zeroElement_eq_elem]

theorem writeLocation_vlen_of_le {v : Word} (h : v.toNat ≤ 8388608) (s : State) (i : Nat) :
    s.writeLocation (.vlen i) v = some (s.writeV i (resize reference (s.readV i) v.toNat)) :=
  if_pos (h.trans_eq cap_reference.symm)

theorem writeLocation_vlen_of_gt {v : Word} (h : 8388608 < v.toNat) (s : State) (i : Nat) :
    s.writeLocation (.vlen i) v = none :=
  if_neg (Nat.not_le.2 (cap_reference.trans_lt h))

theorem writeLocation_tlen_of_le {v : Word} (h : v.toNat ≤ 8388608) (s : State) :
    s.writeLocation .tlen v = some { s with t := resize reference s.t v.toNat } :=
  if_pos (h.trans_eq cap_reference.symm)

theorem writeLocation_tlen_of_gt {v : Word} (h : 8388608 < v.toNat) (s : State) :
    s.writeLocation .tlen v = none :=
  if_neg (Nat.not_le.2 (cap_reference.trans_lt h))

/-- Settles O18: a length write that is not dropped is a `resize` of the one buffer or of the table. -/
theorem lengthWritesResize : Obligations.LengthWritesResize := by
  intro s v
  refine ⟨fun i hi hv => ?_, fun i hi hv => ?_, fun hv => ?_, fun hv => ?_, fun i hi => ?_, ?_⟩
  · have hread : (s.writeV i (resize reference (s.readV i) v.toNat)).readV i = resize reference (s.readV i) v.toNat :=
      readV_writeV_same s i _ hi
    refine ⟨_, hostWrite_of_stored (locate_vlen hi) nofun (writeLocation_vlen_of_le hv s i), ?_⟩
    rw [hread]
    exact ⟨rfl, resize_length _ _ _, fun _ => getElem?_resize_of_kept, fun _ => getElem?_resize_of_new⟩
  · exact hostWrite_of_dropped (locate_vlen hi) nofun (writeLocation_vlen_of_gt hv s i)
  · exact ⟨_, hostWrite_of_stored locate_tlen nofun (writeLocation_tlen_of_le hv s), rfl, resize_length _ _ _,
      fun _ => getElem?_resize_of_kept, fun _ => getElem?_resize_of_new⟩
  · exact hostWrite_of_dropped locate_tlen nofun (writeLocation_tlen_of_gt hv s)
  · exact peek_of_locate (locate_vlen hi)
  · exact peek_of_locate locate_tlen

/-! ## `STATUS` (R34) -/

/-- The value of two fields side by side. -/
theorem toNat_append_eq_add {m n : Nat} (x : BitVec m) (y : BitVec n) :
    (x ++ y).toNat = x.toNat * 2 ^ n + y.toNat := by
  rw [BitVec.toNat_append, ← Nat.shiftLeft_add_eq_or_of_lt y.isLt, Nat.shiftLeft_eq]

theorem statusWord_toNat (s : State) :
    s.statusWord.toNat = s.err.toNat + (if s.aerr then 256 else 0) + (if s.estk then 512 else 0) := by
  simp only [State.statusWord, toNat_append_eq_add]
  cases s.aerr <;> cases s.estk <;> simp <;> omega

theorem clearFlags_eq_ite (s : State) (v : Word) :
    s.clearFlags v = { s with
      aerr := if v.getLsbD 8 then false else s.aerr
      estk := if v.getLsbD 9 then false else s.estk } := by
  have hclear : ∀ flag one : Bool, (flag && !one) = if one then false else flag := by decide
  simp only [State.clearFlags, hclear]

/-- Settles O19: a read of `STATUS` returns the status word, and a write is `clearFlags`, which is never refused. -/
theorem statusLayoutAndClear : Obligations.StatusLayoutAndClear := by
  intro s v
  refine ⟨statusWord_toNat s, hostRead_of_peek (peek_of_locate locate_status), ?_⟩
  rw [← clearFlags_eq_ite]
  exact hostWrite_of_stored locate_status nofun rfl

/-! ## Reset (R41, R233) -/

theorem step_of_pending {s : State} {ev : HostEvent} {rest : List HostEvent} (h : s.pending = ev :: rest) :
    step s = perform ev { s with pending := rest } := by
  rw [step, advance, h]

/-- A reset does the same whether the engine is idle or runs a command (R233). -/
theorem step_of_reset {s : State} {rest : List HostEvent} {c : Word}
    (h : s.pending = .reset :: rest ∨ s.pending = .resetDuring c :: rest) :
    step s = .next (State.applyReset { s with pending := rest }) := by
  rcases h with h | h <;> rw [step_of_pending h] <;> rfl

theorem applyReset_readF_val (s : State) {i : Nat} (h : i < 8) : (s.applyReset.readF i).val = 0 := by
  interval_cases i <;> rfl

theorem applyReset_readV (s : State) {i : Nat} (h : i < 4) : s.applyReset.readV i = [] := by
  interval_cases i <;> rfl

theorem readLocation_logmax (s : State) : s.readLocation .logmax = some 23 := by
  rw [State.readLocation, logMax_reference]; rfl

/-- The constants of R30 to R33 are no state: they read the same in every state. -/
theorem peek_constants (s : State) :
    s.peek 0 = some 0x4D464131 ∧ s.peek 1 = some 998244353 ∧ s.peek 2 = some 3 ∧ s.peek 3 = some 23 := by
  have hid : s.peek 0 = s.readLocation .id := peek_csr s (by decide) rfl
  have hmodulus : s.peek 1 = s.readLocation .modulus := peek_csr s (by decide) rfl
  have hroot : s.peek 2 = s.readLocation .root := peek_csr s (by decide) rfl
  have hlogmax : s.peek 3 = s.readLocation .logmax := peek_csr s (by decide) rfl
  exact ⟨hid, hmodulus, hroot, hlogmax.trans (readLocation_logmax s)⟩

/-- An entry of the ROM reads in every state as the block's port gives it (R60). -/
theorem peek_rom (s : State) {bank k : Nat} {x : FieldElement} (hbank : bank < 3) (hk : k ≤ 23)
    (hx : romData reference bank k = some x) : s.peek (6 * 2 ^ 24 + (bank * 32 + k)) = some (wordOfElement x) := by
  have hdiv : (bank * 32 + k) / 32 = bank := by omega
  have hmod : (bank * 32 + k) % 32 = k := by omega
  rw [peek_of_locate (locate_rom (by omega)), State.readLocation, readRom, if_pos (by omega), hdiv, hmod, hx,
    Option.map_some]

theorem romData_of_le {k : Nat} (hk : k ≤ 23) :
    romData reference 0 k = some (romRoot reference k) ∧ romData reference 1 k = some (romIroot reference k) ∧
      romData reference 2 k = some (romNinv reference k) := by
  have hmax : k ≤ logMax reference := hk.trans_eq logMax_reference.symm
  exact ⟨if_pos hmax, if_pos hmax, if_pos hmax⟩

theorem peek_rom_banks (s : State) {k : Nat} (hk : k ≤ 23) :
    s.peek (6 * 2 ^ 24 + k) = some (BitVec.ofNat 32 (romRoot reference k).val) ∧
      s.peek (6 * 2 ^ 24 + 32 + k) = some (BitVec.ofNat 32 (romIroot reference k).val) ∧
      s.peek (6 * 2 ^ 24 + 64 + k) = some (BitVec.ofNat 32 (romNinv reference k).val) := by
  obtain ⟨hroot, hiroot, hninv⟩ := romData_of_le hk
  have hbank0 := peek_rom s (by decide) hk hroot
  have hbank1 := peek_rom s (by decide) hk hiroot
  have hbank2 := peek_rom s (by decide) hk hninv
  rw [Nat.zero_mul, Nat.zero_add] at hbank0
  rw [← Nat.add_assoc] at hbank1 hbank2
  exact ⟨hbank0, hbank1, hbank2⟩

/-- Settles O12: both events end in `applyReset`; what is no state reads as it always does. -/
theorem resetLeavesTheResetState : Obligations.ResetLeavesTheResetState := by
  intro s rest c h
  obtain ⟨hid, hmodulus, hroot, hlogmax⟩ := peek_constants (State.applyReset { s with pending := rest })
  exact ⟨_, step_of_reset h, rfl, fun _ => applyReset_readF_val _, rfl, rfl, fun _ => applyReset_readV _,
    rfl, rfl, rfl, rfl, hid, hmodulus, hroot, hlogmax, fun _ => peek_rom_banks _⟩

end Sys2Proof.Machine.ArchState
end

/-! # Proofs for spec/20_memory.md (R56, R61) -/

section

namespace Sys2Proof.Machine.Memory

open Sys2Proof Sys2Proof.Machine Sys2Proof.Machine.Laws Sys2Proof.Machine.ArchState

/-! ## The rest of the address map (R52, R53) -/

theorem csrAt_f {i : Nat} (h : i < 8) : csrAt (0x20 + i) = some (.f i) := by
  interval_cases i <;> rfl

theorem locate_f {i : Nat} (h : i < 8) : locate reference (0x20 + i) = some (.f i) := by
  rw [locate_of_lt (by omega), csrAt_f h]

/-- Past `TLEN` only the length registers and the field registers are mapped. -/
theorem csrAt_add_nine (n : Nat) :
    csrAt (n + 9) =
      if 0x10 ≤ n + 9 ∧ n + 9 < 0x14 then some (.vlen (n + 9 - 0x10))
      else if 0x20 ≤ n + 9 ∧ n + 9 < 0x28 then some (.f (n + 9 - 0x20))
      else none := rfl

/-- The gaps of the table of R53. -/
theorem csrAt_eq_none {offset : Nat}
    (h : (0x09 ≤ offset ∧ offset ≤ 0x0F) ∨ (0x14 ≤ offset ∧ offset ≤ 0x1F) ∨ 0x28 ≤ offset) : csrAt offset = none := by
  obtain ⟨n, rfl⟩ : ∃ n, offset = n + 9 := ⟨offset - 9, by omega⟩
  rw [csrAt_add_nine, if_neg (by omega), if_neg (by omega)]

theorem locate_coeff {i j : Nat} (hi : i < 4) (hj : j < 2 ^ 24) :
    locate reference ((i + 1) * 2 ^ 24 + j) = some (.coeff i j) := by
  have hregion : ((i + 1) * 2 ^ 24 + j) / 2 ^ 24 = i + 1 := by omega
  have hoffset : ((i + 1) * 2 ^ 24 + j) % 2 ^ 24 = j := by omega
  simp only [locate, offsetWidth_reference, hregion, hoffset]
  interval_cases i <;> rfl

theorem locate_table {j : Nat} (h : j < 2 ^ 24) : locate reference (5 * 2 ^ 24 + j) = some (.table j) := by
  have hregion : (5 * 2 ^ 24 + j) / 2 ^ 24 = 5 := by omega
  have hoffset : (5 * 2 ^ 24 + j) % 2 ^ 24 = j := by omega
  simp only [locate, offsetWidth_reference, hregion, hoffset]

/-- Region 7 and everything above it is unmapped, addresses of more than 28 bits included (R51). -/
theorem locate_of_region_ge {addr : Nat} (h : 7 * 2 ^ 24 ≤ addr) : locate reference addr = none := by
  obtain ⟨n, hregion⟩ : ∃ n, addr / 2 ^ 24 = n + 7 := ⟨addr / 2 ^ 24 - 7, by omega⟩
  simp only [locate, offsetWidth_reference, hregion]

theorem locate_unmapped {addr : Nat} (h : 7 * 2 ^ 24 ≤ addr ∨ (0x09 ≤ addr ∧ addr ≤ 0x0F) ∨
    (0x14 ≤ addr ∧ addr ≤ 0x1F) ∨ (0x28 ≤ addr ∧ addr < 2 ^ 24)) : locate reference addr = none := by
  by_cases hregion : 7 * 2 ^ 24 ≤ addr
  · exact locate_of_region_ge hregion
  · rw [locate_of_lt (by omega), csrAt_eq_none (by omega)]

/-! ## Reads of the registers and of regions 1 to 6 (R56, R58 to R60) -/

theorem peek_f (s : State) {i : Nat} (h : i < 8) : s.peek (0x20 + i) = some (wordOfElement (s.readF i)) :=
  peek_of_locate (locate_f h)

theorem wordOfElement_zero : wordOfElement (elem reference 0) = 0 := by
  rw [wordOfElement, elem_zero_val]; rfl

theorem wordOfElement_coef_of_lt {a : CoeffSeries} {j : Nat} (h : j < a.length) :
    wordOfElement (coef reference a j) = BitVec.ofNat 32 (a[j]'h).val := by
  rw [wordOfElement, coef_of_lt _ _ _ h]

theorem wordOfElement_coef_of_le {a : CoeffSeries} {j : Nat} (h : a.length ≤ j) :
    wordOfElement (coef reference a j) = 0 := by
  rw [coef_of_le _ _ _ h, wordOfElement_zero]

/-- Below `CAP` a coefficient reads with the implicit zeros of R13; from `CAP` on the read is dropped (R58). -/
theorem peek_coeff (s : State) {i j : Nat} (hi : i < 4) (hj : j < 2 ^ 24) :
    s.peek ((i + 1) * 2 ^ 24 + j) =
      if j < 8388608 then some (wordOfElement (coef reference (s.readV i) j)) else none := by
  rw [peek_of_locate (locate_coeff hi hj), State.readLocation, cap_reference]

/-- Up to `CAP` a table entry reads with zeros past `TLEN`, offset 0 as 0; beyond, the read is dropped (R59). -/
theorem peek_table (s : State) {j : Nat} (hj : j < 2 ^ 24) :
    s.peek (5 * 2 ^ 24 + j) =
      if j ≤ 8388608 then some (if j = 0 then 0 else wordOfElement (coef reference s.t (j - 1))) else none := by
  rw [peek_of_locate (locate_table hj), State.readLocation, cap_reference, State.tableEntry]

theorem romData_of_gt {c : Params} {k : Nat} (bank : Nat) (h : logMax c < k) : romData c bank k = none :=
  if_neg (Nat.not_le.2 h)

/-- A bank above 2 or an exponent above `K` has no entry (R60, R114). -/
theorem readRom_eq_none {offset : Nat} (h : 96 ≤ offset ∨ 23 < offset % 32) : readRom offset = none := by
  by_cases hbank : offset < 96
  · have hk : logMax reference < offset % 32 := by rw [logMax_reference]; omega
    rw [readRom, if_pos hbank, romData_of_gt _ hk, Option.map_none]
  · rw [readRom, if_neg hbank]

theorem peek_rom_eq_none (s : State) {offset : Nat} (hlt : offset < 2 ^ 24) (h : 96 ≤ offset ∨ 23 < offset % 32) :
    s.peek (6 * 2 ^ 24 + offset) = none :=
  (peek_of_locate (locate_rom hlt)).trans (readRom_eq_none h)

theorem peek_coeff_eq_dite (s : State) {i j : Nat} (hi : i < 4) (hj : j < 2 ^ 24) :
    s.peek ((i + 1) * 2 ^ 24 + j) =
      if h : j < (s.readV i).length ∧ j < 8388608 then some (BitVec.ofNat 32 ((s.readV i)[j]'h.1).val)
      else if j < 8388608 then some 0 else none := by
  rw [peek_coeff s hi hj]
  by_cases hcap : j < 8388608
  · by_cases hlen : j < (s.readV i).length
    · rw [if_pos hcap, dif_pos ⟨hlen, hcap⟩, wordOfElement_coef_of_lt hlen]
    · rw [if_pos hcap, dif_neg fun h => hlen h.1, if_pos hcap, wordOfElement_coef_of_le (Nat.not_lt.1 hlen)]
  · rw [if_neg hcap, dif_neg fun h => hcap h.2, if_neg hcap]

theorem peek_table_eq_dite (s : State) {j : Nat} (hj : j < 2 ^ 24) :
    s.peek (5 * 2 ^ 24 + j) =
      if h : 1 ≤ j ∧ j - 1 < s.t.length ∧ j ≤ 8388608 then some (BitVec.ofNat 32 ((s.t)[j - 1]'h.2.1).val)
      else if j ≤ 8388608 then some 0 else none := by
  rw [peek_table s hj]
  by_cases hcap : j ≤ 8388608
  · by_cases hzero : j = 0
    · rw [if_pos hcap, if_pos hzero, dif_neg (by omega), if_pos hcap]
    · by_cases hlen : j - 1 < s.t.length
      · rw [if_pos hcap, if_neg hzero, dif_pos ⟨by omega, hlen, hcap⟩, wordOfElement_coef_of_lt hlen]
      · rw [if_pos hcap, if_neg hzero, dif_neg fun h => hlen h.2.1, if_pos hcap,
          wordOfElement_coef_of_le (Nat.not_lt.1 hlen)]
  · rw [if_neg hcap, dif_neg fun h => hcap h.2.2, if_neg hcap]

theorem peek_rom_eq_ite (s : State) {bank k : Nat} (hk : k < 32) (hlt : bank * 32 + k < 2 ^ 24) :
    s.peek (6 * 2 ^ 24 + (bank * 32 + k)) =
      if 23 < k then none
      else if bank = 0 then some (BitVec.ofNat 32 (romRoot reference k).val)
      else if bank = 1 then some (BitVec.ofNat 32 (romIroot reference k).val)
      else if bank = 2 then some (BitVec.ofNat 32 (romNinv reference k).val) else none := by
  by_cases hbeyond : 23 < k
  · rw [if_pos hbeyond, peek_rom_eq_none s hlt (by omega)]
  · have hk' : k ≤ 23 := Nat.not_lt.1 hbeyond
    obtain ⟨hroot, hiroot, hninv⟩ := romData_of_le hk'
    rw [if_neg hbeyond]
    split_ifs with hbank hbank hbank
    · rw [hbank, peek_rom s (by decide) hk' hroot, wordOfElement]
    · rw [hbank, peek_rom s (by decide) hk' hiroot, wordOfElement]
    · rw [hbank, peek_rom s (by decide) hk' hninv, wordOfElement]
    · exact peek_rom_eq_none s hlt (by omega)

/-- Settles O16: each location is found at its address, and a read of it is its row of `State.readLocation`. -/
theorem readsReturnTheLocation : Obligations.ReadsReturnTheLocation := by
  intro s
  obtain ⟨hid, hmodulus, hroot, hlogmax⟩ := peek_constants s
  have hcmd : s.peek 0x05 = s.readLocation .cmd := peek_csr s (by decide) rfl
  have hn : s.peek 0x06 = s.readLocation .n := peek_csr s (by decide) rfl
  have he : s.peek 0x07 = s.readLocation .e := peek_csr s (by decide) rfl
  exact ⟨hid, hmodulus, hroot, hlogmax, peek_of_locate locate_status, hcmd, hn, he, peek_of_locate locate_tlen,
    fun _ hi => peek_of_locate (locate_vlen hi), fun _ hi => peek_f s hi,
    fun _ _ hi hj => peek_coeff_eq_dite s hi hj, fun _ hj => peek_table_eq_dite s hj,
    fun _ _ hk hlt => peek_rom_eq_ite s hk hlt, fun _ _ hw => hostRead_of_peek hw⟩

/-! ## Dropped accesses (R61) -/

theorem hostRead_of_peek_none {s : State} {addr : Nat} (h : s.peek addr = none) :
    s.hostRead addr = { s with aerr := true, replies := s.replies ++ [0] } := by
  rw [State.hostRead, h]; rfl

theorem peek_of_unmapped {addr : Nat} (hl : locate reference addr = none) (s : State) : s.peek addr = none := by
  rw [State.peek, hl, Option.bind_none]

theorem hostWrite_of_unmapped {addr : Nat} (hl : locate reference addr = none) (v : Word) (s : State) :
    hostWrite addr v s = .next s.recordDropped := by
  rw [hostWrite, hl, if_neg nofun, State.hostStore, hl, Option.bind_none]

/-- The port does not reduce: a word from `P` on is no FieldElement (R57). -/
theorem elementOfWord_of_ge {v : Word} (h : reference.P ≤ v.toNat) : elementOfWord v = none :=
  dif_neg (Nat.not_lt.2 h)

theorem writeLocation_f_of_ge {v : Word} (h : reference.P ≤ v.toNat) (s : State) (i : Nat) :
    s.writeLocation (.f i) v = none := by
  rw [State.writeLocation, elementOfWord_of_ge h, Option.map_none]

theorem writeLocation_coeff_eq_none {s : State} {v : Word} {i j : Nat}
    (h : (s.readV i).length ≤ j ∨ reference.P ≤ v.toNat) : s.writeLocation (.coeff i j) v = none := by
  rw [State.writeLocation]
  rcases h with hlen | hv
  · rw [if_neg (Nat.not_lt.2 hlen)]
  · rw [elementOfWord_of_ge hv, Option.map_none, ite_self]

theorem writeLocation_table_eq_none {s : State} {v : Word} {j : Nat}
    (h : j = 0 ∨ s.t.length < j ∨ reference.P ≤ v.toNat) : s.writeLocation (.table j) v = none := by
  rw [State.writeLocation]
  rcases h with hzero | hlen | hv
  · rw [if_neg (by omega)]
  · rw [if_neg (by omega)]
  · rw [elementOfWord_of_ge hv, Option.map_none, ite_self]

/-- `ID`, `MODULUS`, `ROOT` and `LOGMAX` are read only (R30 to R33). -/
theorem hostWrite_constant {addr : Nat} (h : addr ≤ 0x03) (v : Word) (s : State) :
    hostWrite addr v s = .next s.recordDropped := by
  have hdrop {l : Location} (hl : csrAt addr = some l) (hcmd : l ≠ .cmd) (hw : s.writeLocation l v = none) :
      hostWrite addr v s = .next s.recordDropped :=
    hostWrite_of_dropped ((locate_of_lt (by omega)).trans hl) hcmd hw
  interval_cases addr
  · exact hdrop (l := .id) rfl nofun rfl
  · exact hdrop (l := .modulus) rfl nofun rfl
  · exact hdrop (l := .root) rfl nofun rfl
  · exact hdrop (l := .logmax) rfl nofun rfl

/-- Settles O20: an access is dropped because nothing is mapped at its address, or because the location found there
refuses the word or holds none. -/
theorem droppedAccesses : Obligations.DroppedAccesses := by
  intro s v
  refine ⟨fun addr haddr => ?unmapped, fun addr haddr => hostWrite_constant haddr v s, fun i hi hv => ?vlen,
    fun hv => ?tlen, fun j hj => ?rom, fun i hi hv => ?f, fun i j hi hj h => ?coeff, fun j hj h => ?table,
    fun i j hi hcap hj => ?readCoeff, fun j hcap hj => ?readTable, fun j hj h => ?readRom⟩
  case unmapped =>
    have hl := locate_unmapped haddr
    exact ⟨hostWrite_of_unmapped hl v s, hostRead_of_peek_none (peek_of_unmapped hl s)⟩
  case vlen => exact hostWrite_of_dropped (locate_vlen hi) nofun (writeLocation_vlen_of_gt hv s i)
  case tlen => exact hostWrite_of_dropped locate_tlen nofun (writeLocation_tlen_of_gt hv s)
  case rom => exact hostWrite_of_dropped (locate_rom hj) nofun rfl
  case f => exact hostWrite_of_dropped (locate_f hi) nofun (writeLocation_f_of_ge hv s i)
  case coeff => exact hostWrite_of_dropped (locate_coeff hi hj) nofun (writeLocation_coeff_eq_none h)
  case table => exact hostWrite_of_dropped (locate_table hj) nofun (writeLocation_table_eq_none h)
  case readCoeff => exact hostRead_of_peek_none ((peek_coeff s hi hj).trans (if_neg (Nat.not_lt.2 hcap)))
  case readTable => exact hostRead_of_peek_none ((peek_table s hj).trans (if_neg (Nat.not_le.2 hcap)))
  case readRom => exact hostRead_of_peek_none (peek_rom_eq_none s hj h)

end Sys2Proof.Machine.Memory
end

/-! # Proofs for spec/30_encoding.md (R71, R73, R76) -/

section

namespace Sys2Proof.Machine.Encoding

open Sys2Proof Sys2Proof.Laws Sys2Proof.Machine Sys2Proof.Machine.Laws Sys2Proof.Machine.ArchState

/-! ## The six fields of a word (R71) -/

theorem wordOf_toNat (op : Opcode) (rd ra rb rc : Index) (imm : BitVec 8) :
    (wordOf op rd ra rb rc imm).toNat =
      op.toNat * 2 ^ 24 + rd.toNat * 2 ^ 20 + ra.toNat * 2 ^ 16 + rb.toNat * 2 ^ 12 + rc.toNat * 2 ^ 8 + imm.toNat := by
  simp only [wordOf, toNat_append_eq_add]
  ring

/-- Settles O3: the encoder's word is the sum, and every word is the encoder's word of its own fields. -/
theorem commandWordIsSumOfFields : Obligations.CommandWordIsSumOfFields := by
  refine ⟨fun w => ?_, wordOf_toNat⟩
  rw [← wordOf_toNat, wordOf_fields]

/-- Two words are equal when their fields are. -/
theorem word_eq_iff_fields (w v : Word) : w = v ↔ opcodeOf w = opcodeOf v ∧ rdOf w = rdOf v ∧ raOf w = raOf v ∧
    rbOf w = rbOf v ∧ rcOf w = rcOf v ∧ immOf w = immOf v := by
  refine ⟨fun h => h ▸ ⟨rfl, rfl, rfl, rfl, rfl, rfl⟩, fun ⟨hop, hrd, hra, hrb, hrc, himm⟩ => ?_⟩
  rw [← wordOf_fields w, hop, hrd, hra, hrb, hrc, himm, wordOf_fields]

@[simp] theorem opcodeOf_and (w m : Word) : opcodeOf (w &&& m) = opcodeOf w &&& opcodeOf m := BitVec.extractLsb'_and
@[simp] theorem rdOf_and (w m : Word) : rdOf (w &&& m) = rdOf w &&& rdOf m := BitVec.extractLsb'_and
@[simp] theorem raOf_and (w m : Word) : raOf (w &&& m) = raOf w &&& raOf m := BitVec.extractLsb'_and
@[simp] theorem rbOf_and (w m : Word) : rbOf (w &&& m) = rbOf w &&& rbOf m := BitVec.extractLsb'_and
@[simp] theorem rcOf_and (w m : Word) : rcOf (w &&& m) = rcOf w &&& rcOf m := BitVec.extractLsb'_and
@[simp] theorem immOf_and (w m : Word) : immOf (w &&& m) = immOf w &&& immOf m := BitVec.extractLsb'_and

/-! ## What a mask asks of one field (R74, R75) -/

/-- An unused field is masked whole. -/
@[simp] theorem and_fifteen_eq_zero (i : Index) : i &&& 15#4 = 0#4 ↔ i = 0#4 := by revert i; decide

/-- A field of kind `F` is masked in bit 3. -/
@[simp] theorem and_eight_eq_zero (i : Index) : i &&& 8#4 = 0#4 ↔ i.toNat < 8 := by revert i; decide

/-- A field of kind `V` is masked in bits 3 and 2. -/
@[simp] theorem and_twelve_eq_zero (i : Index) : i &&& 12#4 = 0#4 ↔ i.toNat < 4 := by revert i; decide

/-- The opcode and an unused `imm` are masked whole. -/
@[simp] theorem and_full_byte (b : BitVec 8) : b &&& 255#8 = b := BitVec.and_allOnes

/-- `imm` of NTT is masked but for bit 0, the direction flag. -/
@[simp] theorem and_fe_eq_zero (b : BitVec 8) : b &&& 254#8 = 0#8 ↔ b.extractLsb' 1 7 = 0#7 := by revert b; decide

/-! ## The six formats (R72)

The decoder's checks, the index ranges and the masks, each told by format, so that one lemma ties them. -/

/-- The formats of R72. -/
inductive Format where
  | fr3 | fr2 | fb | vt | vr3 | vr2

/-- The fields the format marks `0` are zero (R75). -/
def Format.unusedZero : Format → Word → Bool
  | .fr3, w | .vr3, w => unusedZeroR3 w
  | .fr2, w | .vr2, w => unusedZeroR2 w
  | .fb, w => unusedZeroFB w
  | .vt, w => unusedZeroVT w

/-- The index fields the format uses name registers or buffers that exist (R74). -/
def Format.indicesLegal : Format → Word → Bool
  | .fr3, w => isF (rdOf w) && isF (raOf w) && isF (rbOf w)
  | .fr2, w => isF (rdOf w) && isF (raOf w)
  | .fb, w => isF (raOf w) && isF (rbOf w) && isF (rcOf w)
  | .vt, w => isV (rdOf w)
  | .vr3, w => isV (rdOf w) && isV (raOf w) && isV (rbOf w)
  | .vr2, w => isV (rdOf w) && isV (raOf w)

/-- The bits the format fixes, as the `mask` column of R73 has them. -/
def Format.mask : Format → Word
  | .fr3 => wordOf 0xFF 0x8 0x8 0x8 0xF 0xFF
  | .fr2 => wordOf 0xFF 0x8 0x8 0xF 0xF 0xFF
  | .fb => wordOf 0xFF 0xF 0x8 0x8 0x8 0xFF
  | .vt => wordOf 0xFF 0xC 0xF 0xF 0xF 0xFE
  | .vr3 => wordOf 0xFF 0xC 0xC 0xC 0xF 0xFF
  | .vr2 => wordOf 0xFF 0xC 0xC 0xF 0xF 0xFF

/-- One masked comparison makes the checks of R74 and R75 and compares the opcode. -/
theorem Format.and_mask_eq_iff (f : Format) (w : Word) (op : Opcode) :
    w &&& f.mask = wordOf op 0 0 0 0 0 ↔ opcodeOf w = op ∧ f.unusedZero w = true ∧ f.indicesLegal w = true := by
  rw [word_eq_iff_fields]
  cases f <;>
    simp [Format.mask, Format.unusedZero, Format.indicesLegal, unusedZeroR3, unusedZeroR2, unusedZeroFB, unusedZeroVT] <;>
    tauto

/-! ## The rows of the opcode map (R73) -/

/-- The format of each command (R72). -/
def format : Instr → Format
  | .fadd .. | .fsub .. | .fmul .. => .fr3
  | .fpow .. | .finv .. => .fr2
  | .bfly .. => .fb
  | .ntt .. => .vt
  | .conv .. => .vr3
  | .deriv .. | .integ .. | .sinv .. | .slog .. | .sexp .. | .vrsz .. => .vr2

/-- A row made of its opcode and its format. -/
def rowOf (mnemonic : String) (op : Opcode) (f : Format) : OpcodeRow := ⟨mnemonic, wordOf op 0 0 0 0 0, f.mask⟩

/-- The table of R73 by opcode and format. -/
theorem opcodeTable_eq_rowOf : opcodeTable =
    [rowOf "FADD" 0x01 .fr3, rowOf "FSUB" 0x02 .fr3, rowOf "FMUL" 0x03 .fr3, rowOf "FPOW" 0x04 .fr2,
      rowOf "FINV" 0x05 .fr2, rowOf "BFLY" 0x10 .fb, rowOf "NTT" 0x11 .vt, rowOf "CONV" 0x20 .vr3,
      rowOf "DERIV" 0x30 .vr2, rowOf "INTEG" 0x31 .vr2, rowOf "SINV" 0x40 .vr2, rowOf "SLOG" 0x50 .vr2,
      rowOf "SEXP" 0x51 .vr2, rowOf "VRSZ" 0x60 .vr2] := by decide

/-- The row of a command. -/
def row (i : Instr) : OpcodeRow := rowOf i.mnemonic i.opcode (format i)

@[simp] theorem row_mnemonic (i : Instr) : (row i).mnemonic = i.mnemonic := rfl

@[simp] theorem opcodeOf_row_pattern (i : Instr) : opcodeOf (row i).pattern = i.opcode := opcodeOf_wordOf ..

theorem row_mem_opcodeTable (i : Instr) : row i ∈ opcodeTable := by
  rw [opcodeTable_eq_rowOf]
  cases i <;> simp [row, Instr.mnemonic, Instr.opcode, format]

theorem row_accepts_iff (i : Instr) (w : Word) : (row i).accepts w = true ↔
    opcodeOf w = i.opcode ∧ (format i).unusedZero w = true ∧ (format i).indicesLegal w = true := by
  rw [OpcodeRow.accepts, beq_iff_eq]
  exact (format i).and_mask_eq_iff w i.opcode

/-- A row is known by its mnemonic. -/
theorem eq_of_mnemonic_eq {r q : OpcodeRow} (hr : r ∈ opcodeTable) (hq : q ∈ opcodeTable)
    (h : r.mnemonic = q.mnemonic) : r = q :=
  List.inj_on_of_nodup_map (f := OpcodeRow.mnemonic) (by decide) hr hq h

theorem opcodes_nodup : (opcodeTable.map fun r => opcodeOf r.pattern).Nodup := by decide

/-- A row is known by its opcode. -/
theorem eq_of_opcode_eq {r q : OpcodeRow} (hr : r ∈ opcodeTable) (hq : q ∈ opcodeTable)
    (h : opcodeOf r.pattern = opcodeOf q.pattern) : r = q :=
  List.inj_on_of_nodup_map opcodes_nodup hr hq h

/-- Every mask compares the whole opcode. -/
theorem opcodeOf_of_accepts {r : OpcodeRow} (hr : r ∈ opcodeTable) {w : Word} (h : r.accepts w = true) :
    opcodeOf w = opcodeOf r.pattern := by
  have hmask : ∀ r ∈ opcodeTable, opcodeOf r.mask = 255#8 := by decide
  have hand : opcodeOf (w &&& r.mask) = opcodeOf r.pattern := congrArg opcodeOf (beq_iff_eq.1 h)
  rwa [opcodeOf_and, hmask r hr, and_full_byte] at hand

/-! ## The decoder goes by the rows (R73 to R76, R79) -/

theorem checked_eq_ok_iff {unusedZero : Bool} {i j : Instr} :
    checked unusedZero i = .ok j ↔ i = j ∧ unusedZero = true ∧ i.wf = true := by
  cases unusedZero <;> cases hwf : i.wf <;> simp [checked, hwf]

/-- The word's opcode is that of the command `i`, and the decoder's outcome is the check of `i` by its format (R79). -/
def DecodesAs (w : Word) (outcome : Except DecodeError Instr) (i : Instr) : Prop :=
  opcodeOf w = i.opcode ∧ i.wf = (format i).indicesLegal w ∧ outcome = checked ((format i).unusedZero w) i

/-- One arm of the decoder. -/
theorem decodesAs_checked {w : Word} (i : Instr) {unused : Bool} (hop : (opcodeOf w).toNat = i.opcode.toNat)
    (hunused : unused = (format i).unusedZero w) (hwf : i.wf = (format i).indicesLegal w) :
    DecodesAs w (checked unused i) i :=
  ⟨BitVec.eq_of_toNat_eq hop, hwf, hunused ▸ rfl⟩

/-- The opcodes of the table are the ones the decoder has an arm for. -/
theorem opcode_mem_of_mem_opcodeTable : ∀ r ∈ opcodeTable, (opcodeOf r.pattern).toNat ∈
    [0x01, 0x02, 0x03, 0x04, 0x05, 0x10, 0x11, 0x20, 0x30, 0x31, 0x40, 0x50, 0x51, 0x60] := by decide

/-- A word has the opcode of one command, whose checks are those of its format, or an opcode of no row. -/
theorem decode_cases (w : Word) : (∃ i, DecodesAs w (decode w) i) ∨
    ((∀ r ∈ opcodeTable, opcodeOf w ≠ opcodeOf r.pattern) ∧ decode w = .error .reservedOpcode) := by
  unfold decode
  split
  case h_15 =>
    refine .inr ⟨fun r hr hop => ?_, rfl⟩
    have hmem := hop ▸ opcode_mem_of_mem_opcodeTable r hr
    simp_all
  all_goals
    refine .inl ⟨_, decodesAs_checked _ ?_ rfl rfl⟩
    assumption

/-- The row of the command a word decodes to accepts the word. -/
theorem accepts_of_decode_eq_ok {w : Word} {i : Instr} (h : decode w = .ok i) : (row i).accepts w = true := by
  rcases decode_cases w with ⟨j, hop, hwf, hdec⟩ | ⟨-, hdec⟩
  · obtain ⟨rfl, hunused, hlegal⟩ := checked_eq_ok_iff.1 (hdec.symm.trans h)
    exact (row_accepts_iff j w).2 ⟨hop, hunused, hwf ▸ hlegal⟩
  · cases hdec.symm.trans h

/-- A word that a row accepts decodes to a command of that row. -/
theorem exists_decode_of_accepts {r : OpcodeRow} (hr : r ∈ opcodeTable) {w : Word} (h : r.accepts w = true) :
    ∃ i, decode w = .ok i ∧ row i = r := by
  have hopcode : opcodeOf w = opcodeOf r.pattern := opcodeOf_of_accepts hr h
  rcases decode_cases w with ⟨i, hop, hwf, hdec⟩ | ⟨hnone, -⟩
  · have hrow : row i = r := eq_of_opcode_eq (row_mem_opcodeTable i) hr (by rw [opcodeOf_row_pattern, ← hop, hopcode])
    subst hrow
    obtain ⟨-, hunused, hlegal⟩ := (row_accepts_iff i w).1 h
    exact ⟨i, hdec.trans (checked_eq_ok_iff.2 ⟨rfl, hunused, hwf ▸ hlegal⟩), rfl⟩
  · exact absurd hopcode (hnone r hr)

/-- Settles O6: a row accepts the words that decode to its command; acceptance fixes the opcode, which no two rows
share. -/
theorem opcodeMapDecidesDecoding : Obligations.OpcodeMapDecidesDecoding := by
  refine ⟨fun r hr w => ⟨fun h => ?accepted, fun ⟨i, hdec, hname⟩ => ?decoded⟩, ?disjoint, fun w hnone => ?reserved⟩
  case accepted =>
    obtain ⟨i, hdec, rfl⟩ := exists_decode_of_accepts hr h
    exact ⟨i, hdec, rfl⟩
  case decoded =>
    have hrow : row i = r := eq_of_mnemonic_eq (row_mem_opcodeTable i) hr hname
    exact hrow ▸ accepts_of_decode_eq_ok hdec
  case disjoint =>
    refine (List.pairwise_map.1 opcodes_nodup).imp_of_mem fun hr hq hne w ⟨hrw, hqw⟩ => hne ?_
    rw [← opcodeOf_of_accepts hr hrw, opcodeOf_of_accepts hq hqw]
  case reserved =>
    rcases decode_cases w with ⟨i, hop, -⟩ | ⟨-, hdec⟩
    · exact absurd (hop.trans (opcodeOf_row_pattern i).symm) (hnone _ (row_mem_opcodeTable i))
    · exact hdec

/-! ## A word that is no command, written to `CMD` (R76, R82) -/

theorem locate_cmd : locate reference cmdAddress = some .cmd := locate_of_lt (by decide)

theorem hostWrite_cmd (c : Word) (s : State) : hostWrite cmdAddress c s = issue c s := if_pos locate_cmd

theorem issue_of_decode_error {c : Word} {e : DecodeError} (h : decode c = .error e) (s : State) :
    issue c s = s.fail .illegalCommand := by
  rw [issue, h]

/-- Settles O7: a word no row accepts does not decode, and an undecoded word only records the failure. -/
theorem illegalWordFails : Obligations.IllegalWordFails := by
  refine ⟨fun c s hnone => ?_, by decide⟩
  rw [hostWrite_cmd]
  cases hdec : decode c with
  | error e => exact issue_of_decode_error hdec s
  | ok i =>
    have hreject : (row i).accepts c = false := hnone _ (row_mem_opcodeTable i)
    exact absurd (accepts_of_decode_eq_ok hdec) (Bool.eq_false_iff.1 hreject)

end Sys2Proof.Machine.Encoding
end

/-! # Proofs for spec/40_field_alu.md (R91 to R95) -/

section

namespace Sys2Proof.Machine.FieldAlu

open Sys2Proof Sys2Proof.Machine Sys2Proof.Machine.Laws

/-! ## A sum and a difference need one correction (R91, R92) -/

theorem fadd_val_eq_ite (c : Params) (x y : Elem c) :
    (fadd c x y).val = if x.val + y.val < c.P then x.val + y.val else x.val + y.val - c.P := by
  have hx : x.val < c.P := x.isLt
  have hy : y.val < c.P := y.isLt
  rw [fadd_val]
  split
  next hlt => exact Nat.mod_eq_of_lt hlt
  next hge => rw [Nat.mod_eq_sub_mod (Nat.not_lt.1 hge), Nat.mod_eq_of_lt (by omega)]

theorem fsub_val_eq_ite (c : Params) (x y : Elem c) :
    (fsub c x y).val = if y.val ≤ x.val then x.val - y.val else x.val + c.P - y.val := by
  have hx : x.val < c.P := x.isLt
  have hy : y.val < c.P := y.isLt
  rw [fsub, elem_val, Nat.mod_eq_of_lt]
  split <;> omega

/-- The value of `fsub` lies in `[0, P)` and differs from `x - y` by 0 or by `P`. -/
theorem fsub_val_eq_emod (c : Params) (x y : Elem c) :
    ((fsub c x y).val : Int) = ((x.val : Int) - (y.val : Int)) % (c.P : Int) := by
  have hx : x.val < c.P := x.isLt
  have hy : y.val < c.P := y.isLt
  rw [fsub_val_eq_ite]
  split
  next hle => rw [Int.emod_eq_of_lt (by omega) (by omega), Int.ofNat_sub hle]
  next hgt => rw [← Int.add_emod_right, Int.emod_eq_of_lt (by omega) (by omega)]; omega

theorem fsub_zero_val (c : Params) (y : Elem c) :
    (fsub c (elem c 0) y).val = if y.val = 0 then 0 else c.P - y.val := by
  rw [fsub_val_eq_ite, elem_zero_val]
  simp only [Nat.le_zero_eq, Nat.zero_sub, Nat.zero_add]

/-- Settles O25: a residue is the remainder, and one addition or subtraction of `P` brings it into range. -/
theorem fieldOperationsReduce : Obligations.FieldOperationsReduce := fun c x y =>
  ⟨fadd_val c x y, fadd_val_eq_ite c x y, fsub_val_eq_emod c x y, fsub_val_eq_ite c x y, fsub_zero_val c y,
    fmul_val c x y⟩

/-! ## A FieldElement is a residue class (R97)

`residue` reads a FieldElement in the library's field `ZMod P`. It is injective and carries `fmul` and `fpow` to product and
power, so that an equation of FieldElements is one of the field. -/

/-- The residue class of a FieldElement. -/
def residue (c : Params) (x : Elem c) : ZMod c.P := (x.val : ZMod c.P)

@[simp] theorem residue_elem (c : Params) (n : Nat) : residue c (elem c n) = (n : ZMod c.P) := ZMod.natCast_mod n c.P

@[simp] theorem residue_fmul (c : Params) (x y : Elem c) : residue c (fmul c x y) = residue c x * residue c y := by
  rw [fmul, residue_elem, Nat.cast_mul, residue, residue]

/-- The FieldElement of a known class is the remainder of any representative. -/
theorem val_of_residue_eq {c : Params} {x : Elem c} {n : Nat} (h : residue c x = (n : ZMod c.P)) : x.val = n % c.P := by
  have hmod : x.val % c.P = n % c.P := (ZMod.natCast_eq_natCast_iff' _ _ _).1 h
  rwa [Nat.mod_eq_of_lt x.isLt] at hmod

theorem residue_injective (c : Params) : Function.Injective (residue c) := fun _ y h =>
  Fin.ext ((val_of_residue_eq h).trans (Nat.mod_eq_of_lt y.isLt))

/-! ## The power (R94) -/

/-- The invariant of the loop: `r * b^e` is the same before and after each iteration. -/
theorem residue_fpowLoop (c : Params) (fuel : Nat) (r b : Elem c) (e : Nat) (he : e < 2 ^ fuel) :
    residue c (fpowLoop c fuel r b e) = residue c r * residue c b ^ e := by
  induction fuel generalizing r b e with
  | zero =>
    obtain rfl : e = 0 := Nat.lt_one_iff.1 he
    rw [fpowLoop, pow_zero, mul_one]
  | succ fuel ih =>
    have hhalf : e / 2 < 2 ^ fuel := Nat.div_lt_of_lt_mul (by rwa [← pow_succ'])
    rw [fpowLoop]
    split
    next hpos =>
      rw [ih _ _ _ hhalf, residue_fmul, ← pow_two, ← pow_mul]
      split
      next hodd =>
        have hsplit : e = 2 * (e / 2) + 1 := by omega
        conv_rhs => rw [hsplit, pow_succ']
        rw [residue_fmul, mul_assoc]
      next heven => rw [show 2 * (e / 2) = e by omega]
    next hzero =>
      obtain rfl : e = 0 := Nat.eq_zero_of_not_pos hzero
      rw [pow_zero, mul_one]

@[simp] theorem residue_fpow (c : Params) (b : Elem c) (e : Nat) : residue c (fpow c b e) = residue c b ^ e := by
  rw [fpow, residue_fpowLoop c _ _ _ _ Nat.lt_log2_self, residue_elem, Nat.cast_one, one_mul]

theorem fpow_val (c : Params) (b : Elem c) (e : Nat) : (fpow c b e).val = b.val ^ e % c.P :=
  val_of_residue_eq (by rw [residue_fpow, residue, Nat.cast_pow])

theorem fpow_zero (c : Params) (b : Elem c) : fpow c b 0 = elem c 1 :=
  residue_injective c (by rw [residue_fpow, pow_zero, residue_elem, Nat.cast_one])

theorem zero_fpow (c : Params) {e : Nat} (he : e ≠ 0) : fpow c (elem c 0) e = elem c 0 :=
  residue_injective c (by rw [residue_fpow, residue_elem, Nat.cast_zero, zero_pow he])

/-- Settles O26: the loop's invariant, read at the identity. -/
theorem fpowIsThePower : Obligations.FpowIsThePower := by
  intro c b e
  refine ⟨fpow_val c b e, ?_, fun he => ?_⟩
  · rw [fpow_zero, elem_one_val]
  · rw [zero_fpow c (Nat.one_le_iff_ne_zero.1 he), elem_zero_val]

/-! ## The inverse (R95) -/

theorem finv_zero (c : Params) : finv c (elem c 0) = .error .divisionByZero :=
  ((finv_cases c (elem c 0)).resolve_right fun ⟨hne, _⟩ => hne rfl).2

theorem finv_of_ne_zero {c : Params} {x : Elem c} (hx : x ≠ elem c 0) : finv c x = .ok (fpow c x (c.P - 2)) :=
  ((finv_cases c x).resolve_left fun ⟨hzero, _⟩ => hx hzero).2

theorem residue_ne_zero {c : Params} {x : Elem c} (hx : x ≠ elem c 0) : residue c x ≠ 0 := fun h =>
  hx (residue_injective c (by rw [h, residue_elem, Nat.cast_zero]))

/-- Fermat's little theorem: `x * x^(P - 2) = x^(P - 1) = 1`. -/
theorem fmul_fpow_sub_two {c : Params} {x : Elem c} (hx : x ≠ elem c 0) : fmul c x (fpow c x (c.P - 2)) = elem c 1 := by
  have : Fact c.P.Prime := ⟨c.prime⟩
  have hexp : c.P - 2 + 1 = c.P - 1 := by have := c.prime.two_le; omega
  apply residue_injective c
  calc residue c (fmul c x (fpow c x (c.P - 2)))
    _ = residue c x ^ (c.P - 1) := by rw [residue_fmul, residue_fpow, ← pow_succ', hexp]
    _ = 1 := ZMod.pow_card_sub_one_eq_one (residue_ne_zero hx)
    _ = residue c (elem c 1) := by rw [residue_elem, Nat.cast_one]

/-- There are no zero divisors. -/
theorem fmul_left_cancel {c : Params} {x y z : Elem c} (hx : x ≠ elem c 0) (h : fmul c x y = fmul c x z) : y = z := by
  have : Fact c.P.Prime := ⟨c.prime⟩
  have hres : residue c x * residue c y = residue c x * residue c z := by rw [← residue_fmul, h, residue_fmul]
  exact residue_injective c (mul_left_cancel₀ (residue_ne_zero hx) hres)

/-- Settles O27: `x^(P - 2)` is an inverse by Fermat's little theorem, and the only one by cancellation. -/
theorem finvIsTheInverse : Obligations.FinvIsTheInverse := by
  refine fun c => ⟨finv_zero c, fun x hx => ⟨finv_of_ne_zero hx, fmul_fpow_sub_two hx, fun y hy => ?_⟩⟩
  exact fmul_left_cancel hx (hy.trans (fmul_fpow_sub_two hx).symm)

end Sys2Proof.Machine.FieldAlu
end

/-! # Proofs for spec/41_ntt.md: the twiddle ROM and the bit reversal (R111 to R115, R118) -/

section

namespace Sys2Proof.Machine.Ntt

open Sys2Proof Sys2Proof.Machine Sys2Proof.Machine.Laws Sys2Proof.Machine.FieldAlu

theorem residue_one (c : Params) : residue c (elem c 1) = 1 := by rw [residue_elem, Nat.cast_one]

/-! ## Residues of the ROM entries are roots of unity (R111) -/

theorem fact_prime (c : Params) : Fact c.P.Prime := ⟨c.prime⟩

theorem two_pow_dvd_of_le_logMax {c : Params} {k : Nat} (hk : k ≤ logMax c) : 2 ^ k ∣ c.P - 1 :=
  (Nat.pow_dvd_pow 2 hk).trans (Scope.logMaxIsTheValuation.1 c).1

theorem natCast_eq_one_iff (c : Params) (n : Nat) : (n : ZMod c.P) = 1 ↔ n % c.P = 1 := by
  rw [← Nat.cast_one, ZMod.natCast_eq_natCast_iff', Nat.mod_eq_of_lt c.prime.one_lt]

/-- `G` has order `P - 1` (R5). -/
theorem G_isPrimitiveRoot (c : Params) : IsPrimitiveRoot (c.G : ZMod c.P) (c.P - 1) := by
  obtain ⟨⟨hpos, hone⟩, hleast⟩ := c.primitive
  have hiff : ∀ e : Nat, (c.G : ZMod c.P) ^ e = 1 ↔ c.G ^ e % c.P = 1 := fun e => by
    rw [← natCast_eq_one_iff, Nat.cast_pow]
  refine IsPrimitiveRoot.mk_of_lt _ hpos ((hiff _).2 hone) fun e he hlt h => ?_
  exact absurd (hleast ⟨he, (hiff e).1 h⟩) (Nat.not_le.2 hlt)

theorem residue_romRoot (c : Params) (k : Nat) : residue c (romRoot c k) = (c.G : ZMod c.P) ^ ((c.P - 1) / 2 ^ k) := by
  rw [romRoot, residue_fpow, residue_elem]

theorem romRoot_isPrimitiveRoot {c : Params} {k : Nat} (hk : k ≤ logMax c) :
    IsPrimitiveRoot (residue c (romRoot c k)) (2 ^ k) := by
  have hpos : 0 < c.P - 1 := Nat.sub_pos_of_lt c.prime.one_lt
  rw [residue_romRoot]
  exact (G_isPrimitiveRoot c).pow hpos (Nat.div_mul_cancel (two_pow_dvd_of_le_logMax hk)).symm

/-- `ROOT[k + 1]^2 = ROOT[k]`: squaring halves the denominator of the exponent. -/
theorem residue_romRoot_succ_sq {c : Params} {k : Nat} (hk : k + 1 ≤ logMax c) :
    residue c (romRoot c (k + 1)) ^ 2 = residue c (romRoot c k) := by
  have hexp : (c.P - 1) / 2 ^ (k + 1) * 2 = (c.P - 1) / 2 ^ k := by
    have hdvd : 2 ∣ (c.P - 1) / 2 ^ k :=
      (Nat.dvd_div_iff_mul_dvd (two_pow_dvd_of_le_logMax (by omega))).2 (two_pow_dvd_of_le_logMax hk)
    rw [pow_succ, ← Nat.div_div_eq_div_mul, Nat.div_mul_cancel hdvd]
  rw [residue_romRoot, residue_romRoot, ← pow_mul, hexp]

theorem fpow_romRoot_eq_one_iff {c : Params} {k : Nat} (hk : k ≤ logMax c) (e : Nat) :
    fpow c (romRoot c k) e = elem c 1 ↔ 2 ^ k ∣ e := by
  rw [← (romRoot_isPrimitiveRoot hk).pow_eq_one_iff_dvd, ← residue_fpow, ← residue_one]
  exact (residue_injective c).eq_iff.symm

theorem romRoot_zero (c : Params) : romRoot c 0 = elem c 1 := by
  have hroot : IsPrimitiveRoot (residue c (romRoot c 0)) 1 := romRoot_isPrimitiveRoot (Nat.zero_le _)
  exact residue_injective c ((IsPrimitiveRoot.one_right_iff.1 hroot).trans (residue_one c).symm)

theorem one_le_logMax_of_odd {c : Params} (hodd : c.P % 2 = 1) : 1 ≤ logMax c := by
  by_contra hlt
  have hzero : logMax c = 0 := by omega
  obtain ⟨_, hndvd⟩ := Scope.logMaxIsTheValuation.1 c
  rw [hzero] at hndvd
  exact hndvd (Nat.dvd_of_mod_eq_zero (by omega))

/-- `ROOT[1]` is the one square root of 1 besides 1. -/
theorem romRoot_one_val {c : Params} (hodd : c.P % 2 = 1) : (romRoot c 1).val = c.P - 1 := by
  have := fact_prime c
  have hroot : IsPrimitiveRoot (residue c (romRoot c 1)) 2 := romRoot_isPrimitiveRoot (one_le_logMax_of_odd hodd)
  have hres : residue c (romRoot c 1) = ((c.P - 1 : Nat) : ZMod c.P) := by
    rw [hroot.eq_neg_one_of_two_right, Nat.cast_pred c.prime.pos, ZMod.natCast_self, zero_sub]
  rw [val_of_residue_eq hres, Nat.mod_eq_of_lt (Nat.sub_lt c.prime.pos one_pos)]

theorem fmul_romRoot_self {c : Params} {k : Nat} (hpos : 1 ≤ k) (hk : k ≤ logMax c) :
    fmul c (romRoot c k) (romRoot c k) = romRoot c (k - 1) := by
  obtain ⟨j, rfl⟩ := Nat.exists_eq_add_of_le' hpos
  apply residue_injective c
  rw [residue_fmul, ← pow_two, residue_romRoot_succ_sq hk, Nat.add_sub_cancel]

/-! ## The two banks of inverses (R112, R113) -/

theorem ne_zero_of_residue_ne_zero {c : Params} {x : Elem c} (h : residue c x ≠ 0) : x ≠ elem c 0 := fun hx =>
  h (by rw [hx, residue_elem, Nat.cast_zero])

theorem romRoot_ne_zero {c : Params} {k : Nat} (hk : k ≤ logMax c) : romRoot c k ≠ elem c 0 := by
  have := fact_prime c
  exact ne_zero_of_residue_ne_zero ((romRoot_isPrimitiveRoot hk).ne_zero (Nat.two_pow_pos k).ne')

theorem elem_two_pow_val {c : Params} {k : Nat} (hk : k ≤ logMax c) : (elem c (2 ^ k)).val = 2 ^ k := by
  have hle : 2 ^ k ≤ c.P - 1 := Nat.le_of_dvd (Nat.sub_pos_of_lt c.prime.one_lt) (two_pow_dvd_of_le_logMax hk)
  have hP : 1 < c.P := c.prime.one_lt
  exact Nat.mod_eq_of_lt (by omega)

theorem elem_two_pow_ne_zero {c : Params} {k : Nat} (hk : k ≤ logMax c) : elem c (2 ^ k) ≠ elem c 0 := fun h => by
  have hval : (elem c (2 ^ k)).val = (elem c 0).val := congrArg Fin.val h
  rw [elem_two_pow_val hk, elem_zero_val] at hval
  exact (Nat.two_pow_pos k).ne' hval

theorem finv_romRoot {c : Params} {k : Nat} (hk : k ≤ logMax c) : finv c (romRoot c k) = .ok (romIroot c k) :=
  finv_of_ne_zero (romRoot_ne_zero hk)

theorem finv_two_pow {c : Params} {k : Nat} (hk : k ≤ logMax c) : finv c (elem c (2 ^ k)) = .ok (romNinv c k) :=
  finv_of_ne_zero (elem_two_pow_ne_zero hk)

/-- Both are the inverse of `ROOT[k]`, of which there is one. -/
theorem romIroot_eq_fpow {c : Params} {k : Nat} (hk : k ≤ logMax c) :
    romIroot c k = fpow c (romRoot c k) (2 ^ k - 1) := by
  have hinv : fmul c (romRoot c k) (fpow c (romRoot c k) (2 ^ k - 1)) = elem c 1 := by
    apply residue_injective c
    rw [residue_fmul, residue_fpow, ← pow_succ', Nat.sub_add_cancel (Nat.two_pow_pos k),
      (romRoot_isPrimitiveRoot hk).pow_eq_one, residue_one]
  exact fmul_left_cancel (romRoot_ne_zero hk) ((fmul_fpow_sub_two (romRoot_ne_zero hk)).trans hinv.symm)

theorem romNinv_zero (c : Params) : romNinv c 0 = elem c 1 :=
  residue_injective c (by rw [romNinv, residue_fpow, pow_zero, residue_one, one_pow])

/-- Settles O33: `ROOT[k]` is a power of a primitive root of order `P - 1`, and the other banks are inverses. -/
theorem romHoldsRootsOfUnity : Obligations.RomHoldsRootsOfUnity := by
  intro c k hk
  have hval : (romRoot c k).val = c.G ^ ((c.P - 1) / 2 ^ k) % c.P :=
    val_of_residue_eq (by rw [residue_romRoot, Nat.cast_pow])
  have hlen : (elem c (2 ^ k)).val ≠ 0 := by rw [elem_two_pow_val hk]; exact (Nat.two_pow_pos k).ne'
  exact ⟨two_pow_dvd_of_le_logMax hk, hval, fpow_romRoot_eq_one_iff hk, by rw [romRoot_zero, elem_one_val],
    romRoot_one_val, fun hpos => fmul_romRoot_self hpos hk, finv_romRoot hk, romIroot_eq_fpow hk, finv_two_pow hk, hlen,
    by rw [romNinv_zero, elem_one_val]⟩

/-- Settles O34: the three banks for `P = 998244353`, `G = 3`, each evaluated. -/
theorem romReferenceContents : Obligations.RomReferenceContents :=
  ⟨by decide +kernel, by decide +kernel, by decide +kernel⟩

/-! ## The bit reversal (R118) -/

theorem bitrev_succ (i s : Nat) : bitrev i (s + 1) = i % 2 * 2 ^ s + bitrev (i / 2) s := rfl

theorem bitrev_eq_sum (i s : Nat) :
    bitrev i s = ∑ t ∈ Finset.range s, (if i.testBit t then 1 else 0) * 2 ^ (s - 1 - t) := by
  induction s generalizing i with
  | zero => rfl
  | succ s ih =>
    have hlow : (if i.testBit 0 then 1 else 0) = i % 2 := by
      rw [Nat.testBit_zero]
      rcases Nat.mod_two_eq_zero_or_one i with h | h <;> simp [h]
    have hhigh : ∀ t, (if i.testBit (t + 1) then 1 else 0) * 2 ^ (s + 1 - 1 - (t + 1)) =
        (if (i / 2).testBit t then 1 else 0) * 2 ^ (s - 1 - t) := fun t => by
      rw [Nat.testBit_succ, show s + 1 - 1 - (t + 1) = s - 1 - t by omega]
    rw [bitrev_succ, ih, Finset.sum_range_succ', hlow, Nat.sub_zero, Nat.add_sub_cancel, add_comm]
    exact congrArg (· + i % 2 * 2 ^ s) (Finset.sum_congr rfl fun t _ => (hhigh t).symm)

theorem bitrev_lt (i s : Nat) : bitrev i s < 2 ^ s := by
  induction s generalizing i with
  | zero => exact Nat.one_pos
  | succ s ih =>
    have hrest : bitrev (i / 2) s < 2 ^ s := ih (i / 2)
    have hbit : i % 2 * 2 ^ s ≤ 1 * 2 ^ s := Nat.mul_le_mul_right _ (by omega)
    rw [bitrev_succ, pow_succ]
    omega

/-- The top bit of the index becomes the lowest bit. -/
theorem bitrev_top {i s : Nat} (b : Nat) (hb : b < 2) (hi : i < 2 ^ s) :
    bitrev (b * 2 ^ s + i) (s + 1) = 2 * bitrev i s + b := by
  induction s generalizing i with
  | zero =>
    obtain rfl : i = 0 := Nat.lt_one_iff.1 hi
    simp [bitrev, Nat.mod_eq_of_lt hb]
  | succ s ih =>
    have hsplit : b * 2 ^ (s + 1) + i = 2 * (b * 2 ^ s) + i := by ring
    have hdiv : (2 * (b * 2 ^ s) + i) / 2 = b * 2 ^ s + i / 2 := by omega
    rw [hsplit, bitrev_succ, Nat.mul_add_mod, hdiv, ih (by rw [pow_succ] at hi; omega), bitrev_succ]
    ring

theorem bitrev_bitrev {i s : Nat} (hi : i < 2 ^ s) : bitrev (bitrev i s) s = i := by
  induction s generalizing i with
  | zero => exact (Nat.lt_one_iff.1 hi).symm
  | succ s ih =>
    rw [bitrev_succ i s, bitrev_top _ (Nat.mod_lt i two_pos) (bitrev_lt _ _), ih (by rw [pow_succ] at hi; omega)]
    omega

theorem bitrev_two_mul (j t : Nat) : bitrev (2 * j) (t + 1) = bitrev j t := by
  rw [bitrev_succ, Nat.mul_mod_right, Nat.mul_div_cancel_left j two_pos, zero_mul, zero_add]

theorem bitrev_two_mul_add_one (j t : Nat) : bitrev (2 * j + 1) (t + 1) = 2 ^ t + bitrev j t := by
  rw [bitrev_succ, Nat.mul_add_mod, Nat.one_mod, one_mul, show (2 * j + 1) / 2 = j by omega]

theorem coef_bitReverse {c : Params} {s i : Nat} (a : Series c) (hi : i < 2 ^ s) :
    coef c (bitReverse c s a) i = coef c a (bitrev i s) := by
  rw [coef_of_lt _ _ _ (by rwa [bitReverse_length])]
  simp [bitReverse]

/-- Settles O35: the sum by induction on the bits; reversing twice peels the lowest bit once and the top bit once. -/
theorem bitReversalReadsBitsBackwards : Obligations.BitReversalReadsBitsBackwards := by
  refine ⟨bitrev_eq_sum, fun i s hi => ⟨bitrev_bitrev hi, bitrev_lt i s⟩, fun c s i a hi => ?_, by decide, by decide⟩
  rw [ArchState.getElem?_eq_coef (by rwa [bitReverse_length]), coef_bitReverse a hi]

end Sys2Proof.Machine.Ntt
end

/-! # Proofs for spec/41_ntt.md: the discrete Fourier transform over a field (R123, R124) -/

section

namespace Sys2Proof.Machine.Ntt

section Ring

variable {R : Type*} [CommRing R]

/-- The sum of R123 over a ring: the transform of length `2^t` of `f` at the root `w`. `residueAt_nttEngine` ties it to the
engine and `residue_powerSum` to the defining sum. -/
def dft (w : R) (t : Nat) (f : Nat → R) (k : Nat) : R := ∑ j ∈ Finset.range (2 ^ t), f j * w ^ (j * k)

theorem dft_zero (w : R) (f : Nat → R) (k : Nat) : dft w 0 f k = f 0 := by simp [dft]

theorem dft_congr (w : R) {t : Nat} {f g : Nat → R} (h : ∀ j, j < 2 ^ t → f j = g j) (k : Nat) :
    dft w t f k = dft w t g k :=
  Finset.sum_congr rfl fun j hj => by rw [h j (Finset.mem_range.1 hj)]

theorem dft_const_mul (w x : R) (t : Nat) (f : Nat → R) (k : Nat) :
    dft w t (fun j => x * f j) k = x * dft w t f k := by
  simp only [dft, Finset.mul_sum, mul_assoc]

/-! ## Decimation in time -/

theorem sum_range_two_mul (n : Nat) (f : Nat → R) :
    ∑ j ∈ Finset.range (2 * n), f j = ∑ j ∈ Finset.range n, f (2 * j) + ∑ j ∈ Finset.range n, f (2 * j + 1) := by
  induction n with
  | zero => simp
  | succ n ih =>
    rw [Nat.mul_succ, Finset.sum_range_succ, Finset.sum_range_succ, ih, Finset.sum_range_succ, Finset.sum_range_succ]
    ring

/-- A transform is two of half the length, on the even and on the odd indices. -/
theorem dft_succ (w : R) (t : Nat) (f : Nat → R) (k : Nat) :
    dft w (t + 1) f k =
      dft (w ^ 2) t (fun j => f (2 * j)) k + dft (w ^ 2) t (fun j => f (2 * j + 1)) k * w ^ k := by
  have heven : ∀ j, w ^ (2 * j * k) = (w ^ 2) ^ (j * k) := fun j => by rw [← pow_mul, mul_assoc]
  have hodd : ∀ j, w ^ ((2 * j + 1) * k) = (w ^ 2) ^ (j * k) * w ^ k := fun j => by
    rw [add_mul, one_mul, pow_add, heven]
  simp only [dft]
  rw [pow_succ', sum_range_two_mul, Finset.sum_mul]
  simp only [heven, hodd, ← mul_assoc]

theorem dft_add_length {w : R} {t : Nat} (hw : w ^ 2 ^ t = 1) (f : Nat → R) (k : Nat) :
    dft w t f (k + 2 ^ t) = dft w t f k := by
  refine Finset.sum_congr rfl fun j _ => ?_
  rw [mul_add, pow_add, mul_comm j (2 ^ t), pow_mul w (2 ^ t), hw, one_pow, mul_one]

/-- The upper half of a transform differs from the lower one in the sign of the odd part. -/
theorem dft_succ_add_half [NoZeroDivisors R] {w : R} {t : Nat} (hw : IsPrimitiveRoot w (2 ^ (t + 1))) (f : Nat → R)
    (k : Nat) :
    dft w (t + 1) f (k + 2 ^ t) =
      dft (w ^ 2) t (fun j => f (2 * j)) k - dft (w ^ 2) t (fun j => f (2 * j + 1)) k * w ^ k := by
  have hsq : (w ^ 2) ^ 2 ^ t = 1 := by rw [← pow_mul, ← pow_succ', hw.pow_eq_one]
  have hneg : w ^ 2 ^ t = -1 := (hw.pow (Nat.two_pow_pos _) (pow_succ 2 t)).eq_neg_one_of_two_right
  rw [dft_succ, dft_add_length hsq, dft_add_length hsq, pow_add, hneg]
  ring

end Ring

/-! ## The inverse transform -/

section Field

variable {F : Type*} [Field F]

/-- The powers of a root of unity other than 1 sum to 0. -/
theorem sum_pow_eq_zero {x : F} {n : Nat} (hx : x ^ n = 1) (hne : x ≠ 1) : ∑ m ∈ Finset.range n, x ^ m = 0 := by
  rw [geom_sum_eq hne, hx, sub_self, zero_div]

theorem sum_pow_mul_inv_pow {w : F} {n j k : Nat} (hw : IsPrimitiveRoot w n) (hj : j < n) (hk : k < n) :
    ∑ m ∈ Finset.range n, w ^ (j * m) * w⁻¹ ^ (m * k) = if j = k then (n : F) else 0 := by
  have hw0 : w ≠ 0 := hw.ne_zero (by omega)
  have hterm : ∀ m, w ^ (j * m) * w⁻¹ ^ (m * k) = (w ^ j * w⁻¹ ^ k) ^ m := fun m => by
    rw [mul_pow, ← pow_mul, ← pow_mul, mul_comm k m]
  have hone : w ^ j * w⁻¹ ^ k = 1 ↔ j = k := by
    rw [inv_pow, mul_inv_eq_one₀ (pow_ne_zero k hw0)]
    exact ⟨fun h => hw.pow_inj hj hk h, fun h => by rw [h]⟩
  simp only [hterm]
  split
  next heq => simp only [hone.2 heq, one_pow, Finset.sum_const, Finset.card_range, nsmul_one]
  next hne =>
    refine sum_pow_eq_zero ?_ fun h => hne (hone.1 h)
    rw [mul_pow, ← pow_mul, ← pow_mul, mul_comm j, mul_comm k, pow_mul, pow_mul, hw.pow_eq_one, hw.inv.pow_eq_one,
      one_pow, one_pow, one_mul]

/-- Transforming at `w` and then at its inverse multiplies by the length. -/
theorem dft_inv_dft {w : F} {t k : Nat} (hw : IsPrimitiveRoot w (2 ^ t)) (f : Nat → F) (hk : k < 2 ^ t) :
    dft w⁻¹ t (dft w t f) k = 2 ^ t * f k := by
  calc dft w⁻¹ t (dft w t f) k
    _ = ∑ m ∈ Finset.range (2 ^ t), ∑ j ∈ Finset.range (2 ^ t), f j * (w ^ (j * m) * w⁻¹ ^ (m * k)) := by
        simp only [dft, Finset.sum_mul, mul_assoc]
    _ = ∑ j ∈ Finset.range (2 ^ t), f j * ∑ m ∈ Finset.range (2 ^ t), w ^ (j * m) * w⁻¹ ^ (m * k) := by
        rw [Finset.sum_comm]
        simp only [Finset.mul_sum]
    _ = ∑ j ∈ Finset.range (2 ^ t), if j = k then 2 ^ t * f j else 0 := by
        refine Finset.sum_congr rfl fun j hj => ?_
        rw [sum_pow_mul_inv_pow hw (Finset.mem_range.1 hj) hk, mul_ite, mul_zero, mul_comm, Nat.cast_pow, Nat.cast_ofNat]
    _ = 2 ^ t * f k := by rw [Finset.sum_ite_eq', if_pos (Finset.mem_range.2 hk)]

end Field

end Sys2Proof.Machine.Ntt
end

/-! # Proofs for spec/41_ntt.md: the engine (R116, R119 to R124) -/

section

namespace Sys2Proof.Machine.Ntt

open Sys2Proof Sys2Proof.Machine Sys2Proof.Machine.Laws Sys2Proof.Machine.FieldAlu

/-! ## A series as a function into the field -/

@[simp] theorem residue_fadd (c : Params) (x y : Elem c) : residue c (fadd c x y) = residue c x + residue c y := by
  rw [fadd, residue_elem, Nat.cast_add, residue, residue]

@[simp] theorem residue_fsub (c : Params) (x y : Elem c) : residue c (fsub c x y) = residue c x - residue c y := by
  have hy : y.val ≤ c.P := y.isLt.le
  have hval : residue c (fsub c x y) = ((x.val + (c.P - y.val) : Nat) : ZMod c.P) := by
    rw [residue, fsub_val, ZMod.natCast_mod]
  rw [hval, Nat.cast_add, Nat.cast_sub hy, ZMod.natCast_self, zero_sub, ← sub_eq_add_neg, residue, residue]

/-- The residue class of `coef(a, i)`. -/
def residueAt (c : Params) (a : Series c) (i : Nat) : ZMod c.P := residue c (coef c a i)

theorem series_ext_residueAt {c : Params} {a b : Series c} (hl : a.length = b.length)
    (h : ∀ i, i < a.length → residueAt c a i = residueAt c b i) : a = b :=
  series_ext c a b hl fun i hi => residue_injective c (h i hi)

theorem residueAt_cons_zero (c : Params) (x : Elem c) (a : Series c) : residueAt c (x :: a) 0 = residue c x := rfl

theorem residueAt_cons_succ (c : Params) (x : Elem c) (a : Series c) (i : Nat) :
    residueAt c (x :: a) (i + 1) = residueAt c a i := rfl

theorem residueAt_append_of_lt {c : Params} {a : Series c} {i : Nat} (hi : i < a.length) (b : Series c) :
    residueAt c (a ++ b) i = residueAt c a i := by
  rw [residueAt, residueAt, coef, coef, List.getD_append _ _ _ _ hi]

theorem residueAt_append_add {c : Params} {a : Series c} {n : Nat} (hn : a.length = n) (b : Series c) (i : Nat) :
    residueAt c (a ++ b) (n + i) = residueAt c b i := by
  rw [residueAt, residueAt, coef, coef, List.getD_append_right _ _ _ _ (by omega), hn, Nat.add_sub_cancel_left]

theorem residueAt_drop (c : Params) (a : Series c) (n i : Nat) :
    residueAt c (a.drop n) i = residueAt c a (n + i) := by
  simp only [residueAt, coef, List.getD_eq_getElem?_getD, List.getElem?_drop]

theorem residueAt_take {n i : Nat} (hi : i < n) (c : Params) (a : Series c) :
    residueAt c (a.take n) i = residueAt c a i := by
  simp only [residueAt, coef, List.getD_eq_getElem?_getD, List.getElem?_take_of_lt hi]

/-! ## One pass (R116, R119, R120) -/

/-- Pair `k` of a block: the butterfly with the twiddle `w * wlen^k`. -/
theorem residueAt_blockButterflies {c : Params} (wlen w : Elem c) {us vs : Series c} {k : Nat}
    (hl : us.length = vs.length) (hk : k < us.length) :
    residueAt c (blockButterflies c wlen w us vs).1 k =
      residueAt c us k + residueAt c vs k * (residue c w * residue c wlen ^ k) ∧
    residueAt c (blockButterflies c wlen w us vs).2 k =
      residueAt c us k - residueAt c vs k * (residue c w * residue c wlen ^ k) := by
  induction us generalizing vs w k with
  | nil => exact absurd hk (Nat.not_lt_zero k)
  | cons u us ih =>
    cases vs with
    | nil => cases hl
    | cons v vs =>
      rw [blockButterflies]
      cases k with
      | zero => simp [residueAt_cons_zero, butterfly]
      | succ k =>
        have hrest := ih (fmul c w wlen) (Nat.succ.inj hl) (Nat.lt_of_succ_lt_succ hk)
        rw [residue_fmul, mul_assoc, ← pow_succ'] at hrest
        simpa only [residueAt_cons_succ] using hrest

/-- Block `b` of a pass, its lower and its upper half. -/
theorem residueAt_passBlocks {c : Params} (wlen : Elem c) {half blocks b k : Nat} {a : Series c}
    (ha : a.length = blocks * (2 * half)) (hb : b < blocks) (hk : k < half) :
    residueAt c (passBlocks c wlen half blocks a) (b * (2 * half) + k) =
      residueAt c a (b * (2 * half) + k) + residueAt c a (b * (2 * half) + (half + k)) * residue c wlen ^ k ∧
    residueAt c (passBlocks c wlen half blocks a) (b * (2 * half) + (half + k)) =
      residueAt c a (b * (2 * half) + k) - residueAt c a (b * (2 * half) + (half + k)) * residue c wlen ^ k := by
  induction blocks generalizing a b with
  | zero => exact absurd hb (Nat.not_lt_zero b)
  | succ blocks ih =>
    have hlen : a.length = blocks * (2 * half) + 2 * half := by rw [ha, Nat.succ_mul]
    have hus : (a.take half).length = half := by rw [List.length_take]; omega
    have hvs : ((a.drop half).take half).length = half := by rw [List.length_take, List.length_drop]; omega
    obtain ⟨hlo, hup⟩ := blockButterflies_length c wlen (a.take half) ((a.drop half).take half) (elem c 1)
      (hus.trans hvs.symm)
    rw [hus] at hlo hup
    rw [passBlocks]
    cases b with
    | zero =>
      have hpair := residueAt_blockButterflies wlen (elem c 1) (hus.trans hvs.symm) (hk.trans_eq hus.symm)
      rw [residue_one, one_mul, residueAt_take hk, residueAt_take hk, residueAt_drop] at hpair
      rw [zero_mul, zero_add, zero_add, residueAt_append_of_lt (by rw [List.length_append]; omega),
        residueAt_append_of_lt (by omega), residueAt_append_of_lt (by rw [List.length_append]; omega),
        residueAt_append_add hlo]
      exact hpair
    | succ b =>
      have hrest := ih (a := a.drop (2 * half)) (by rw [List.length_drop]; omega) (Nat.lt_of_succ_lt_succ hb)
      have hshift : ∀ i, (b + 1) * (2 * half) + i = 2 * half + (b * (2 * half) + i) := fun i => by ring
      simp only [residueAt_drop] at hrest
      simp only [hshift]
      rw [residueAt_append_add (by rw [List.length_append, hlo, hup]; omega),
        residueAt_append_add (by rw [List.length_append, hlo, hup]; omega)]
      exact hrest

/-! ## All passes (R119, R123) -/

theorem residue_romIroot {c : Params} {k : Nat} (hk : k ≤ logMax c) :
    residue c (romIroot c k) = (residue c (romRoot c k))⁻¹ := by
  have := fact_prime c
  have hmul : residue c (romRoot c k) * residue c (romIroot c k) = 1 := by
    rw [← residue_fmul, romIroot, fmul_fpow_sub_two (romRoot_ne_zero hk), residue_one]
  exact (inv_eq_of_mul_eq_one_right hmul).symm

theorem passRoot_isPrimitiveRoot {c : Params} (dir : Direction) {t : Nat} (ht : t ≤ logMax c) :
    IsPrimitiveRoot (residue c (passRoot c dir t)) (2 ^ t) := by
  have := fact_prime c
  cases dir with
  | forward => exact romRoot_isPrimitiveRoot ht
  | inverse => rw [passRoot, residue_romIroot ht]; exact (romRoot_isPrimitiveRoot ht).inv

theorem residue_passRoot_succ_sq {c : Params} (dir : Direction) {t : Nat} (ht : t + 1 ≤ logMax c) :
    residue c (passRoot c dir (t + 1)) ^ 2 = residue c (passRoot c dir t) := by
  have := fact_prime c
  cases dir with
  | forward => exact residue_romRoot_succ_sq ht
  | inverse =>
    rw [passRoot, passRoot, residue_romIroot ht, residue_romIroot (by omega), inv_pow, residue_romRoot_succ_sq ht]

/-- A pass merges the transforms of the even and of the odd part, which stand in the halves of a block. -/
theorem residueAt_passBlocks_eq_dft {c : Params} {dir : Direction} {t blocks b k : Nat} {a : Series c}
    {f : Nat → ZMod c.P} (ht : t + 1 ≤ logMax c) (ha : a.length = blocks * (2 * 2 ^ t)) (hb : b < blocks)
    (heven : ∀ k, k < 2 ^ t → residueAt c a (b * (2 * 2 ^ t) + k) =
      dft (residue c (passRoot c dir t)) t (fun j => f (2 * j)) k)
    (hodd : ∀ k, k < 2 ^ t → residueAt c a (b * (2 * 2 ^ t) + (2 ^ t + k)) =
      dft (residue c (passRoot c dir t)) t (fun j => f (2 * j + 1)) k)
    (hk : k < 2 * 2 ^ t) :
    residueAt c (passBlocks c (passRoot c dir (t + 1)) (2 ^ t) blocks a) (b * (2 * 2 ^ t) + k) =
      dft (residue c (passRoot c dir (t + 1))) (t + 1) f k := by
  have := fact_prime c
  rcases Nat.lt_or_ge k (2 ^ t) with hlt | hge
  · obtain ⟨hlower, _⟩ := residueAt_passBlocks (passRoot c dir (t + 1)) ha hb hlt
    rw [hlower, heven k hlt, hodd k hlt, dft_succ, residue_passRoot_succ_sq dir ht]
  · obtain ⟨k, rfl⟩ := Nat.exists_eq_add_of_le hge
    have hlt : k < 2 ^ t := by omega
    obtain ⟨_, hupper⟩ := residueAt_passBlocks (passRoot c dir (t + 1)) ha hb hlt
    rw [hupper, heven k hlt, hodd k hlt, Nat.add_comm (2 ^ t) k, dft_succ_add_half (passRoot_isPrimitiveRoot dir ht),
      residue_passRoot_succ_sq dir ht]

/-- The invariant of the passes: after `t` of them, block `b` of length `2^t` holds the transform of its elements taken in
reversed order. -/
theorem residueAt_passes {c : Params} (dir : Direction) {s t : Nat} {a : Series c} (ha : a.length = 2 ^ s) (hts : t ≤ s)
    (hs : s ≤ logMax c) {b k : Nat} (hb : b < 2 ^ (s - t)) (hk : k < 2 ^ t) :
    residueAt c (passes c dir s t a) (b * 2 ^ t + k) =
      dft (residue c (passRoot c dir t)) t (fun j => residueAt c a (b * 2 ^ t + bitrev j t)) k := by
  induction t generalizing b k with
  | zero =>
    obtain rfl : k = 0 := Nat.lt_one_iff.1 hk
    rw [dft_zero, passes, bitrev]
  | succ t ih =>
    have hblocks : 2 ^ (s - t) = 2 * 2 ^ (s - (t + 1)) := by rw [← pow_succ']; congr 1; omega
    have hlen : (passes c dir s t a).length = 2 ^ (s - (t + 1)) * (2 * 2 ^ t) := by
      rw [passes_length c dir s t a ha (by omega), ← pow_succ', ← pow_add]; congr 1; omega
    have hlower : ∀ i, b * (2 * 2 ^ t) + i = 2 * b * 2 ^ t + i := fun i => by ring
    have hupper : ∀ i, b * (2 * 2 ^ t) + (2 ^ t + i) = (2 * b + 1) * 2 ^ t + i := fun i => by ring
    rw [pow_succ'] at hk
    rw [passes, pow_succ']
    refine residueAt_passBlocks_eq_dft (by omega) hlen hb (fun k hk => ?_) (fun k hk => ?_) hk
    · rw [hlower, ih (by omega) (by omega) hk]
      simp only [bitrev_two_mul, hlower]
    · rw [hupper, ih (by omega) (by omega) hk]
      simp only [bitrev_two_mul_add_one, hupper]

/-- The passes on the permuted series: the permutation of R118 undoes the order of the invariant. -/
theorem residueAt_passes_bitReverse {c : Params} (dir : Direction) {s k : Nat} (a : Series c) (hs : s ≤ logMax c)
    (hk : k < 2 ^ s) : residueAt c (passes c dir s s (bitReverse c s a)) k =
      dft (residue c (passRoot c dir s)) s (residueAt c a) k := by
  have hblock := residueAt_passes dir (bitReverse_length c s a) le_rfl hs (b := 0) (Nat.two_pow_pos _) hk
  rw [zero_mul, zero_add] at hblock
  rw [hblock]
  refine dft_congr _ (fun j hj => ?_) k
  rw [zero_add, residueAt, coef_bitReverse a (bitrev_lt j s), bitrev_bitrev hj, residueAt]

/-! ## The scaling and the defining sums (R121 to R123) -/

/-- The factor of the last step (R121). -/
def engineScale (c : Params) (dir : Direction) (s : Nat) : ZMod c.P :=
  match dir with
  | .forward => 1
  | .inverse => residue c (romNinv c s)

theorem residueAt_scaleInverse {c : Params} (dir : Direction) (s : Nat) {a : Series c} {k : Nat} (hk : k < a.length) :
    residueAt c (scaleInverse c dir s a) k = engineScale c dir s * residueAt c a k := by
  cases dir with
  | forward => exact (one_mul _).symm
  | inverse =>
    have hlen : k < (scaleInverse c .inverse s a).length := by rwa [scaleInverse, List.length_map]
    rw [residueAt, residueAt, coef_of_lt _ _ _ hlen, coef_of_lt _ _ _ hk]
    simp only [scaleInverse, List.getElem_map, residue_fmul, engineScale, mul_comm]

/-- What the engine computes, in the field. -/
theorem residueAt_nttEngine {c : Params} (dir : Direction) {s k : Nat} (a : Series c) (hs : s ≤ logMax c)
    (hk : k < 2 ^ s) : residueAt c (nttEngine c dir s a) k =
      engineScale c dir s * dft (residue c (passRoot c dir s)) s (residueAt c a) k := by
  have hlen : (passes c dir s s (bitReverse c s a)).length = 2 ^ s :=
    passes_length c dir s s _ (bitReverse_length c s a) le_rfl
  rw [nttEngine, residueAt_scaleInverse dir s (hk.trans_eq hlen.symm), residueAt_passes_bitReverse dir a hs hk]

theorem residue_powerSum {c : Params} {a : Series c} {s : Nat} (ha : a.length = 2 ^ s) (w : Elem c) (k : Nat) :
    residue c (powerSum c a w k) = dft (residue c w) s (residueAt c a) k := by
  rw [powerSum, residue_elem, ha, Nat.cast_sum]
  simp only [Nat.cast_mul, Nat.cast_pow]
  rfl

theorem residue_transformCoef {c : Params} {a : Series c} {s : Nat} (ha : a.length = 2 ^ s) (dir : Direction) (k : Nat) :
    residue c (transformCoef c a dir s k) =
      engineScale c dir s * dft (residue c (passRoot c dir s)) s (residueAt c a) k := by
  cases dir with
  | forward => rw [transformCoef, residue_powerSum ha, engineScale, passRoot, one_mul]
  | inverse => rw [transformCoef, residue_fmul, residue_powerSum ha, engineScale, passRoot]

/-- The in-place algorithm computes the defining sums (R123). -/
theorem coef_nttEngine {c : Params} (dir : Direction) {s k : Nat} {a : Series c} (ha : a.length = 2 ^ s)
    (hs : s ≤ logMax c) (hk : k < 2 ^ s) : coef c (nttEngine c dir s a) k = transformCoef c a dir s k :=
  residue_injective c ((residueAt_nttEngine dir a hs hk).trans (residue_transformCoef ha dir k).symm)

/-- Settles O36: the three cases of `ntt`, of which a length determines one, and the value of the engine in the last. -/
theorem transformComputesTheSums : Obligations.TransformComputesTheSums := by
  intro c a dir
  refine ⟨fun hne => ?_, fun s ha hlt => ?_, fun s ha hs => ?_⟩
  · rcases ntt_cases c a dir with ⟨_, h⟩ | ⟨s, ha, _⟩ | ⟨s, ha, _⟩
    · exact h
    · exact absurd ha (hne s)
    · exact absurd ha (hne s)
  · have hK : logMax c < s := (Nat.pow_lt_pow_iff_right one_lt_two).1 hlt
    rcases ntt_cases c a dir with ⟨hne, _⟩ | ⟨_, _, _, h⟩ | ⟨s', ha', hs', _⟩
    · exact absurd ⟨s, ha⟩ hne
    · exact h
    · have hsame : s = s' := Nat.pow_right_injective le_rfl (ha.symm.trans ha')
      omega
  · exact ⟨_, ntt_two_pow c a dir s ha hs, nttEngine_length c dir s a, fun k hk => coef_nttEngine dir ha hs hk⟩

/-! ## The round trip (R124) -/

/-- The other direction. -/
def opposite : Direction → Direction
  | .forward => .inverse
  | .inverse => .forward

theorem residue_passRoot_opposite {c : Params} (dir : Direction) {s : Nat} (hs : s ≤ logMax c) :
    residue c (passRoot c (opposite dir) s) = (residue c (passRoot c dir s))⁻¹ := by
  have := fact_prime c
  cases dir with
  | forward => exact residue_romIroot hs
  | inverse => rw [opposite, passRoot, passRoot, residue_romIroot hs, inv_inv]

/-- Of the two scalings one is by 1 and the other by the inverse of the length. -/
theorem engineScale_opposite_mul {c : Params} (dir : Direction) {s : Nat} (hs : s ≤ logMax c) :
    engineScale c (opposite dir) s * engineScale c dir s * 2 ^ s = 1 := by
  have hinv : residue c (romNinv c s) * 2 ^ s = 1 := by
    calc residue c (romNinv c s) * 2 ^ s
      _ = residue c (fmul c (elem c (2 ^ s)) (romNinv c s)) := by
          rw [residue_fmul, residue_elem, Nat.cast_pow, Nat.cast_ofNat, mul_comm]
      _ = 1 := by rw [romNinv, fmul_fpow_sub_two (elem_two_pow_ne_zero hs), residue_one]
  cases dir with
  | forward => rw [opposite, engineScale, engineScale, mul_one, hinv]
  | inverse => rw [opposite, engineScale, engineScale, one_mul, hinv]

theorem nttEngine_opposite {c : Params} (dir : Direction) {s : Nat} {a : Series c} (ha : a.length = 2 ^ s)
    (hs : s ≤ logMax c) : nttEngine c (opposite dir) s (nttEngine c dir s a) = a := by
  have := fact_prime c
  refine series_ext_residueAt ((nttEngine_length _ _ _ _).trans ha.symm) fun k hk => ?_
  rw [nttEngine_length] at hk
  calc residueAt c (nttEngine c (opposite dir) s (nttEngine c dir s a)) k
    _ = engineScale c (opposite dir) s *
        dft (residue c (passRoot c dir s))⁻¹ s (residueAt c (nttEngine c dir s a)) k := by
        rw [residueAt_nttEngine _ _ hs hk, residue_passRoot_opposite dir hs]
    _ = engineScale c (opposite dir) s * (engineScale c dir s *
        dft (residue c (passRoot c dir s))⁻¹ s (dft (residue c (passRoot c dir s)) s (residueAt c a)) k) := by
        rw [dft_congr _ (fun j hj => residueAt_nttEngine dir a hs hj), dft_const_mul]
    _ = engineScale c (opposite dir) s * engineScale c dir s * 2 ^ s * residueAt c a k := by
        rw [dft_inv_dft (passRoot_isPrimitiveRoot dir hs) _ hk]
        simp only [mul_assoc]
    _ = residueAt c a k := by rw [engineScale_opposite_mul dir hs, one_mul]

theorem ntt_opposite {c : Params} (dir : Direction) {s : Nat} {a : Series c} (ha : a.length = 2 ^ s)
    (hs : s ≤ logMax c) : ∃ r, ntt c a dir = .ok r ∧ ntt c r (opposite dir) = .ok a :=
  ⟨_, ntt_two_pow c a dir s ha hs, by
    rw [ntt_two_pow c _ _ s (nttEngine_length c dir s a) hs, nttEngine_opposite dir ha hs]⟩

/-- Settles O37: both orders are a transform followed by the opposite one. -/
theorem transformRoundTrip : Obligations.TransformRoundTrip := fun _ _ _ ha hs =>
  ⟨ntt_opposite .forward ha hs, ntt_opposite .inverse ha hs⟩

end Sys2Proof.Machine.Ntt
end

/-! # Proofs for spec/42_convolver.md (R141 to R146) -/

section

namespace Sys2Proof.Machine.Convolver

open Sys2Proof Sys2Proof.Machine Sys2Proof.Machine.Laws Sys2Proof.Machine.FieldAlu Sys2Proof.Machine.Ntt

/-! ## The convolution theorem (R145)

A transform evaluates a polynomial at the powers of a root, so the pointwise product of two transforms is the transform of
the product polynomial, as long as all three fit the length. -/

section Ring

open Polynomial

variable {R : Type*} [CommRing R]

theorem dft_coeff (w : R) {t : Nat} {p : R[X]} (hp : p.natDegree < 2 ^ t) (k : Nat) :
    dft w t p.coeff k = p.eval (w ^ k) := by
  rw [dft, eval_eq_sum_range' hp]
  exact Finset.sum_congr rfl fun j _ => by rw [mul_comm j k, pow_mul]

theorem dft_coeff_mul (w : R) {t : Nat} {p q : R[X]} (hp : p.natDegree < 2 ^ t) (hq : q.natDegree < 2 ^ t)
    (hpq : (p * q).natDegree < 2 ^ t) (k : Nat) :
    dft w t (p * q).coeff k = dft w t p.coeff k * dft w t q.coeff k := by
  rw [dft_coeff w hp, dft_coeff w hq, dft_coeff w hpq, eval_mul]

end Ring

/-! ## A series as a polynomial (R10, R13) -/

theorem residueAt_of_le {c : Params} {a : Series c} {i : Nat} (hi : a.length ≤ i) : residueAt c a i = 0 := by
  rw [residueAt, coef_of_le c a i hi, residue_elem, Nat.cast_zero]

/-- The polynomial `a(x)` of R141, over the field of residues. -/
noncomputable def polynomial (c : Params) (a : Series c) : Polynomial (ZMod c.P) :=
  ∑ i ∈ Finset.range a.length, Polynomial.monomial i (residueAt c a i)

theorem coeff_polynomial (c : Params) (a : Series c) : (polynomial c a).coeff = residueAt c a := by
  funext i
  rw [polynomial, Polynomial.finsetSum_coeff]
  simp only [Polynomial.coeff_monomial, Finset.sum_ite_eq', Finset.mem_range]
  split
  next _ => rfl
  next hi => exact (residueAt_of_le (Nat.not_lt.1 hi)).symm

theorem natDegree_polynomial_le (c : Params) (a : Series c) : (polynomial c a).natDegree ≤ a.length - 1 := by
  refine Polynomial.natDegree_le_iff_coeff_eq_zero.2 fun i hi => ?_
  rw [coeff_polynomial, residueAt_of_le (by omega)]

theorem natDegree_polynomial_mul_le (c : Params) (a b : Series c) :
    (polynomial c a * polynomial c b).natDegree ≤ (a.length - 1) + (b.length - 1) :=
  Polynomial.natDegree_mul_le_of_le (natDegree_polynomial_le c a) (natDegree_polynomial_le c b)

/-- The sum of R141 is a coefficient of the product polynomial. -/
theorem residue_productCoef (c : Params) (a b : Series c) (i : Nat) :
    residue c (productCoef c a b i) = (polynomial c a * polynomial c b).coeff i := by
  rw [productCoef, residue_elem, Nat.cast_sum, Polynomial.coeff_mul, coeff_polynomial, coeff_polynomial,
    Finset.Nat.sum_antidiagonal_eq_sum_range_succ fun j k => residueAt c a j * residueAt c b k]
  exact Finset.sum_congr rfl fun j _ => Nat.cast_mul _ _

/-! ## The product as a series -/

/-- The first `n` coefficients of the product. -/
def productSeries (c : Params) (a b : Series c) (n : Nat) : Series c := (List.range n).map (productCoef c a b)

@[simp] theorem productSeries_length (c : Params) (a b : Series c) (n : Nat) : (productSeries c a b n).length = n := by
  rw [productSeries, List.length_map, List.length_range]

theorem coef_productSeries {c : Params} {n i : Nat} (a b : Series c) (hi : i < n) :
    coef c (productSeries c a b n) i = productCoef c a b i := by
  rw [coef_of_lt _ _ _ (by rwa [productSeries_length])]
  simp only [productSeries, List.getElem_map, List.getElem_range]

theorem productSeries_take {c : Params} {m n : Nat} (a b : Series c) (h : m ≤ n) :
    (productSeries c a b n).take m = productSeries c a b m := by
  rw [productSeries, ← List.map_take, List.take_range, Nat.min_eq_left h, productSeries]

/-! ## The algorithm (R144) -/

theorem residueAt_nttEngine_resize {c : Params} (dir : Direction) {s k : Nat} (a : Series c) (hs : s ≤ logMax c)
    (hk : k < 2 ^ s) : residueAt c (nttEngine c dir s (resize c a (2 ^ s))) k =
      engineScale c dir s * dft (residue c (passRoot c dir s)) s (polynomial c a).coeff k := by
  rw [residueAt_nttEngine dir _ hs hk, coeff_polynomial]
  refine congrArg _ (dft_congr _ (fun j hj => ?_) k)
  rw [residueAt, coef_resize, if_pos hj, residueAt]

theorem residueAt_zipWith_fmul {c : Params} {a b : Series c} {k : Nat} (ha : k < a.length) (hb : k < b.length) :
    residueAt c (List.zipWith (fmul c) a b) k = residueAt c a k * residueAt c b k := by
  have hlen : k < (List.zipWith (fmul c) a b).length := by rw [List.length_zipWith]; exact lt_min ha hb
  rw [residueAt, coef_of_lt _ _ _ hlen, List.getElem_zipWith, residue_fmul, residueAt, residueAt, coef_of_lt _ _ _ ha,
    coef_of_lt _ _ _ hb]

/-- The pointwise product of the transforms is the transform of the product, which does not wrap around. -/
theorem zipWith_fmul_nttEngine {c : Params} {s : Nat} {a b : Series c} (hs : s ≤ logMax c) (ha : a.length ≠ 0)
    (hb : b.length ≠ 0) (hfit : a.length + b.length - 1 ≤ 2 ^ s) :
    List.zipWith (fmul c) (nttEngine c .forward s (resize c a (2 ^ s))) (nttEngine c .forward s (resize c b (2 ^ s))) =
      nttEngine c .forward s (productSeries c a b (2 ^ s)) := by
  have hdega := natDegree_polynomial_le c a
  have hdegb := natDegree_polynomial_le c b
  have hdeg := natDegree_polynomial_mul_le c a b
  refine series_ext_residueAt (by simp only [List.length_zipWith, nttEngine_length, min_self]) fun k hk => ?_
  rw [List.length_zipWith, nttEngine_length, nttEngine_length, min_self] at hk
  have hprod : ∀ j, j < 2 ^ s →
      residueAt c (productSeries c a b (2 ^ s)) j = (polynomial c a * polynomial c b).coeff j := fun j hj => by
    rw [residueAt, coef_productSeries a b hj, residue_productCoef]
  rw [residueAt_zipWith_fmul (by rwa [nttEngine_length]) (by rwa [nttEngine_length]),
    residueAt_nttEngine_resize _ a hs hk, residueAt_nttEngine_resize _ b hs hk, residueAt_nttEngine _ _ hs hk,
    dft_congr _ hprod, dft_coeff_mul _ (by omega) (by omega) (by omega), engineScale, one_mul, one_mul, one_mul]

/-- What a convolution that has a transform returns (R141): the inverse transform gives the product back. -/
theorem convolve_eq_productSeries {c : Params} {a b : Series c} (ha : a ≠ []) (hb : b ≠ [])
    (hcap : a.length + b.length - 1 ≤ cap c) (nmax : Nat) :
    convolve c a b nmax = .ok (productSeries c a b (min nmax (a.length + b.length - 1))) := by
  rcases convolve_cases c a b nmax with ⟨hempty, _⟩ | ⟨_, _, hgt, _⟩ | ⟨hla, hlb, _, s, r, hs, hsize, hr, _, hok⟩
  · exact absurd (hempty.imp List.length_eq_zero_iff.1 List.length_eq_zero_iff.1) (not_or.2 ⟨ha, hb⟩)
  · exact absurd hcap (Nat.not_le.2 hgt)
  · have hfit : a.length + b.length - 1 ≤ 2 ^ s := (le_nextPow2 _).trans_eq hsize
    have hprod : r = productSeries c a b (2 ^ s) := by
      rw [hr, zipWith_fmul_nttEngine hs hla hlb hfit]
      exact nttEngine_opposite .forward (productSeries_length c a b _) hs
    rw [hok, hprod, productSeries_take a b ((Nat.min_le_right _ _).trans hfit)]

theorem convolve_of_empty {c : Params} {a b : Series c} (h : a = [] ∨ b = []) (nmax : Nat) :
    convolve c a b nmax = .ok [] :=
  if_pos (h.imp List.length_eq_zero_iff.2 List.length_eq_zero_iff.2)

theorem convolve_of_too_long {c : Params} {a b : Series c} (ha : a ≠ []) (hb : b ≠ [])
    (h : cap c < a.length + b.length - 1) (nmax : Nat) : convolve c a b nmax = .error .unsupportedLength := by
  rcases convolve_cases c a b nmax with ⟨hempty, _⟩ | ⟨_, _, _, herr⟩ | ⟨_, _, hle, _⟩
  · exact absurd (hempty.imp List.length_eq_zero_iff.1 List.length_eq_zero_iff.1) (not_or.2 ⟨ha, hb⟩)
  · exact herr
  · exact absurd h (Nat.not_lt.2 hle)

/-- Settles O41: the three cases of `convolve`, the last by the convolution theorem and the round trip of the transform. -/
theorem convolutionIsTheProduct : Obligations.ConvolutionIsTheProduct := by
  intro c a b nmax
  refine ⟨fun h => convolve_of_empty h nmax, fun ha hb h => convolve_of_too_long ha hb h nmax, fun ha hb h => ?_⟩
  refine ⟨_, convolve_eq_productSeries ha hb h nmax, productSeries_length c a b _, fun i hi => ?_⟩
  rw [productSeries_length] at hi
  exact coef_productSeries a b hi

end Sys2Proof.Machine.Convolver
end

/-! # Proofs for spec/43_calculus.md (R151 to R157) -/

section

namespace Sys2Proof.Machine.Calculus

open Sys2Proof Sys2Proof.Machine Sys2Proof.Machine.Laws Sys2Proof.Machine.FieldAlu Sys2Proof.Machine.Ntt
  Sys2Proof.Machine.Convolver

/-! ## The coefficients of a derivative and of an integral -/

theorem derivative_of_length_le_one {c : Params} {a : Series c} (h : a.length ≤ 1) : derivative c a = [elem c 0] :=
  if_pos h

theorem coef_derivative {c : Params} {a : Series c} {i : Nat} (hi : i + 1 < a.length) :
    coef c (derivative c a) i = fmul c (elem c (i + 1)) (coef c a (i + 1)) := by
  have hlen : i < (derivative c a).length := by rw [derivative_length]; omega
  have hlong : ¬ a.length ≤ 1 := by omega
  rw [coef_of_lt _ _ _ hlen]
  simp only [derivative, if_neg hlong, List.getElem_map, List.getElem_range]

/-- R151 in the field, past the end of the series too, where both sides are 0. -/
theorem residueAt_derivative (c : Params) (a : Series c) (i : Nat) :
    residueAt c (derivative c a) i = ((i + 1 : Nat) : ZMod c.P) * residueAt c a (i + 1) := by
  rcases Nat.lt_or_ge (i + 1) a.length with hi | hi
  · rw [residueAt, coef_derivative hi, residue_fmul, residue_elem, residueAt]
  rw [residueAt_of_le hi, mul_zero]
  rcases Nat.eq_zero_or_pos i with rfl | hpos
  · rw [derivative_of_length_le_one hi, residueAt_cons_zero, residue_elem, Nat.cast_zero]
  · exact residueAt_of_le (by rw [derivative_length]; omega)

/-- R153 in the field: what an integral returns when the table covers its source (R154). -/
theorem integral_of_covered {c : Params} {a table : Series c} (h : a.length ≤ table.length) :
    ∃ r, integral c a table = .ok r ∧ r.length = a.length + 1 ∧ coef c r 0 = elem c 0 ∧
      ∀ i, i < a.length → residueAt c r (i + 1) = residueAt c a i * residueAt c table i := by
  obtain ⟨_, hok, hlen⟩ := (integral_cases c a table).resolve_left fun ⟨hshort, _⟩ => absurd h (Nat.not_le.2 hshort)
  refine ⟨_, hok, hlen, rfl, fun i hi => ?_⟩
  rw [residueAt_cons_succ, residueAt_zipWith_fmul hi (hi.trans_le h)]

/-! ## The laws (R157) -/

/-- An entry of a correct table cancels the factor that a derivative brings in. -/
theorem natCast_mul_residueAt_table {c : Params} {table : Series c} {L i : Nat} (hT : tableCorrect c table L)
    (hi : i < L) : ((i + 1 : Nat) : ZMod c.P) * residueAt c table i = 1 := by
  obtain ⟨_, hinv⟩ := hT
  have hentry : finv c (elem c (i + 1)) = .ok (coef c table i) := hinv (i + 1) (Nat.le_add_left 1 i) hi
  have hne : elem c (i + 1) ≠ elem c 0 := fun hzero => by
    rw [hzero, finv_zero] at hentry; cases hentry
  rw [finv_of_ne_zero hne, Except.ok.injEq] at hentry
  rw [residueAt, ← hentry, ← residue_elem, ← residue_fmul, fmul_fpow_sub_two hne, residue_one]

theorem derivative_integral {c : Params} {a table : Series c} (ha : 1 ≤ a.length) (hT : tableCorrect c table a.length) :
    ∃ r, integral c a table = .ok r ∧ derivative c r = a := by
  obtain ⟨r, hok, hlen, _, hcoef⟩ := integral_of_covered hT.1
  have hlenD : (derivative c r).length = a.length := by rw [derivative_length]; omega
  refine ⟨r, hok, series_ext_residueAt hlenD fun i hi => ?_⟩
  rw [hlenD] at hi
  rw [residueAt_derivative, hcoef i hi, mul_left_comm, natCast_mul_residueAt_table hT hi, mul_one]

theorem integral_derivative {c : Params} {a table : Series c} (ha : 2 ≤ a.length)
    (hT : tableCorrect c table (a.length - 1)) :
    ∃ r, integral c (derivative c a) table = .ok r ∧ r.length = a.length ∧ coef c r 0 = elem c 0 ∧
      ∀ i, 1 ≤ i → i < a.length → coef c r i = coef c a i := by
  have hlenD : (derivative c a).length = a.length - 1 := by rw [derivative_length]; omega
  obtain ⟨r, hok, hlen, hzero, hcoef⟩ := integral_of_covered (hlenD.trans_le hT.1)
  refine ⟨r, hok, by omega, hzero, fun i hpos hi => residue_injective c ?_⟩
  obtain ⟨j, rfl⟩ := Nat.exists_eq_add_of_le' hpos
  have hj : j < a.length - 1 := Nat.lt_sub_of_add_lt hi
  calc residueAt c r (j + 1)
    _ = ((j + 1 : Nat) : ZMod c.P) * residueAt c a (j + 1) * residueAt c table j := by
      rw [hcoef j (hlenD ▸ hj), residueAt_derivative]
    _ = residueAt c a (j + 1) := by rw [mul_right_comm, natCast_mul_residueAt_table hT hj, one_mul]

/-- A constant has the derivative `[0]`, and one more coefficient comes back than went in. -/
theorem integral_derivative_of_constant {c : Params} {a table : Series c} (ha : a.length = 1) (hT : 1 ≤ table.length) :
    integral c (derivative c a) table = .ok [elem c 0, elem c 0] := by
  rw [derivative_of_length_le_one ha.le]
  obtain ⟨r, hok, hlen, hzero, hcoef⟩ := integral_of_covered (c := c) (a := [elem c 0]) hT
  have hone : residueAt c r 1 = residue c (elem c 0) := by
    rw [hcoef 0 Nat.one_pos, residueAt_cons_zero, residue_elem, Nat.cast_zero, zero_mul]
  rw [hok]
  refine congrArg _ (series_ext c _ _ hlen fun i hi => ?_)
  have hi : i < 2 := hi.trans_eq hlen
  interval_cases i
  · exact hzero
  · exact residue_injective c hone

/-- Settles O45: coefficient by coefficient in the field, where `i + 1` and its table entry cancel. -/
theorem calculusLaws : Obligations.CalculusLaws := fun _ _ _ =>
  ⟨derivative_integral, integral_derivative, integral_derivative_of_constant⟩

end Sys2Proof.Machine.Calculus
end

/-! # Proofs for spec/44_series_inverter.md (R161 to R170) -/

section

namespace Sys2Proof.Machine.Inverter

open Sys2Proof Sys2Proof.Machine Sys2Proof.Machine.Laws Sys2Proof.Machine.FieldAlu Sys2Proof.Machine.Ntt
  Sys2Proof.Machine.Convolver

/-! ## The Newton loop (R169, R184), beside `newton_ok` -/

section Loop

variable {α : Type} {body body' : Nat → α → Except FailureKind α} {N : Nat}

/-- The loop asks its body for no precision above `N`. -/
theorem newton_congr (h : ∀ m x, m ≤ N → body m x = body' m x) (fuel m : Nat) (x : α) :
    newton body N fuel m x = newton body' N fuel m x := by
  induction fuel generalizing m x with
  | zero => rfl
  | succ fuel ih => simp only [newton, h _ _ (Nat.min_le_left N (2 * m)), ih]

/-- The loop fails only as a step of it does, from a precision and a value that its invariant allows. -/
theorem newton_error {I : Nat → α → Prop} {Q : FailureKind → Prop}
    (hok : ∀ m x y, 1 ≤ m → m < N → I m x → body (min N (2 * m)) x = .ok y → I (min N (2 * m)) y)
    (herr : ∀ m x k, 1 ≤ m → m < N → I m x → body (min N (2 * m)) x = .error k → Q k)
    {fuel m : Nat} {x : α} {k : FailureKind} (hm : 1 ≤ m) (hI : I m x) (h : newton body N fuel m x = .error k) : Q k := by
  induction fuel generalizing m x with
  | zero => cases h
  | succ fuel ih =>
    rw [newton] at h
    split at h
    next hlt =>
      rcases except_bind_eq_error h with hstep | ⟨y, hstep, hrest⟩
      · exact herr m x k hm hlt hI hstep
      · exact ih (by omega) (hok m x y hm hlt hI hstep) hrest
    next => cases h

end Loop

/-! ## Congruence modulo a power of `x` -/

section Ring

open Polynomial

variable {R : Type*} [CommRing R]

theorem X_pow_dvd_sub_iff {m : Nat} {p q : R[X]} : X ^ m ∣ p - q ↔ ∀ i, i < m → p.coeff i = q.coeff i := by
  simp only [X_pow_dvd_iff, coeff_sub, sub_eq_zero]

/-- Newton's method for the inverse (R169): the new error is the square of the old one, up to the truncations of the two
products. -/
theorem dvd_newton_error {d e a b ab b' : R} (hinv : d ∣ a * b - 1) (hsquare : e ∣ d * d) (hab : e ∣ ab - a * b)
    (hb' : e ∣ b' - b * (2 - ab)) : e ∣ a * b' - 1 := by
  have herror : a * b' - 1 = a * (b' - b * (2 - ab)) - a * b * (ab - a * b) - (a * b - 1) * (a * b - 1) := by ring
  rw [herror]
  exact dvd_sub (dvd_sub (hb'.mul_left _) (hab.mul_left _)) (hsquare.trans (mul_dvd_mul hinv hinv))

end Ring

theorem X_pow_dvd_polynomial_resize (c : Params) (a : Series c) (m : Nat) :
    Polynomial.X ^ m ∣ polynomial c (resize c a m) - polynomial c a := by
  refine X_pow_dvd_sub_iff.2 fun i hi => ?_
  rw [coeff_polynomial, coeff_polynomial, residueAt, coef_resize, if_pos hi, residueAt]

theorem X_pow_dvd_polynomial_productSeries (c : Params) (a b : Series c) (n : Nat) :
    Polynomial.X ^ n ∣ polynomial c (productSeries c a b n) - polynomial c a * polynomial c b := by
  refine X_pow_dvd_sub_iff.2 fun i hi => ?_
  rw [coeff_polynomial, residueAt, coef_productSeries a b hi, residue_productCoef]

/-! ## One step (R165) -/

@[simp] theorem newtonCorrection_length (c : Params) (ab : Series c) : (newtonCorrection c ab).length = ab.length := by
  cases ab with
  | nil => rfl
  | cons x xs => rw [newtonCorrection, List.length_cons, List.length_map, List.length_cons]

theorem residueAt_map_fsub_zero (c : Params) (a : Series c) (i : Nat) :
    residueAt c (a.map (fsub c (elem c 0))) i = -residueAt c a i := by
  have hzero : fsub c (elem c 0) (elem c 0) = elem c 0 := residue_injective c (by simp)
  have hcoef : coef c (a.map (fsub c (elem c 0))) i = fsub c (elem c 0) (coef c a i) := by
    have hmap := List.getD_map (l := a) (d := elem c 0) (n := i) (fsub c (elem c 0))
    rwa [hzero] at hmap
  rw [residueAt, hcoef, residue_fsub, residue_elem, Nat.cast_zero, zero_sub, residueAt]

/-- `s = 2 * e0 - ab`; an empty `ab`, which no step meets, has no coefficient to put the 2 in. -/
theorem polynomial_newtonCorrection {c : Params} {ab : Series c} (hab : ab ≠ []) :
    polynomial c (newtonCorrection c ab) = 2 - polynomial c ab := by
  obtain ⟨x, xs, rfl⟩ := List.exists_cons_of_ne_nil hab
  ext i
  rw [Polynomial.coeff_sub, coeff_polynomial, coeff_polynomial, newtonCorrection]
  cases i with
  | zero =>
    rw [residueAt_cons_zero, residueAt_cons_zero, residue_fsub, residue_elem, Polynomial.coeff_ofNat_zero, Nat.cast_ofNat]
  | succ i =>
    rw [residueAt_cons_succ, residueAt_cons_succ, residueAt_map_fsub_zero, Polynomial.coeff_ofNat_succ, zero_sub]

/-- What a step to precision `m` returns where its products have a transform. -/
def newtonUpdate (c : Params) (a : Series c) (m : Nat) (b : Series c) : Series c :=
  productSeries c b (newtonCorrection c (productSeries c (resize c a m) b m)) m

@[simp] theorem newtonUpdate_length (c : Params) (a : Series c) (m : Nat) (b : Series c) :
    (newtonUpdate c a m b).length = m := productSeries_length ..

/-- A convolution that has a transform and that `nmax` cuts. -/
theorem convolve_eq_productSeries_of_le {c : Params} {a b : Series c} {nmax : Nat} (ha : 1 ≤ a.length)
    (hb : 1 ≤ b.length) (hcap : a.length + b.length - 1 ≤ cap c) (hle : nmax ≤ a.length + b.length - 1) :
    convolve c a b nmax = .ok (productSeries c a b nmax) := by
  rw [convolve_eq_productSeries (List.ne_nil_of_length_pos ha) (List.ne_nil_of_length_pos hb) hcap, min_eq_left hle]

/-- Both products of a step have the lengths `m` and `len(b)` (R167). -/
theorem inverseStep_of_fits {c : Params} {m : Nat} {b : Series c} (a : Series c) (hm : 1 ≤ m) (hb : 1 ≤ b.length)
    (hfit : m + b.length - 1 ≤ cap c) : inverseStep c a m b = .ok (newtonUpdate c a m b) := by
  have hab : convolve c (resize c a m) b m = .ok (productSeries c (resize c a m) b m) := by
    have hlen := resize_length c a m
    exact convolve_eq_productSeries_of_le (by omega) hb (by omega) (by omega)
  rw [inverseStep, hab]
  have hlen : (newtonCorrection c (productSeries c (resize c a m) b m)).length = m := by
    rw [newtonCorrection_length, productSeries_length]
  exact convolve_eq_productSeries_of_le hb (by omega) (by omega) (by omega)

theorem inverseStep_of_too_long {c : Params} {m : Nat} {b : Series c} (a : Series c) (hm : 1 ≤ m) (hb : 1 ≤ b.length)
    (hlong : cap c < m + b.length - 1) : inverseStep c a m b = .error .unsupportedLength := by
  have hlen := resize_length c a m
  have hab : convolve c (resize c a m) b m = .error .unsupportedLength :=
    convolve_of_too_long (List.ne_nil_of_length_pos (by omega)) (List.ne_nil_of_length_pos hb) (by omega) m
  rw [inverseStep, hab]
  rfl

/-- Everything a step can do. -/
theorem inverseStep_cases {c : Params} {m : Nat} {b : Series c} (a : Series c) (hm : 1 ≤ m) (hb : 1 ≤ b.length) :
    (m + b.length - 1 ≤ cap c ∧ inverseStep c a m b = .ok (newtonUpdate c a m b)) ∨
    (cap c < m + b.length - 1 ∧ inverseStep c a m b = .error .unsupportedLength) :=
  (le_or_gt (m + b.length - 1) (cap c)).imp (fun hfit => ⟨hfit, inverseStep_of_fits a hm hb hfit⟩)
    fun hlong => ⟨hlong, inverseStep_of_too_long a hm hb hlong⟩

theorem inverseStep_eq_ok {c : Params} {a b b' : Series c} {m : Nat} (hm : 1 ≤ m) (hb : 1 ≤ b.length)
    (h : inverseStep c a m b = .ok b') : m + b.length - 1 ≤ cap c ∧ b' = newtonUpdate c a m b := by
  rcases inverseStep_cases a hm hb with ⟨hfit, hok⟩ | ⟨_, herr⟩
  · exact ⟨hfit, Except.ok.inj (h.symm.trans hok)⟩
  · rw [herr] at h; cases h

theorem inverseStep_eq_error {c : Params} {a b : Series c} {m : Nat} {k : FailureKind} (hm : 1 ≤ m)
    (hb : 1 ≤ b.length) (h : inverseStep c a m b = .error k) : cap c < m + b.length - 1 ∧ k = .unsupportedLength := by
  rcases inverseStep_cases a hm hb with ⟨_, hok⟩ | ⟨hlong, herr⟩
  · rw [hok] at h; cases h
  · exact ⟨hlong, Except.error.inj (h.symm.trans herr)⟩

/-- A step to precision `m` sees only the first `m` coefficients of the source. -/
theorem inverseStep_resize {c : Params} {m N : Nat} (hm : m ≤ N) (a b : Series c) :
    inverseStep c (resize c a N) m b = inverseStep c a m b := by
  have hresize : resize c (resize c a N) m = resize c a m := by
    refine series_ext c _ _ (by simp only [resize_length]) fun i hi => ?_
    rw [resize_length] at hi
    rw [coef_resize, coef_resize, coef_resize, if_pos (hi.trans_le hm)]
  rw [inverseStep, inverseStep, hresize]

/-! ## The invariant of the loop (R169) -/

/-- `b` is the inverse of `a` at precision `m`. -/
def InverseMod (c : Params) (a : Series c) (m : Nat) (b : Series c) : Prop :=
  b.length = m ∧ Polynomial.X ^ m ∣ polynomial c a * polynomial c b - 1

theorem inverseMod_iff {c : Params} {a b : Series c} {m : Nat} : InverseMod c a m b ↔
    b.length = m ∧ ∀ k, k < m → productCoef c a b k = if k = 0 then elem c 1 else elem c 0 := by
  refine and_congr_right fun _ => X_pow_dvd_sub_iff.trans (forall₂_congr fun k _ => ?_)
  have hone : (1 : Polynomial (ZMod c.P)).coeff k = residue c (if k = 0 then elem c 1 else elem c 0) := by
    rw [Polynomial.coeff_one, apply_ite (residue c), residue_elem, residue_elem, Nat.cast_one, Nat.cast_zero]
  rw [← residue_productCoef, hone, (residue_injective c).eq_iff]

theorem productCoef_zero (c : Params) (a b : Series c) : productCoef c a b 0 = fmul c (coef c a 0) (coef c b 0) := by
  rw [productCoef, Finset.sum_range_one, Nat.sub_zero, fmul]

/-- The start is the inverse modulo `x` (R164). -/
theorem inverseMod_start {c : Params} {a : Series c} (ha : coef c a 0 ≠ elem c 0) :
    InverseMod c a 1 [fpow c (coef c a 0) (c.P - 2)] := by
  refine inverseMod_iff.2 ⟨rfl, fun k hk => ?_⟩
  obtain rfl : k = 0 := Nat.lt_one_iff.1 hk
  rw [if_pos rfl, productCoef_zero]
  exact fmul_fpow_sub_two ha

/-- A step at most doubles the precision and keeps the invariant. -/
theorem inverseMod_newtonUpdate {c : Params} {a b : Series c} {m m' : Nat} (h : InverseMod c a m b) (hm' : 1 ≤ m')
    (hle : m' ≤ 2 * m) : InverseMod c a m' (newtonUpdate c a m' b) := by
  obtain ⟨_, hinv⟩ := h
  have hab : Polynomial.X ^ m' ∣
      polynomial c (productSeries c (resize c a m') b m') - polynomial c a * polynomial c b := by
    have hcut := (X_pow_dvd_polynomial_resize c a m').mul_right (polynomial c b)
    rw [sub_mul] at hcut
    rw [← sub_add_sub_cancel _ (polynomial c (resize c a m') * polynomial c b)]
    exact dvd_add (X_pow_dvd_polynomial_productSeries c _ b m') hcut
  refine ⟨newtonUpdate_length .., dvd_newton_error hinv ?_ hab ?_⟩
  · rw [← pow_add, ← two_mul]
    exact pow_dvd_pow _ hle
  · rw [← polynomial_newtonCorrection (List.ne_nil_of_length_pos (by rwa [productSeries_length]))]
    exact X_pow_dvd_polynomial_productSeries ..

/-! ## The inverter (R161 to R163) -/

theorem seriesInverse_zero (c : Params) (a : Series c) : seriesInverse c a 0 = .error .badLength := if_pos rfl

theorem seriesInverse_of_singular {c : Params} {a : Series c} {N : Nat} (hN : N ≠ 0) (ha : coef c a 0 = elem c 0) :
    seriesInverse c a N = .error .singularInversion := by
  rw [seriesInverse, if_neg hN, if_pos ha]

theorem seriesInverse_eq_newton {c : Params} {a : Series c} {N : Nat} (hN : N ≠ 0) (ha : coef c a 0 ≠ elem c 0) :
    seriesInverse c a N = newton (inverseStep c a) N (newtonSteps N) 1 [fpow c (coef c a 0) (c.P - 2)] := by
  rw [seriesInverse, if_neg hN, if_neg ha, finv_of_ne_zero ha]
  rfl

theorem seriesInverse_eq_ok {c : Params} {a b : Series c} {N : Nat} (h : seriesInverse c a N = .ok b) :
    N ≠ 0 ∧ coef c a 0 ≠ elem c 0 := by
  refine ⟨fun hN => ?_, fun ha => ?_⟩
  · rw [hN, seriesInverse_zero] at h; cases h
  · by_cases hN : N = 0
    · rw [hN, seriesInverse_zero] at h; cases h
    · rw [seriesInverse_of_singular hN ha] at h; cases h

/-- The rule of the inverter's loop: `newton_ok` from the start of R164. -/
theorem seriesInverse_ok {c : Params} {a b : Series c} {N : Nat} {I : Nat → Series c → Prop}
    (hstart : I 1 [fpow c (coef c a 0) (c.P - 2)])
    (hstep : ∀ m x y, 1 ≤ m → m < N → I m x → inverseStep c a (min N (2 * m)) x = .ok y → I (min N (2 * m)) y)
    (h : seriesInverse c a N = .ok b) : I N b := by
  obtain ⟨hN, ha⟩ := seriesInverse_eq_ok h
  rw [seriesInverse_eq_newton hN ha] at h
  exact newton_ok hstep _ 1 _ b le_rfl (Nat.one_le_iff_ne_zero.2 hN) (newtonSteps_enough N) hstart h

theorem inverseMod_of_seriesInverse {c : Params} {a b : Series c} {N : Nat} (h : seriesInverse c a N = .ok b) :
    InverseMod c a N b := by
  obtain ⟨_, ha⟩ := seriesInverse_eq_ok h
  refine seriesInverse_ok (inverseMod_start ha) (fun m x y hm hlt hinv hy => ?_) h
  have ⟨hlen, _⟩ := hinv
  obtain ⟨_, rfl⟩ := inverseStep_eq_ok (by omega) (hm.trans_eq hlen.symm) hy
  exact inverseMod_newtonUpdate hinv (by omega) (Nat.min_le_right _ _)

/-- Only the first `N` coefficients of the source matter. -/
theorem seriesInverse_resize (c : Params) (a : Series c) (N : Nat) :
    seriesInverse c (resize c a N) N = seriesInverse c a N := by
  rcases Nat.eq_zero_or_pos N with rfl | hpos
  · rw [seriesInverse_zero, seriesInverse_zero]
  · have hcoef : coef c (resize c a N) 0 = coef c a 0 := by rw [coef_resize, if_pos hpos]
    by_cases ha : coef c a 0 = elem c 0
    · rw [seriesInverse_of_singular hpos.ne' ha, seriesInverse_of_singular hpos.ne' (hcoef.trans ha)]
    · rw [seriesInverse_eq_newton hpos.ne' ha, seriesInverse_eq_newton hpos.ne' (hcoef ▸ ha), hcoef]
      exact newton_congr (fun m x hm => inverseStep_resize hm a x) _ _ _

/-- Settles O47: the invariant of the loop at precision `N`, and what a step sees of its source. -/
theorem seriesInverseInverts : Obligations.SeriesInverseInverts := fun c a N =>
  ⟨fun _ h => inverseMod_iff.1 (inverseMod_of_seriesInverse h), seriesInverse_resize c a N⟩

/-! ## When it fails (R162, R163, R167) -/

theorem cap_eq_two_mul {c : Params} (hK : 1 ≤ logMax c) : cap c = 2 * 2 ^ (logMax c - 1) := by
  rw [cap, ← pow_succ', Nat.sub_add_cancel hK]

/-- A failure past the two checks comes from a step whose products have no transform. -/
theorem seriesInverse_error {c : Params} {a : Series c} {N : Nat} {k : FailureKind} (hN : N ≠ 0)
    (ha : coef c a 0 ≠ elem c 0) (h : seriesInverse c a N = .error k) :
    k = .unsupportedLength ∧ ∃ m, 1 ≤ m ∧ m < N ∧ cap c < min N (2 * m) + m - 1 := by
  rw [seriesInverse_eq_newton hN ha] at h
  refine newton_error (I := fun m b => b.length = m)
    (Q := fun k => k = .unsupportedLength ∧ ∃ m, 1 ≤ m ∧ m < N ∧ cap c < min N (2 * m) + m - 1)
    (fun m x y hm hlt hx hy => ?_) (fun m x k hm hlt hx hk => ?_) le_rfl rfl h
  · obtain ⟨_, rfl⟩ := inverseStep_eq_ok (by omega) (hm.trans_eq hx.symm) hy
    exact newtonUpdate_length ..
  · obtain ⟨hlong, hkind⟩ := inverseStep_eq_error (by omega) (hm.trans_eq hx.symm) hk
    exact ⟨hkind, m, hm, hlt, hx ▸ hlong⟩

theorem exists_seriesInverse_of_le {c : Params} {a : Series c} {N : Nat} (hK : 1 ≤ logMax c) (hN : N ≠ 0)
    (ha : coef c a 0 ≠ elem c 0) (hle : N ≤ 2 ^ (logMax c - 1) + 1) : ∃ b, seriesInverse c a N = .ok b := by
  cases h : seriesInverse c a N with
  | ok b => exact ⟨b, rfl⟩
  | error k =>
    obtain ⟨_, m, _, hlt, hlong⟩ := seriesInverse_error hN ha h
    rw [cap_eq_two_mul hK] at hlong
    omega

/-- A step from a power of two to a precision above `2^(K-1) + 1` has products without a transform. -/
theorem two_mul_le_of_fits {K j m N : Nat} (hm : m = 2 ^ j) (hgt : 2 ^ K + 1 < N)
    (hfit : min N (2 * m) + m - 1 ≤ 2 * 2 ^ K) : 2 * m ≤ 2 ^ K + 1 := by
  by_contra hlong
  have hlt : 2 ^ j < 2 ^ K := by omega
  have hle : 2 ^ (j + 1) ≤ 2 ^ K := Nat.pow_le_pow_right two_pos ((Nat.pow_lt_pow_iff_right one_lt_two).1 hlt)
  rw [pow_succ'] at hle
  omega

/-- Above `2^(K-1) + 1` the loop has to fail: as long as it succeeds it stays on the powers of two up to there. -/
theorem le_of_seriesInverse {c : Params} {a b : Series c} {N : Nat} (hK : 1 ≤ logMax c)
    (h : seriesInverse c a N = .ok b) : N ≤ 2 ^ (logMax c - 1) + 1 := by
  by_contra hgt
  obtain ⟨_, hle, _⟩ : b.length = N ∧ N ≤ 2 ^ (logMax c - 1) + 1 ∧ ∃ j, N = 2 ^ j := by
    refine seriesInverse_ok (I := fun m x => x.length = m ∧ m ≤ 2 ^ (logMax c - 1) + 1 ∧ ∃ j, m = 2 ^ j)
      ⟨rfl, Nat.le_add_left 1 _, 0, rfl⟩ (fun m x y hm _ ⟨hx, _, j, hmj⟩ hy => ?_) h
    obtain ⟨hfit, rfl⟩ := inverseStep_eq_ok (by omega) (hm.trans_eq hx.symm) hy
    rw [cap_eq_two_mul hK, hx] at hfit
    have hle := two_mul_le_of_fits hmj (Nat.not_le.1 hgt) hfit
    have hdouble : min N (2 * m) = 2 * m := by omega
    exact ⟨newtonUpdate_length .., hdouble.trans_le hle, j + 1, by rw [hdouble, hmj, pow_succ']⟩
  exact hgt hle

theorem seriesInverse_of_gt {c : Params} {a : Series c} {N : Nat} (hK : 1 ≤ logMax c) (ha : coef c a 0 ≠ elem c 0)
    (hgt : 2 ^ (logMax c - 1) + 1 < N) : seriesInverse c a N = .error .unsupportedLength := by
  cases h : seriesInverse c a N with
  | ok b => exact absurd (le_of_seriesInverse hK h) (Nat.not_le.2 hgt)
  | error k => rw [(seriesInverse_error (Nat.ne_zero_of_lt hgt) ha h).1]

/-- Settles O48: the two checks in their order, then the closed condition for the lengths of the products. -/
theorem seriesInverseFailures : Obligations.SeriesInverseFailures := fun c a _ =>
  ⟨fun hN => hN ▸ seriesInverse_zero c a, seriesInverse_of_singular, seriesInverse_of_gt, exists_seriesInverse_of_le⟩

/-! ## The inversion identity and the recurrence (R170) -/

theorem convolve_seriesInverse {c : Params} {a b : Series c} {N : Nat} (h : seriesInverse c a N = .ok b)
    (hcap : a.length + N - 1 ≤ cap c) : convolve c a b N = .ok (resize c [elem c 1] N) := by
  obtain ⟨hN, ha⟩ := seriesInverse_eq_ok h
  obtain ⟨hlen, hprod⟩ := inverseMod_iff.1 (inverseMod_of_seriesInverse h)
  have hpos : 1 ≤ a.length := Nat.one_le_iff_ne_zero.2 fun hzero => ha (coef_of_le c a 0 hzero.le)
  rw [convolve_eq_productSeries_of_le hpos (by omega) (by omega) (by omega)]
  refine congrArg _ (series_ext c _ _ (by rw [productSeries_length, resize_length]) fun i hi => ?_)
  rw [productSeries_length] at hi
  rw [coef_productSeries a b hi, hprod i hi, coef_resize, if_pos hi]
  cases i <;> rfl

/-- The constant term of the product determines the constant term of the inverse. -/
theorem finv_coef_zero {c : Params} {a b : Series c} (ha : coef c a 0 ≠ elem c 0)
    (hone : productCoef c a b 0 = elem c 1) : finv c (coef c a 0) = .ok (coef c b 0) := by
  rw [productCoef_zero] at hone
  rw [finv_of_ne_zero ha, fmul_left_cancel ha ((fmul_fpow_sub_two ha).trans hone.symm)]

/-- The sum of the recurrence is the coefficient of the product without its first term. -/
theorem residue_productCoef_eq_add (c : Params) (a b : Series c) (k : Nat) :
    residue c (productCoef c a b k) = residueAt c a 0 * residueAt c b k +
      residue c (elem c (∑ j ∈ Finset.Icc 1 k, (coef c a j).val * (coef c b (k - j)).val)) := by
  rw [productCoef, Finset.range_eq_Ico, Finset.sum_eq_sum_Ico_succ_bot k.succ_pos, Nat.succ_eq_add_one,
    Finset.Ico_add_one_right_eq_Icc, residue_elem, residue_elem, Nat.cast_add, Nat.cast_mul]
  rfl

theorem coef_eq_of_productCoef_eq_zero {c : Params} {a b : Series c} {k : Nat} (hone : productCoef c a b 0 = elem c 1)
    (hzero : productCoef c a b k = elem c 0) : coef c b k = fmul c (fsub c (elem c 0) (coef c b 0))
      (elem c (∑ j ∈ Finset.Icc 1 k, (coef c a j).val * (coef c b (k - j)).val)) := by
  have hunit : residueAt c a 0 * residueAt c b 0 = 1 := by
    rw [← residue_one c, ← hone, productCoef_zero, residue_fmul, residueAt, residueAt]
  have hsum := residue_productCoef_eq_add c a b k
  rw [hzero, residue_elem, Nat.cast_zero] at hsum
  refine residue_injective c ?_
  rw [residue_fmul, residue_fsub, residue_elem c 0, Nat.cast_zero, ← residueAt, ← residueAt]
  linear_combination -residueAt c b k * hunit - residueAt c b 0 * hsum

/-- Settles O49: the identity through `convolve`, and the coefficients of `a(x) * b(x)` solved for those of `b`. -/
theorem seriesInverseRecurrence : Obligations.SeriesInverseRecurrence := by
  intro c a b N h
  obtain ⟨hN, ha⟩ := seriesInverse_eq_ok h
  obtain ⟨_, hprod⟩ := inverseMod_iff.1 (inverseMod_of_seriesInverse h)
  have hone : productCoef c a b 0 = elem c 1 := hprod 0 (Nat.pos_of_ne_zero hN)
  refine ⟨convolve_seriesInverse h, finv_coef_zero ha hone, fun k hk hlt => coef_eq_of_productCoef_eq_zero hone ?_⟩
  rw [hprod k hlt, if_neg (Nat.ne_of_gt hk)]

end Sys2Proof.Machine.Inverter
end

/-! # Proofs for spec/45_series_log_exp.md (R174 to R187) -/

section

namespace Sys2Proof.Machine.LogExp

open Sys2Proof Sys2Proof.Machine Sys2Proof.Machine.Laws Sys2Proof.Machine.FieldAlu Sys2Proof.Machine.Ntt
  Sys2Proof.Machine.Convolver Sys2Proof.Machine.Calculus Sys2Proof.Machine.Inverter

/-! ## Logarithm and exponential as one differential equation

`q = log p` and `p = exp q` both say `p' = p * q'` with `p(0) = 1` and `q(0) = 0`. At precision `m` the equation holds
modulo `x^(m - 1)`, and each of `p` and `q` determines the other modulo `x^m` while the integers below `m` are units. -/

section Equation

open Polynomial

variable {R : Type*} [CommRing R] {m n : Nat} {p q r s : R[X]}

/-- `q` is the logarithm of `p`, and `p` the exponential of `q`, at precision `m`. -/
def LogMod (m : Nat) (p q : R[X]) : Prop :=
  p.coeff 0 = 1 ∧ q.coeff 0 = 0 ∧ X ^ (m - 1) ∣ p.derivative - p * q.derivative

theorem logMod_one (hp : p.coeff 0 = 1) (hq : q.coeff 0 = 0) : LogMod 1 p q :=
  ⟨hp, hq, (pow_zero (X : R[X])).dvd.trans (one_dvd _)⟩

theorem LogMod.mono (h : LogMod n p q) (hmn : m ≤ n) : LogMod m p q := by
  obtain ⟨hp, hq, hpq⟩ := h
  exact ⟨hp, hq, (pow_dvd_pow X (Nat.sub_le_sub_right hmn 1)).trans hpq⟩

/-- A derivative loses one power of `x`. -/
theorem X_pow_dvd_derivative_sub (h : X ^ m ∣ p - q) : X ^ (m - 1) ∣ p.derivative - q.derivative := by
  rw [← derivative_sub]
  exact pow_sub_one_dvd_derivative_of_pow_dvd h

theorem LogMod.congr_left (h : LogMod m p q) (hm : 1 ≤ m) (hr : X ^ m ∣ r - p) : LogMod m r q := by
  obtain ⟨hp, hq, hpq⟩ := h
  refine ⟨(X_pow_dvd_sub_iff.1 hr 0 hm).trans hp, hq, ?_⟩
  have hsplit : r.derivative - r * q.derivative = (r.derivative - p.derivative) +
      (p.derivative - p * q.derivative) - (r - p) * q.derivative := by ring
  rw [hsplit]
  exact dvd_sub (dvd_add (X_pow_dvd_derivative_sub hr) hpq)
    (((pow_dvd_pow X (Nat.sub_le m 1)).trans hr).mul_right _)

/-- The integral of `p' / p` is a logarithm (R174); `s` is the inverse of `p`. -/
theorem logMod_of_inverse (hp : p.coeff 0 = 1) (hq : q.coeff 0 = 0) (hinv : X ^ m ∣ p * s - 1)
    (hderiv : X ^ (m - 1) ∣ q.derivative - p.derivative * s) : LogMod m p q := by
  refine ⟨hp, hq, ?_⟩
  have hsplit : p.derivative - p * q.derivative =
      -(p * (q.derivative - p.derivative * s)) - p.derivative * (p * s - 1) := by ring
  rw [hsplit]
  exact dvd_sub (hderiv.mul_left p).neg_right (((pow_dvd_pow X (Nat.sub_le m 1)).trans hinv).mul_left _)

variable [IsDomain R]

/-- A polynomial without constant term is known from its derivative. -/
theorem X_pow_dvd_of_derivative (hunit : ∀ k, 1 ≤ k → k < m → (k : R) ≠ 0) (hzero : p.coeff 0 = 0)
    (h : X ^ (m - 1) ∣ p.derivative) : X ^ m ∣ p := by
  refine X_pow_dvd_iff.2 fun i hi => ?_
  cases i with
  | zero => exact hzero
  | succ i =>
    have hcoeff : p.coeff (i + 1) * ((i : R) + 1) = 0 :=
      (coeff_derivative p i).symm.trans (X_pow_dvd_iff.1 h i (Nat.lt_sub_of_add_lt hi))
    refine (mul_eq_zero.1 hcoeff).resolve_right fun hi0 => hunit (i + 1) (Nat.le_add_left 1 i) hi ?_
    rw [Nat.cast_succ, hi0]

/-- The logarithm is unique: `p`, whose constant term is 1, can be cancelled in `p * q' = p * r'`. -/
theorem LogMod.unique_right (hunit : ∀ k, 1 ≤ k → k < m → (k : R) ≠ 0) (hq : LogMod m p q) (hr : LogMod m p r) :
    X ^ m ∣ q - r := by
  obtain ⟨hp, hq0, hpq⟩ := hq
  obtain ⟨_, hr0, hpr⟩ := hr
  refine X_pow_dvd_of_derivative hunit (by rw [coeff_sub, hq0, hr0, sub_zero]) ?_
  have hX : ¬ X ∣ p := fun hdvd => one_ne_zero (hp.symm.trans (X_dvd_iff.1 hdvd))
  refine prime_X.pow_dvd_of_dvd_mul_left _ hX ?_
  have hsplit : p * (q - r).derivative =
      (p.derivative - p * r.derivative) - (p.derivative - p * q.derivative) := by
    rw [derivative_sub]; ring
  rw [hsplit]
  exact dvd_sub hpr hpq

/-- The exponential is unique: the difference `d` of two of them has `d' = d * q'`, so each coefficient of `d` that vanishes
makes the next one vanish. -/
theorem LogMod.unique_left (hunit : ∀ k, 1 ≤ k → k < m → (k : R) ≠ 0) (hp : LogMod m p q) (hr : LogMod m r q) :
    X ^ m ∣ p - r := by
  obtain ⟨hp0, _, hpq⟩ := hp
  obtain ⟨hr0, _, hrq⟩ := hr
  have hzero : (p - r).coeff 0 = 0 := by rw [coeff_sub, hp0, hr0, sub_self]
  have hderiv : (p - r).derivative =
      (p.derivative - p * q.derivative) - (r.derivative - r * q.derivative) + (p - r) * q.derivative := by
    rw [derivative_sub]; ring
  have hvanish : ∀ k, k ≤ m → X ^ k ∣ p - r := fun k => by
    induction k with
    | zero => exact fun _ => (pow_zero (X : R[X])).dvd.trans (one_dvd _)
    | succ k ih =>
      intro hk
      refine X_pow_dvd_of_derivative (fun j hj hlt => hunit j hj (hlt.trans_le hk)) hzero ?_
      rw [hderiv]
      exact dvd_add ((pow_dvd_pow X (Nat.le_sub_one_of_lt hk)).trans (dvd_sub hpq hrq))
        ((ih (Nat.le_of_succ_le hk)).mul_right _)
  exact hvanish m le_rfl

/-- Newton's method for the exponential (R182, R183): with `e = q - s`, where `s` is the logarithm of `p` at the new
precision, `p * (1 + e)` solves the equation up to `e * e'`, and `e` vanishes to the old precision. -/
theorem LogMod.newton (hunit : ∀ k, 1 ≤ k → k < m → (k : R) ≠ 0) (hm : 1 ≤ m) (hmn : m ≤ n) (hnm : n ≤ 2 * m)
    (hq : LogMod m p q) (hs : LogMod n p s) (hr : X ^ n ∣ r - p * (1 + (q - s))) : LogMod n r q := by
  have herror : X ^ m ∣ q - s := hq.unique_right hunit (hs.mono hmn)
  obtain ⟨hp0, hq0, _⟩ := hq
  obtain ⟨_, hs0, hps⟩ := hs
  refine LogMod.congr_left ⟨?_, hq0, ?_⟩ (hm.trans hmn) hr
  · simp only [mul_coeff_zero, coeff_add, coeff_sub, coeff_one_zero, hp0, hq0, hs0]
    ring
  · have hsplit : (p * (1 + (q - s))).derivative - p * (1 + (q - s)) * q.derivative =
        (1 + (q - s)) * (p.derivative - p * s.derivative) -
          p * ((q - s) * (q.derivative - s.derivative)) := by
      simp only [derivative_mul, derivative_add, derivative_sub, derivative_one]; ring
    have hsquare : X ^ (n - 1) ∣ (q - s) * (q.derivative - s.derivative) := by
      refine (pow_dvd_pow X ?_).trans
        ((pow_add X m (m - 1)).dvd.trans (mul_dvd_mul herror (X_pow_dvd_derivative_sub herror)))
      omega
    rw [hsplit]
    exact dvd_sub (hps.mul_left _) (hsquare.mul_left _)

end Equation

/-! ## Series as polynomials -/

theorem polynomial_derivative (c : Params) (a : Series c) :
    polynomial c (derivative c a) = (polynomial c a).derivative := by
  ext i
  rw [Polynomial.coeff_derivative, coeff_polynomial, coeff_polynomial, residueAt_derivative, Nat.cast_succ, mul_comm]

theorem coeff_polynomial_zero {c : Params} {a : Series c} {n : Nat} (ha : coef c a 0 = elem c n) :
    (polynomial c a).coeff 0 = n := by
  rw [coeff_polynomial, residueAt, ha, residue_elem]

theorem coef_zero_of_coeff {c : Params} {a : Series c} {n : Nat} (ha : (polynomial c a).coeff 0 = n) :
    coef c a 0 = elem c n :=
  residue_injective c (by rw [residue_elem, ← ha, coeff_polynomial, residueAt])

/-- A series of length `N` that agrees with `a` modulo `x^N` is `a` cut or padded to `N`. -/
theorem eq_resize_of_X_pow_dvd {c : Params} {a b : Series c} {N : Nat} (hlen : b.length = N)
    (h : Polynomial.X ^ N ∣ polynomial c b - polynomial c a) : b = resize c a N := by
  refine series_ext_residueAt (by rw [hlen, resize_length]) fun i hi => ?_
  have hi : i < N := hi.trans_eq hlen
  have hcoeff := X_pow_dvd_sub_iff.1 (dvd_sub h (X_pow_dvd_polynomial_resize c a N)) i hi
  simp only [Polynomial.coeff_sub, coeff_polynomial] at hcoeff
  linear_combination hcoeff

/-! ## The table (R157) -/

theorem tableCorrect_mono {c : Params} {table : Series c} {L M : Nat} (hT : tableCorrect c table M) (h : L ≤ M) :
    tableCorrect c table L := by
  obtain ⟨hlen, hinv⟩ := hT
  exact ⟨h.trans hlen, fun i hpos hi => hinv i hpos (hi.trans h)⟩

/-- An integer with an inverse is a unit of the field. -/
theorem natCast_ne_zero_of_tableCorrect {c : Params} {table : Series c} {L k : Nat} (hT : tableCorrect c table L)
    (hpos : 1 ≤ k) (hk : k ≤ L) : (k : ZMod c.P) ≠ 0 := fun hzero => by
  have : Fact c.P.Prime := fact_prime c
  obtain ⟨i, rfl⟩ := Nat.exists_eq_add_of_le' hpos
  have hone := natCast_mul_residueAt_table hT hk
  rw [hzero, zero_mul] at hone
  exact zero_ne_one hone

/-- The premise of the uniqueness lemmas, from the table of R187. -/
theorem natCast_ne_zero_below {c : Params} {table : Series c} {m : Nat} (hT : tableCorrect c table (max 1 (m - 1))) :
    ∀ k, 1 ≤ k → k < m → (k : ZMod c.P) ≠ 0 := fun _ hpos hk =>
  natCast_ne_zero_of_tableCorrect hT hpos (by omega)

/-! ## The logarithm (R174 to R176) -/

/-- A lower precision asks less of the table. -/
theorem max_one_le_of_le {m n : Nat} (h : m ≤ n) : max 1 (m - 1) ≤ max 1 (n - 1) :=
  max_le_max_left 1 (Nat.sub_le_sub_right h 1)

/-- What a logarithm that succeeds has passed: the check of R172 and the three steps of R174. -/
theorem seriesLog_eq_ok {c : Params} {a table l : Series c} {N : Nat} (h : seriesLog c a N table = .ok l) :
    coef c a 0 = elem c 1 ∧ ∃ ia p r, seriesInverse c a N = .ok ia ∧
      convolve c (derivative c a) ia (max 1 (N - 1)) = .ok p ∧ integral c p table = .ok r ∧ l = resize c r N := by
  rw [seriesLog] at h
  split at h
  next => cases h
  next hN =>
    split at h
    next => cases h
    next ha =>
      obtain ⟨ia, hia, h⟩ := except_bind_eq_ok h
      obtain ⟨p, hp, h⟩ := except_bind_eq_ok h
      obtain ⟨r, hr, h⟩ := except_bind_eq_ok h
      exact ⟨not_not.1 ha, ia, p, r, hia, hp, hr, (Except.ok.inj h).symm⟩

/-- The product inside a logarithm is never empty, so it was returned because it fits the transform. -/
theorem convolve_derivative_eq_ok {c : Params} {a ia p : Series c} {N : Nat} (hN : N ≠ 0) (hia : ia.length = N)
    (h : convolve c (derivative c a) ia (max 1 (N - 1)) = .ok p) :
    N ≤ cap c ∧ p = productSeries c (derivative c a) ia (max 1 (N - 1)) := by
  have hlenD := derivative_length c a
  have hD : derivative c a ≠ [] := List.ne_nil_of_length_pos (by omega)
  have hne : ia ≠ [] := List.ne_nil_of_length_pos (by omega)
  rcases Nat.lt_or_ge (cap c) ((derivative c a).length + ia.length - 1) with hlong | hfit
  · rw [convolve_of_too_long hD hne hlong] at h; cases h
  · rw [convolve_eq_productSeries_of_le (by omega) (by omega) hfit (by omega), Except.ok.injEq] at h
    exact ⟨by omega, h.symm⟩

/-- What an integral that succeeds returns, as a polynomial (R157). -/
theorem integral_eq_ok {c : Params} {a table r : Series c} (ha : 1 ≤ a.length) (hT : tableCorrect c table a.length)
    (h : integral c a table = .ok r) : coef c r 0 = elem c 0 ∧ (polynomial c r).derivative = polynomial c a := by
  obtain ⟨_, hok, _, hzero, _⟩ := integral_of_covered hT.1
  obtain ⟨_, hok', hderiv⟩ := derivative_integral ha hT
  obtain rfl := Except.ok.inj (h.symm.trans hok)
  obtain rfl := Except.ok.inj (h.symm.trans hok')
  exact ⟨hzero, by rw [← polynomial_derivative, hderiv]⟩

/-- The result of a logarithm solves the equation. -/
theorem logMod_of_seriesLog {c : Params} {a table l : Series c} {N : Nat} (hT : tableCorrect c table (max 1 (N - 1)))
    (h : seriesLog c a N table = .ok l) : l.length = N ∧ LogMod N (polynomial c a) (polynomial c l) := by
  obtain ⟨ha, ia, p, r, hia, hp, hr, rfl⟩ := seriesLog_eq_ok h
  obtain ⟨hN, _⟩ := seriesInverse_eq_ok hia
  obtain ⟨hlen, hinv⟩ := inverseMod_of_seriesInverse hia
  obtain ⟨_, rfl⟩ := convolve_derivative_eq_ok hN hlen hp
  have hplen := productSeries_length c (derivative c a) ia (max 1 (N - 1))
  obtain ⟨hzero, hderiv⟩ := integral_eq_ok (by omega) (by rwa [hplen]) hr
  have hl0 : coef c (resize c r N) 0 = elem c 0 := by rw [coef_resize, hzero, ite_self]
  have hcut := X_pow_dvd_derivative_sub (X_pow_dvd_polynomial_resize c r N)
  have hprod := X_pow_dvd_polynomial_productSeries c (derivative c a) ia (max 1 (N - 1))
  rw [← hderiv, polynomial_derivative] at hprod
  refine ⟨resize_length .., logMod_of_inverse ((coeff_polynomial_zero ha).trans Nat.cast_one)
    ((coeff_polynomial_zero hl0).trans Nat.cast_zero) hinv ?_⟩
  rw [← sub_add_sub_cancel _ (polynomial c r).derivative]
  exact dvd_add hcut ((pow_dvd_pow _ (Nat.le_max_right 1 _)).trans hprod)

/-- The size limit of R167 and R176 in one inequality, which holds for `K = 0` as well: there the product inside the
logarithm forces `N = 1`. -/
theorem two_mul_le_of_seriesLog {c : Params} {a table l : Series c} {N : Nat} (h : seriesLog c a N table = .ok l) :
    2 * N ≤ cap c + 2 := by
  obtain ⟨_, ia, p, _, hia, hp, _⟩ := seriesLog_eq_ok h
  obtain ⟨hN, _⟩ := seriesInverse_eq_ok hia
  obtain ⟨hcap, _⟩ := convolve_derivative_eq_ok hN (inverseMod_of_seriesInverse hia).1 hp
  rcases Nat.eq_zero_or_pos (logMax c) with hK | hK
  · rw [cap, hK] at hcap ⊢
    omega
  · have hle := le_of_seriesInverse hK hia
    have hcap2 := cap_eq_two_mul hK
    omega

/-- The longest product of an inversion, of lengths `N` and at most `N - 1`, fits the transform. -/
theorem exists_seriesInverse_of_two_mul_le {c : Params} {a : Series c} {N : Nat} (hN : N ≠ 0)
    (ha : coef c a 0 ≠ elem c 0) (hfit : 2 * N ≤ cap c + 2) : ∃ b, seriesInverse c a N = .ok b := by
  cases h : seriesInverse c a N with
  | ok b => exact ⟨b, rfl⟩
  | error k =>
    obtain ⟨_, m, _, hlt, hlong⟩ := seriesInverse_error hN ha h
    omega

theorem elem_one_ne_zero (c : Params) : elem c 1 ≠ elem c 0 := fun h => by
  have hval := congrArg Fin.val h
  rw [elem_one_val, elem_zero_val] at hval
  cases hval

/-- A source no longer than the precision has a logarithm as soon as the precision fits the transform. -/
theorem exists_seriesLog {c : Params} {a table : Series c} {N : Nat} (hN : N ≠ 0) (ha : coef c a 0 = elem c 1)
    (hlen : a.length ≤ N) (hfit : 2 * N ≤ cap c + 2) (hT : max 1 (N - 1) ≤ table.length) :
    ∃ l, seriesLog c a N table = .ok l := by
  obtain ⟨ia, hia⟩ := exists_seriesInverse_of_two_mul_le hN (ha ▸ elem_one_ne_zero c) hfit
  obtain ⟨hlenI, _⟩ := inverseMod_of_seriesInverse hia
  have hlenD := derivative_length c a
  have hcap : 1 ≤ cap c := Nat.one_le_two_pow
  have hp := convolve_eq_productSeries_of_le (c := c) (a := derivative c a) (b := ia) (nmax := max 1 (N - 1))
    (by omega) (by omega) (by omega) (by omega)
  obtain ⟨r, hr, _⟩ := integral_of_covered
    ((productSeries_length c (derivative c a) ia (max 1 (N - 1))).trans_le hT)
  refine ⟨resize c r N, ?_⟩
  rw [seriesLog, if_neg hN, if_neg (not_not.2 ha), hia]
  simp only [bind, Except.bind, hp, hr]

/-! ## One step of the exponential (R182) -/

theorem residueAt_zipWith_fsub {c : Params} {a b : Series c} {k : Nat} (ha : k < a.length) (hb : k < b.length) :
    residueAt c (List.zipWith (fsub c) a b) k = residueAt c a k - residueAt c b k := by
  have hlen : k < (List.zipWith (fsub c) a b).length := by rw [List.length_zipWith]; exact lt_min ha hb
  rw [residueAt, coef_of_lt _ _ _ hlen, List.getElem_zipWith, residue_fsub, residueAt, residueAt, coef_of_lt _ _ _ ha,
    coef_of_lt _ _ _ hb]

/-- The difference of `f` and the logarithm is not empty, so there is a leading coefficient to add the 1 to. -/
theorem expDelta_eq_cons {c : Params} {lg : Series c} {m : Nat} (f : Series c) (hm : 1 ≤ m) (hlg : lg.length = m) :
    ∃ d ds, List.zipWith (fsub c) (resize c f m) lg = d :: ds ∧ ds.length + 1 = m ∧
      expDelta c f lg m = fadd c d (elem c 1) :: ds := by
  have hlen : (List.zipWith (fsub c) (resize c f m) lg).length = m := by
    rw [List.length_zipWith, resize_length, hlg, min_self]
  obtain ⟨d, ds, hcons⟩ := List.exists_cons_of_length_pos (hm.trans_eq hlen.symm)
  exact ⟨d, ds, hcons, by rw [← hlen, hcons, List.length_cons], by rw [expDelta, hcons]⟩

theorem expDelta_length {c : Params} {lg : Series c} {m : Nat} (f : Series c) (hm : 1 ≤ m) (hlg : lg.length = m) :
    (expDelta c f lg m).length = m := by
  obtain ⟨_, _, _, hlen, hdelta⟩ := expDelta_eq_cons f hm hlg
  rw [hdelta, List.length_cons, hlen]

/-- `delta = 1 + (f - lg)` at precision `m`. -/
theorem X_pow_dvd_polynomial_expDelta {c : Params} {lg : Series c} {m : Nat} (f : Series c) (hm : 1 ≤ m)
    (hlg : lg.length = m) :
    Polynomial.X ^ m ∣ polynomial c (expDelta c f lg m) - (1 + (polynomial c f - polynomial c lg)) := by
  obtain ⟨d, ds, hcons, _, hdelta⟩ := expDelta_eq_cons f hm hlg
  refine X_pow_dvd_sub_iff.2 fun i hi => ?_
  have hdiff : residueAt c (d :: ds) i = residueAt c f i - residueAt c lg i := by
    rw [← hcons, residueAt_zipWith_fsub (by rwa [resize_length]) (by rwa [hlg]), residueAt, coef_resize, if_pos hi,
      ← residueAt]
  rw [Polynomial.coeff_add, Polynomial.coeff_sub, coeff_polynomial, coeff_polynomial, coeff_polynomial, ← hdiff, hdelta,
    Polynomial.coeff_one]
  cases i with
  | zero => rw [if_pos rfl, residueAt_cons_zero, residueAt_cons_zero, residue_fadd, residue_one, add_comm]
  | succ i => rw [if_neg i.succ_ne_zero, residueAt_cons_succ, residueAt_cons_succ, zero_add]

/-- What a step to precision `m` returns once the logarithm of `g` is `lg`. -/
def expUpdate (c : Params) (f g lg : Series c) (m : Nat) : Series c := productSeries c g (expDelta c f lg m) m

@[simp] theorem expUpdate_length (c : Params) (f g lg : Series c) (m : Nat) : (expUpdate c f g lg m).length = m :=
  productSeries_length ..

theorem X_pow_dvd_polynomial_expUpdate {c : Params} {lg : Series c} {m : Nat} (f g : Series c) (hm : 1 ≤ m)
    (hlg : lg.length = m) : Polynomial.X ^ m ∣ polynomial c (expUpdate c f g lg m) -
      polynomial c g * (1 + (polynomial c f - polynomial c lg)) := by
  have hdelta := (X_pow_dvd_polynomial_expDelta f hm hlg).mul_left (polynomial c g)
  rw [mul_sub] at hdelta
  rw [← sub_add_sub_cancel _ (polynomial c g * polynomial c (expDelta c f lg m))]
  exact dvd_add (X_pow_dvd_polynomial_productSeries c g _ m) hdelta

/-- The last product of a step is no longer than those inside its logarithm, so it fits as well. -/
theorem expStep_of_seriesLog {c : Params} {f g lg table : Series c} {m : Nat}
    (h : seriesLog c (resize c g m) m table = .ok lg) (hlg : lg.length = m) (hpos : 1 ≤ g.length) (hlt : g.length < m) :
    expStep c f table m g = .ok (expUpdate c f g lg m) := by
  have hfit := two_mul_le_of_seriesLog h
  have hlen := expDelta_length f (hpos.trans hlt.le) hlg
  rw [expStep, h]
  exact convolve_eq_productSeries_of_le hpos (by omega) (by omega) (by omega)

/-! ## The invariant of the loop (R183) -/

/-- `g` is the exponential of `f` at precision `m`. -/
def ExpMod (c : Params) (f : Series c) (m : Nat) (g : Series c) : Prop :=
  g.length = m ∧ LogMod m (polynomial c g) (polynomial c f)

theorem expMod_start {c : Params} {f : Series c} (hf : coef c f 0 = elem c 0) : ExpMod c f 1 [elem c 1] :=
  ⟨rfl, logMod_one ((coeff_polynomial_zero rfl).trans Nat.cast_one) ((coeff_polynomial_zero hf).trans Nat.cast_zero)⟩

theorem ExpMod.coef_zero {c : Params} {f g : Series c} {m : Nat} (h : ExpMod c f m g) : coef c g 0 = elem c 1 := by
  obtain ⟨_, hone, _⟩ := h
  exact coef_zero_of_coeff (hone.trans Nat.cast_one.symm)

section Step

variable {c : Params} {f g table : Series c} {m n : Nat}

/-- A step at most doubles the precision and keeps the invariant. -/
theorem expMod_expStep {y : Series c} (hm : 1 ≤ m) (hmn : m < n) (hnm : n ≤ 2 * m)
    (hT : tableCorrect c table (max 1 (n - 1))) (hg : ExpMod c f m g) (h : expStep c f table n g = .ok y) :
    ExpMod c f n y ∧ 2 * n ≤ cap c + 2 := by
  have : Fact c.P.Prime := fact_prime c
  obtain ⟨hlen, hgf⟩ := hg
  obtain ⟨lg, hlog, _⟩ := except_bind_eq_ok h
  obtain ⟨hlg, hglg⟩ := logMod_of_seriesLog hT hlog
  rw [expStep_of_seriesLog hlog hlg (by omega) (by omega), Except.ok.injEq] at h
  subst h
  have hn : 1 ≤ n := hm.trans hmn.le
  have hcut : Polynomial.X ^ n ∣ polynomial c g - polynomial c (resize c g n) :=
    (dvd_sub_comm).1 (X_pow_dvd_polynomial_resize c g n)
  have hunit := natCast_ne_zero_below (tableCorrect_mono hT (max_one_le_of_le hmn.le))
  exact ⟨⟨expUpdate_length .., hgf.newton hunit hm hmn.le hnm (hglg.congr_left hn hcut)
    (X_pow_dvd_polynomial_expUpdate f g hn hlg)⟩, two_mul_le_of_seriesLog hlog⟩

theorem exists_expStep (hm : 1 ≤ m) (hmn : m < n) (hfit : 2 * n ≤ cap c + 2)
    (hT : tableCorrect c table (max 1 (n - 1))) (hg : ExpMod c f m g) : ∃ y, expStep c f table n g = .ok y := by
  have hn : 0 < n := hm.trans hmn.le
  have hone : coef c (resize c g n) 0 = elem c 1 := by rw [coef_resize, if_pos hn, hg.coef_zero]
  obtain ⟨hlen, _⟩ := hg
  obtain ⟨lg, hlog⟩ := exists_seriesLog hn.ne' hone (resize_length c g n).le hfit hT.1
  obtain ⟨hlg, _⟩ := logMod_of_seriesLog hT hlog
  exact ⟨_, expStep_of_seriesLog hlog hlg (by omega) (by omega)⟩

end Step

/-! ## The exponential (R178 to R184) -/

section Exponential

variable {c : Params} {f g table : Series c} {N : Nat}

theorem seriesExp_eq_newton (hN : N ≠ 0) (hf : coef c f 0 = elem c 0) :
    seriesExp c f N table = newton (expStep c f table) N (newtonSteps N) 1 [elem c 1] := by
  rw [seriesExp, if_neg hN, if_neg (not_not.2 hf)]

theorem seriesExp_eq_ok (h : seriesExp c f N table = .ok g) : N ≠ 0 ∧ coef c f 0 = elem c 0 := by
  rw [seriesExp] at h
  split at h
  next => cases h
  next hN =>
    split at h
    next => cases h
    next hf => exact ⟨hN, not_not.1 hf⟩

/-- The invariant at the end of the loop, with the size limit that its last step has passed (R185); `N = 1` takes no step
and is within the limit. -/
theorem expMod_of_seriesExp (hT : tableCorrect c table (max 1 (N - 1))) (h : seriesExp c f N table = .ok g) :
    ExpMod c f N g ∧ 2 * N ≤ cap c + 2 := by
  obtain ⟨hN, hf⟩ := seriesExp_eq_ok h
  rw [seriesExp_eq_newton hN hf] at h
  refine newton_ok (I := fun m x => ExpMod c f m x ∧ 2 * m ≤ cap c + 2) (fun m x y hm hlt ⟨hx, _⟩ hy => ?_) _ 1 _ g
    le_rfl (Nat.one_le_iff_ne_zero.2 hN) (newtonSteps_enough N) ⟨expMod_start hf, Nat.le_add_left 2 _⟩ h
  exact expMod_expStep hm (by omega) (by omega) (tableCorrect_mono hT (max_one_le_of_le (by omega))) hx hy

/-- Within the size limit every step of the loop succeeds. -/
theorem exists_seriesExp (hN : N ≠ 0) (hf : coef c f 0 = elem c 0) (hfit : 2 * N ≤ cap c + 2)
    (hT : tableCorrect c table (max 1 (N - 1))) : ∃ g, seriesExp c f N table = .ok g := by
  cases h : seriesExp c f N table with
  | ok g => exact ⟨g, rfl⟩
  | error k =>
    rw [seriesExp_eq_newton hN hf] at h
    have hcut (m : Nat) : tableCorrect c table (max 1 (min N (2 * m) - 1)) :=
      tableCorrect_mono hT (max_one_le_of_le (Nat.min_le_left N _))
    refine (newton_error (I := ExpMod c f) (Q := fun _ => False) (fun m x y hm hlt hx hy => ?_)
      (fun m x k hm hlt hx hk => ?_) le_rfl (expMod_start hf) h).elim
    · exact (expMod_expStep hm (by omega) (by omega) (hcut m) hx hy).1
    · obtain ⟨y, hy⟩ := exists_expStep hm (by omega) (by omega) (hcut m) hx
      rw [hy] at hk; cases hk

end Exponential

/-! ## The inverse laws (R187) -/

/-- The logarithm undoes the exponential: both `f` and the new logarithm solve the equation of `g`. -/
theorem seriesLog_of_seriesExp {c : Params} {f g table : Series c} {N : Nat}
    (hT : tableCorrect c table (max 1 (N - 1))) (h : seriesExp c f N table = .ok g) :
    seriesLog c g N table = .ok (resize c f N) := by
  have : Fact c.P.Prime := fact_prime c
  obtain ⟨hN, _⟩ := seriesExp_eq_ok h
  obtain ⟨hexp, hfit⟩ := expMod_of_seriesExp hT h
  have hone := hexp.coef_zero
  obtain ⟨hlen, hgf⟩ := hexp
  obtain ⟨l, hl⟩ := exists_seriesLog hN hone hlen.le hfit hT.1
  obtain ⟨hlenL, hgl⟩ := logMod_of_seriesLog hT hl
  rw [hl, eq_resize_of_X_pow_dvd hlenL (hgl.unique_right (natCast_ne_zero_below hT) hgf)]

/-- The exponential undoes the logarithm: both `a` and the new exponential solve the equation of `l`. -/
theorem seriesExp_of_seriesLog {c : Params} {a l table : Series c} {N : Nat}
    (hT : tableCorrect c table (max 1 (N - 1))) (h : seriesLog c a N table = .ok l) :
    seriesExp c l N table = .ok (resize c a N) := by
  have : Fact c.P.Prime := fact_prime c
  obtain ⟨_, ia, _, _, hia, _⟩ := seriesLog_eq_ok h
  obtain ⟨hN, _⟩ := seriesInverse_eq_ok hia
  obtain ⟨_, hal⟩ := logMod_of_seriesLog hT h
  have ⟨_, hzero, _⟩ := hal
  have hl0 : coef c l 0 = elem c 0 := coef_zero_of_coeff (hzero.trans Nat.cast_zero.symm)
  obtain ⟨g, hg⟩ := exists_seriesExp hN hl0 (two_mul_le_of_seriesLog h) hT
  obtain ⟨⟨hlen, hgl⟩, _⟩ := expMod_of_seriesExp hT hg
  rw [hg, eq_resize_of_X_pow_dvd hlen (hgl.unique_left (natCast_ne_zero_below hT) hal)]

/-- Settles O55: both commands solve the same equation, whose solutions are unique on either side, and neither needs a
longer transform than the other. -/
theorem logAndExpAreInverse : Obligations.LogAndExpAreInverse := fun _ _ _ _ hT =>
  ⟨fun _ h => seriesLog_of_seriesExp hT h, fun _ h => seriesExp_of_seriesLog hT h⟩

end Sys2Proof.Machine.LogExp
end

/-! # Proofs for spec/46_resize.md (R191) -/

section

namespace Sys2Proof.Machine.Resize

open Sys2Proof Sys2Proof.Machine Sys2Proof.Machine.Laws

variable {c : Params} {a : Series c} {L M : Nat}

/-- A resize that drops nothing is the padding with zeros. -/
theorem resize_of_length_le (h : a.length ≤ L) :
    resize c a L = a ++ List.replicate (L - a.length) (elem c 0) := by
  rw [resize, List.take_of_length_le h]

theorem resize_length_self (c : Params) (a : Series c) : resize c a a.length = a := by
  rw [resize_of_length_le le_rfl, Nat.sub_self, List.replicate_zero, List.append_nil]

/-- Growing again gives zeros: none of the coefficients cut before comes back. -/
theorem resize_resize_of_lt (h : L < M) :
    resize c (resize c a L) M = resize c a L ++ List.replicate (M - L) (elem c 0) := by
  have hlen := resize_length c a L
  rw [resize_of_length_le (hlen.trans_le h.le), hlen]

/-- Every coefficient the second cut keeps was kept by the first. -/
theorem resize_resize_of_le (h : M ≤ L) : resize c (resize c a L) M = resize c a M := by
  refine series_ext c _ _ (by rw [resize_length, resize_length]) fun i hi => ?_
  have hiM : i < M := hi.trans_eq (resize_length c _ M)
  rw [coef_resize, coef_resize, coef_resize, if_pos hiM, if_pos hiM, if_pos (hiM.trans_le h)]

/-- A non-zero coefficient at `j` that the first cut drops tells the two results apart. -/
theorem resize_resize_ne {j : Nat} (hL : L ≤ j) (hM : j < M) (hj : coef c a j ≠ elem c 0) :
    resize c (resize c a L) M ≠ resize c a M := by
  intro heq
  have hcut : coef c (resize c (resize c a L) M) j = elem c 0 := by
    rw [coef_resize, if_pos hM, coef_resize, if_neg hL.not_gt]
  have hkept : coef c (resize c a M) j = coef c a j := by rw [coef_resize, if_pos hM]
  exact hj (by rw [← hkept, ← heq, hcut])

/-- Settles O56, law by law: lengths and coefficients determine a series, and `coef_resize` gives the coefficients. -/
theorem resizeLaws : Obligations.ResizeLaws := fun c a L _ i =>
  ⟨resize_length c a L, resize_length_self c a, resize_resize_of_le, resize_resize_of_lt,
    fun _ ⟨_, hL, hM, hj⟩ => resize_resize_ne hL hM hj, coef_resize c a L i⟩

end Sys2Proof.Machine.Resize
end

/-! # Proofs for spec/30_encoding.md (R71 to R75, section 5): decode and encode -/

section

namespace Sys2Proof.Machine.RoundTrip

open Sys2Proof Sys2Proof.Laws Sys2Proof.Machine Sys2Proof.Machine.Laws Sys2Proof.Machine.Encoding

/-- Settles O2: the nine words, each decoded. -/
theorem sampleWordsDecode : Obligations.SampleWordsDecode := by
  unfold Obligations.SampleWordsDecode
  decide

/-! ## From a command to its word and back -/

@[simp] theorem directionOf_wordOf_imm (op : Opcode) (rd ra rb rc : Index) (dir : Direction) :
    directionOf (wordOf op rd ra rb rc dir.imm) = dir := by
  rw [directionOf, immOf_wordOf]
  cases dir <;> rfl

/-- The encoder writes zeros where the format marks a field unused (R75). -/
theorem unusedZero_encode (i : Instr) : (format i).unusedZero (encode i) = true := by
  cases i with
  | fadd rd ra rb | fsub rd ra rb | fmul rd ra rb | conv rd ra rb =>
    simp [format, Format.unusedZero, unusedZeroR3, encode]
  | fpow rd ra | finv rd ra | deriv rd ra | integ rd ra | sinv rd ra | slog rd ra | sexp rd ra | vrsz rd ra =>
    simp [format, Format.unusedZero, unusedZeroR2, encode]
  | bfly ra rb rc => simp [format, Format.unusedZero, unusedZeroFB, encode]
  | ntt rd dir => cases dir <;> simp [format, Format.unusedZero, unusedZeroVT, encode, Direction.imm]

/-- The opcode of the word selects the arm, and the arm reads the operands where the encoder put them. -/
theorem decode_encode_eq_checked (i : Instr) :
    decode (encode i) = checked ((format i).unusedZero (encode i)) i := by
  cases i <;>
    simp [decode, encode, Instr.opcode, format, Format.unusedZero]

/-- Settles O4: the arm of the command's opcode checks the command itself, and a well-formed one passes. -/
theorem decodeOfEncode : Obligations.DecodeOfEncode := fun i hw =>
  (decode_encode_eq_checked i).trans (checked_eq_ok_iff.2 ⟨rfl, unusedZero_encode i, hw⟩)

/-! ## From a word to its command and back

A word whose unused fields are zero is the word of its used fields, format by format. -/

section Fields

variable {w : Word} {op : Opcode}

theorem wordOf_of_unusedZeroR3 (hop : (opcodeOf w).toNat = op.toNat) (h : unusedZeroR3 w = true) :
    wordOf op (rdOf w) (raOf w) (rbOf w) 0 0 = w := by
  simp only [unusedZeroR3, Bool.and_eq_true, beq_iff_eq] at h
  obtain ⟨hrc, himm⟩ := h
  rw [← BitVec.eq_of_toNat_eq hop, ← hrc, ← himm, wordOf_fields]

theorem wordOf_of_unusedZeroR2 (hop : (opcodeOf w).toNat = op.toNat) (h : unusedZeroR2 w = true) :
    wordOf op (rdOf w) (raOf w) 0 0 0 = w := by
  simp only [unusedZeroR2, Bool.and_eq_true, beq_iff_eq] at h
  obtain ⟨⟨hrb, hrc⟩, himm⟩ := h
  have hfields := wordOf_fields w
  rwa [BitVec.eq_of_toNat_eq hop, hrb, hrc, himm] at hfields

theorem wordOf_of_unusedZeroFB (hop : (opcodeOf w).toNat = op.toNat) (h : unusedZeroFB w = true) :
    wordOf op 0 (raOf w) (rbOf w) (rcOf w) 0 = w := by
  simp only [unusedZeroFB, Bool.and_eq_true, beq_iff_eq] at h
  obtain ⟨hrd, himm⟩ := h
  rw [← BitVec.eq_of_toNat_eq hop, ← hrd, ← himm, wordOf_fields]

/-- Bit 0 of `imm` is all that format VT reads of it. -/
theorem imm_directionOf (h : (immOf w).extractLsb' 1 7 = 0) : (directionOf w).imm = immOf w := by
  have hbit : ∀ b : BitVec 8, b.extractLsb' 1 7 = 0 →
      (if b.getLsbD 0 then Direction.inverse else .forward).imm = b := by decide
  exact hbit (immOf w) h

theorem wordOf_of_unusedZeroVT (hop : (opcodeOf w).toNat = op.toNat) (h : unusedZeroVT w = true) :
    wordOf op (rdOf w) 0 0 0 (directionOf w).imm = w := by
  simp only [unusedZeroVT, Bool.and_eq_true, beq_iff_eq] at h
  obtain ⟨⟨⟨hra, hrb⟩, hrc⟩, himm⟩ := h
  have hfields := wordOf_fields w
  rwa [BitVec.eq_of_toNat_eq hop, hra, hrb, hrc, ← imm_directionOf himm] at hfields

end Fields

/-- One arm of the decoder: what passes its checks is well formed, and encodes to the word if the unused fields are zero. -/
theorem encode_of_checked {w : Word} {unused : Bool} {i j : Instr} (h : checked unused i = .ok j)
    (hword : unused = true → encode i = w) : j.WellFormed ∧ encode j = w := by
  obtain ⟨rfl, hunused, hw⟩ := checked_eq_ok_iff.1 h
  exact ⟨hw, hword hunused⟩

/-- Settles O5: each arm of the decoder is one format. -/
theorem acceptedWordIsTheEncoding : Obligations.AcceptedWordIsTheEncoding := by
  intro w i h
  unfold decode at h
  split at h
  case h_1 hop | h_2 hop | h_3 hop | h_8 hop => exact encode_of_checked h fun hu => wordOf_of_unusedZeroR3 hop hu
  case h_4 hop | h_5 hop | h_9 hop | h_10 hop | h_11 hop | h_12 hop | h_13 hop | h_14 hop =>
    exact encode_of_checked h fun hu => wordOf_of_unusedZeroR2 hop hu
  case h_6 hop => exact encode_of_checked h fun hu => wordOf_of_unusedZeroFB hop hu
  case h_7 hop => exact encode_of_checked h fun hu => wordOf_of_unusedZeroVT hop hu
  case h_15 => cases h

end Sys2Proof.Machine.RoundTrip
end

/-! # Proofs for spec/20_memory.md section 1 (R51 to R53) and the stores of R57 to R59 -/

section

namespace Sys2Proof.Machine.AddressMap

open Sys2Proof Sys2Proof.Machine Sys2Proof.Machine.Laws Sys2Proof.Machine.ArchState Sys2Proof.Machine.Memory

/-! ## Locations and addresses, for every configuration -/

/-- Region 0 holds 128 words at least, so the table of R53 lies in it. -/
theorem two_pow_seven_le (c : Params) : 2 ^ 7 ≤ 2 ^ offsetWidth c :=
  Nat.pow_le_pow_right two_pos (Nat.le_max_right _ 7)

/-- The location at an offset of a region (R52). -/
def regionAt (region offset : Nat) : Option Location :=
  match region with
  | 0 => csrAt offset
  | 1 => some (.coeff 0 offset)
  | 2 => some (.coeff 1 offset)
  | 3 => some (.coeff 2 offset)
  | 4 => some (.coeff 3 offset)
  | 5 => some (.table offset)
  | 6 => some (.rom offset)
  | _ => none

theorem locate_eq_regionAt (c : Params) (addr : Nat) :
    locate c addr = regionAt (addr / 2 ^ offsetWidth c) (addr % 2 ^ offsetWidth c) := rfl

/-- An address is taken apart into the region and the offset it was made of (R51). -/
theorem locate_region_offset {c : Params} {offset : Nat} (region : Nat) (h : offset < 2 ^ offsetWidth c) :
    locate c (region * 2 ^ offsetWidth c + offset) = regionAt region offset := by
  rw [locate_eq_regionAt, Nat.add_comm, Nat.add_mul_div_right _ _ (Nat.two_pow_pos _), Nat.add_mul_mod_self_right,
    Nat.div_eq_of_lt h, Nat.mod_eq_of_lt h, Nat.zero_add]

/-- Region 0 is the table of R53. -/
theorem locate_region_zero {c : Params} {offset : Nat} (h : offset < 2 ^ 7) : locate c offset = csrAt offset := by
  have hzero := locate_region_offset (c := c) 0 (h.trans_le (two_pow_seven_le c))
  rwa [Nat.zero_mul, Nat.zero_add] at hzero

theorem locate_addressOf {c : Params} {l : Location} (hl : l.Exists c) : locate c (addressOf c l) = some l := by
  cases l with
  | id | modulus | root | logmax | status | cmd | n | e | tlen => exact locate_region_zero (by norm_num [addressOf])
  | vlen i =>
    have hi : i < 4 := hl
    exact (locate_region_zero (by rw [addressOf]; omega)).trans (csrAt_vlen hi)
  | f i =>
    have hi : i < 8 := hl
    exact (locate_region_zero (by rw [addressOf]; omega)).trans (csrAt_f hi)
  | coeff i j =>
    obtain ⟨hi, hj⟩ := hl
    refine (locate_region_offset (i + 1) hj).trans ?_
    interval_cases i <;> rfl
  | table j => exact locate_region_offset 5 hl
  | rom offset => exact locate_region_offset 6 hl

/-- A row of the table of R53 names a location that exists, at that offset. -/
theorem csrAt_eq_some {c : Params} {offset : Nat} {l : Location} (h : csrAt offset = some l) :
    l.Exists c ∧ addressOf c l = offset := by
  unfold csrAt at h
  split at h
  case h_10 =>
    split at h
    next hv => cases h; exact ⟨by simp only [Location.Exists]; omega, by simp only [addressOf]; omega⟩
    next =>
      split at h
      next hf => cases h; exact ⟨by simp only [Location.Exists]; omega, by simp only [addressOf]; omega⟩
      next => cases h
  all_goals cases h; exact ⟨trivial, rfl⟩

theorem regionAt_eq_some {c : Params} {region offset : Nat} {l : Location} (ho : offset < 2 ^ offsetWidth c)
    (h : regionAt region offset = some l) :
    l.Exists c ∧ addressOf c l = region * 2 ^ offsetWidth c + offset := by
  unfold regionAt at h
  split at h
  case h_1 =>
    obtain ⟨hex, haddr⟩ := csrAt_eq_some (c := c) h
    exact ⟨hex, by rw [haddr, Nat.zero_mul, Nat.zero_add]⟩
  case h_2 | h_3 | h_4 | h_5 => cases h; exact ⟨⟨by decide, ho⟩, rfl⟩
  case h_6 | h_7 => cases h; exact ⟨ho, rfl⟩
  case h_8 => cases h

theorem exists_and_addressOf_of_locate {c : Params} {addr : Nat} {l : Location} (h : locate c addr = some l) :
    l.Exists c ∧ addressOf c l = addr := by
  rw [locate_eq_regionAt] at h
  obtain ⟨hex, haddr⟩ := regionAt_eq_some (Nat.mod_lt addr (Nat.two_pow_pos _)) h
  exact ⟨hex, haddr.trans (Nat.div_add_mod' addr _)⟩

/-- Settles O15: an address is a region and an offset, and each region is read off its row of R52. -/
theorem locationsAndAddressesAgree : Obligations.LocationsAndAddressesAgree := fun _ =>
  ⟨fun _ => locate_addressOf, fun _ _ => exists_and_addressOf_of_locate⟩

/-- No other address leads to a location than its own. -/
theorem ne_of_addressOf_ne {addr : Nat} {l l' : Location} (hl : locate reference addr = some l)
    (h : addr ≠ addressOf reference l') : l ≠ l' := fun heq =>
  h ((exists_and_addressOf_of_locate hl).2.symm.trans (congrArg _ heq))

/-! ## The stores (R57 to R59) -/

theorem elementOfWord_of_lt {v : Word} (h : v.toNat < reference.P) : elementOfWord v = some ⟨v.toNat, h⟩ := dif_pos h

theorem locate_n : locate reference 0x06 = some .n := locate_of_lt (by decide)

theorem locate_e : locate reference 0x07 = some .e := locate_of_lt (by decide)

/-- Settles O17: each location is found at its address and accepts the word. -/
theorem writesStore : Obligations.WritesStore := by
  refine fun s v => ⟨hostWrite_of_stored locate_n nofun rfl, hostWrite_of_stored locate_e nofun rfl,
    fun i hi hv => hostWrite_of_stored (locate_f hi) nofun ?f,
    fun i j hi hj hlen hv => hostWrite_of_stored (locate_coeff hi hj) nofun ?coeff,
    fun j hpos hj hlen hv => hostWrite_of_stored (locate_table hj) nofun ?table⟩
  case f => rw [State.writeLocation, elementOfWord_of_lt hv, Option.map_some]
  case coeff => rw [State.writeLocation, if_pos hlen, elementOfWord_of_lt hv, Option.map_some]
  case table => rw [State.writeLocation, if_pos ⟨hpos, hlen⟩, elementOfWord_of_lt hv, Option.map_some]

end Sys2Proof.Machine.AddressMap
end

/-! # Proofs for spec/60_exceptions.md (R210 to R212) and spec/10_state.md R36, R37: what every command does -/

section

namespace Sys2Proof.Machine.Outcomes

open Sys2Proof Sys2Proof.Machine Sys2Proof.Machine.Laws Sys2Proof.Machine.Scope Sys2Proof.Machine.ArchState
  Sys2Proof.Machine.AddressMap

/-! ## The outcomes of `exec` -/

/-- Everything a command can do: it fails, or it commits its effect. -/
theorem exec_cases {i : Instr} {s t : State} (h : exec i s = .next t) :
    (∃ k, t = s.recordFailure k) ∨ (i.WellFormed ∧ ∃ u, (effect i s).commit s = .ok u ∧ t = u.recordSuccess) := by
  rw [exec_eq_command_effect] at h
  rcases command_cases h with ⟨-, rfl⟩ | ⟨-, k, -, rfl⟩ | ⟨hw, u, hu, rfl⟩
  · exact .inl ⟨_, rfl⟩
  · exact .inl ⟨k, rfl⟩
  · exact .inr ⟨hw, u, hu, rfl⟩

/-- A command always answers a next state (R244). -/
theorem exec_next (i : Instr) (s : State) : ∃ t, exec i s = .next t := by
  rw [exec_eq_command_effect]
  exact command_next _ _ _

theorem exec_of_commit_ok {i : Instr} {s u : State} (hw : i.WellFormed) (h : (effect i s).commit s = .ok u) :
    exec i s = .next { u with err := 0 } := by
  rw [exec_eq_command_effect, h, command_ok hw]
  rfl

theorem exec_of_commit_error {i : Instr} {s : State} {k : FailureKind} (hw : i.WellFormed)
    (h : (effect i s).commit s = .error k) : exec i s = .next { s with err := failureCode k, estk := true } := by
  rw [exec_eq_command_effect, h, command_error hw]
  rfl

/-- Settles O8: `command` refuses an ill-formed command before it looks at the result. -/
theorem illFormedCommandFails : Obligations.IllFormedCommandFails := by
  intro i s hw
  rw [exec_eq_command_effect, command_illegal hw]
  rfl

/-! ## What a command leaves unchanged (R212)

`ChangesOnly` is the frame of a command with the registers and the buffers it may write as parameters; `exec_changesOnly`
fills them in from the effect. -/

/-- `t` is `s` but for the registers in `fs`, the buffers in `vs`, `ERR`, and `ESTK` if the command failed. -/
structure ChangesOnly (fs vs : Nat → Prop) (s t : State) : Prop where
  readF : ∀ j, ¬ fs j → t.readF j = s.readF j
  readV : ∀ j, ¬ vs j → t.readV j = s.readV j
  e : t.e = s.e
  n : t.n = s.n
  table : t.t = s.t
  aerr : t.aerr = s.aerr
  estk : t.err = 0 → t.estk = s.estk
  pending : t.pending = s.pending
  replies : t.replies = s.replies

/-- The field registers an effect writes. -/
def writesF : Effect → Nat → Prop
  | .scalar rd _, j => j = rd.toNat
  | .series _ _, _ => False
  | .scalarPair ra rb _ _, j => j = ra.toNat ∨ j = rb.toNat

/-- The series buffers an effect writes. -/
def writesV : Effect → Nat → Prop
  | .scalar _ _, _ => False
  | .series rd _, j => j = rd.toNat
  | .scalarPair _ _ _ _, _ => False

theorem changesOnly_recordFailure (fs vs : Nat → Prop) (s : State) (k : FailureKind) :
    ChangesOnly fs vs s (s.recordFailure k) :=
  ⟨fun _ _ => rfl, fun _ _ => rfl, rfl, rfl, rfl, rfl, fun h => absurd h (failureCode_ne_zero k), rfl, rfl⟩

theorem changesOnly_commit {e : Effect} {s u : State} (h : e.commit s = .ok u) :
    ChangesOnly (writesF e) (writesV e) s u.recordSuccess := by
  cases e with
  | scalar rd result =>
    obtain ⟨x, -, rfl⟩ := commitF_eq_ok h
    exact ⟨fun j hj => readF_writeF_ne s _ j x hj, fun _ _ => rfl, rfl, rfl, rfl, rfl, fun _ => rfl, rfl, rfl⟩
  | series rd result =>
    obtain ⟨a, -, rfl⟩ := commitV_eq_ok h
    exact ⟨fun _ _ => rfl, fun j hj => readV_writeV_ne s _ j a hj, rfl, rfl, rfl, rfl, fun _ => rfl, rfl, rfl⟩
  | scalarPair ra rb x y =>
    cases h
    refine ⟨fun j hj => ?_, fun _ _ => rfl, rfl, rfl, rfl, rfl, fun _ => rfl, rfl, rfl⟩
    obtain ⟨hra, hrb⟩ := not_or.1 hj
    exact (readF_writeF_ne _ _ j y hrb).trans (readF_writeF_ne s _ j x hra)

/-- The frame of every command. -/
theorem exec_changesOnly {i : Instr} {s t : State} (h : exec i s = .next t) :
    ChangesOnly (writesF (effect i s)) (writesV (effect i s)) s t := by
  rcases exec_cases h with ⟨k, rfl⟩ | ⟨-, u, hu, rfl⟩
  · exact changesOnly_recordFailure _ _ s k
  · exact changesOnly_commit hu

/-- Settles O22: a failure is `recordFailure`, a success leaves `ERR = 0`. -/
theorem failedCommandChangesOnlyStatus : Obligations.FailedCommandChangesOnlyStatus := by
  intro i s t h
  refine ⟨fun hfail => ?_, (exec_changesOnly h).estk⟩
  rcases exec_cases h with ⟨k, rfl⟩ | ⟨-, u, -, rfl⟩
  · exact ⟨k, rfl⟩
  · exact absurd rfl hfail

/-! ## The frame as the host sees it (R56) -/

section Frame

variable {fs vs : Nat → Prop} {s t : State}

/-- A location reads as before unless it is `STATUS`, a register of `fs`, or the length or a coefficient of a buffer of
`vs`. -/
theorem ChangesOnly.readLocation_eq (h : ChangesOnly fs vs s t) {l : Location} (hstatus : l ≠ .status)
    (hf : ∀ i, l = .f i → ¬ fs i) (hlen : ∀ i, l = .vlen i → ¬ vs i) (hcoeff : ∀ i j, l = .coeff i j → ¬ vs i) :
    t.readLocation l = s.readLocation l := by
  cases l with
  | status => exact absurd rfl hstatus
  | id | modulus | root | logmax | cmd | rom => rfl
  | n => simp only [State.readLocation, h.n]
  | e => simp only [State.readLocation, h.e]
  | tlen => simp only [State.readLocation, h.table]
  | vlen i => simp only [State.readLocation, h.readV i (hlen i rfl)]
  | f i => simp only [State.readLocation, h.readF i (hf i rfl)]
  | coeff i j => simp only [State.readLocation, h.readV i (hcoeff i j rfl)]
  | table j => simp only [State.readLocation, State.tableEntry, h.table]

/-- Every address but those of what changed reads as before. -/
theorem ChangesOnly.peek_eq (h : ChangesOnly fs vs s t) {addr : Nat} (hstatus : addr ≠ addressOf reference .status)
    (hf : ∀ i, fs i → addr ≠ addressOf reference (.f i)) (hlen : ∀ i, vs i → addr ≠ addressOf reference (.vlen i))
    (hcoeff : ∀ i j, vs i → j < 2 ^ 24 → addr ≠ addressOf reference (.coeff i j)) : t.peek addr = s.peek addr := by
  cases hl : locate reference addr with
  | none => rw [State.peek, State.peek, hl, Option.bind_none, Option.bind_none]
  | some l =>
    obtain ⟨hex, rfl⟩ := exists_and_addressOf_of_locate hl
    rw [peek_of_locate hl, peek_of_locate hl]
    refine h.readLocation_eq (ne_of_addressOf_ne hl hstatus) ?_ ?_ ?_
    · rintro i rfl hi
      exact hf i hi rfl
    · rintro i rfl hi
      exact hlen i hi rfl
    · rintro i j rfl hi
      obtain ⟨-, hj⟩ := hex
      exact hcoeff i j hi (offsetWidth_reference ▸ hj) rfl

end Frame

/-- Settles O32: each of the five is a scalar effect on `rd`. -/
theorem fieldCommandFrame : Obligations.FieldCommandFrame := by
  intro i rd ra rb s t hi h
  have hframe := exec_changesOnly h
  obtain ⟨result, heffect⟩ : ∃ result, effect i s = .scalar rd result := by
    rcases hi with rfl | rfl | rfl | rfl | rfl <;> exact ⟨_, rfl⟩
  rw [heffect] at hframe
  refine ⟨hframe.readF, hframe.e, hframe.n, fun j => hframe.readV j id, hframe.table, hframe.aerr, hframe.estk,
    hframe.pending, hframe.replies, fun addr hrd hstatus => hframe.peek_eq hstatus ?_ nofun nofun⟩
  rintro j rfl
  exact hrd

/-- Settles O39: BFLY is the one effect on two registers. -/
theorem bflyFrame : Obligations.BflyFrame := by
  intro ra rb rc s t h
  have hframe : ChangesOnly (fun j => j = ra.toNat ∨ j = rb.toNat) (fun _ => False) s t := exec_changesOnly h
  refine ⟨fun j hra hrb => hframe.readF j (not_or.2 ⟨hra, hrb⟩), hframe.e, hframe.n, fun j => hframe.readV j id,
    hframe.table, hframe.aerr, hframe.estk, hframe.pending, hframe.replies,
    fun addr hra hrb hstatus => hframe.peek_eq hstatus ?_ nofun nofun⟩
  rintro j (rfl | rfl)
  · exact hra
  · exact hrb

/-- Settles O58: each of the eight is a series effect on `rd`. -/
theorem seriesCommandFrame : Obligations.SeriesCommandFrame := by
  intro i rd ra rb dir s t hi h
  have hframe := exec_changesOnly h
  obtain ⟨result, heffect⟩ : ∃ result, effect i s = .series rd result := by
    rcases hi with rfl | rfl | rfl | rfl | rfl | rfl | rfl | rfl <;> exact ⟨_, rfl⟩
  rw [heffect] at hframe
  refine ⟨hframe.readV, fun j => hframe.readF j id, hframe.e, hframe.n, hframe.table, hframe.aerr, hframe.estk,
    hframe.pending, hframe.replies, fun addr hlen hcoeff hstatus => hframe.peek_eq hstatus nofun ?_ ?_⟩
  · rintro j rfl
    exact hlen
  · rintro i j rfl hj
    exact hcoeff j hj

end Sys2Proof.Machine.Outcomes
end

/-! # Proofs for spec/20_memory.md R63, R64 and spec/70_reset_and_hazards.md: the step -/

section

namespace Sys2Proof.Machine.Steps

open Sys2Proof Sys2Proof.Machine Sys2Proof.Machine.Laws Sys2Proof.Machine.Scope Sys2Proof.Machine.ArchState
  Sys2Proof.Machine.Encoding Sys2Proof.Machine.AddressMap Sys2Proof.Machine.Outcomes

/-! ## What one event does -/

theorem issue_of_decode_ok {w : Word} {i : Instr} (h : decode w = .ok i) (s : State) : issue w s = exec i s := by
  rw [issue, h]

/-- Everything a write to `CMD` can do: run the command the word decodes to, or fail as an illegal one. -/
theorem issue_cases {w : Word} {s t : State} (h : issue w s = .next t) :
    (∃ i, exec i s = .next t) ∨ t = s.recordFailure .illegalCommand := by
  cases hdec : decode w with
  | ok i => exact .inl ⟨i, (issue_of_decode_ok hdec s).symm.trans h⟩
  | error e =>
    rw [issue_of_decode_error hdec, State.fail, Host.Outcome.next.injEq] at h
    exact .inr h.symm

theorem hostWrite_eq_hostStore {addr : Nat} (h : addr ≠ addressOf reference .cmd) (v : Word) (s : State) :
    hostWrite addr v s = .next (s.hostStore addr v) :=
  if_neg fun hl => ne_of_addressOf_ne hl h rfl

/-- Everything an event can do (R56, R57, R64, R231, R233). -/
theorem perform_cases {ev : HostEvent} {s t : State} (h : perform ev s = .next t) :
    (∃ addr, ev = .read addr ∧ t = s.hostRead addr) ∨ (∃ i, exec i s = .next t) ∨
    t = s.recordFailure .illegalCommand ∨ (∃ addr v, ev = .write addr v ∧ t = s.hostStore addr v) ∨
    ((ev = .reset ∨ ∃ c, ev = .resetDuring c) ∧ t = s.applyReset) := by
  cases ev with
  | read addr => cases h; exact .inl ⟨addr, rfl, rfl⟩
  | write addr v =>
    rw [perform, hostWrite] at h
    split at h
    next =>
      rcases issue_cases h with hexec | hfail
      · exact .inr (.inl hexec)
      · exact .inr (.inr (.inl hfail))
    next => cases h; exact .inr (.inr (.inr (.inl ⟨addr, v, rfl, rfl⟩)))
  | reset => cases h; exact .inr (.inr (.inr (.inr ⟨.inl rfl, rfl⟩)))
  | resetDuring c => cases h; exact .inr (.inr (.inr (.inr ⟨.inr ⟨c, rfl⟩, rfl⟩)))

theorem perform_next (ev : HostEvent) (s : State) : ∃ t, perform ev s = .next t := by
  cases ev with
  | read | reset | resetDuring => exact ⟨_, rfl⟩
  | write addr v =>
    rw [perform, hostWrite]
    split
    · cases hdec : decode v with
      | ok i => rw [issue_of_decode_ok hdec]; exact exec_next i s
      | error e => rw [issue_of_decode_error hdec]; exact ⟨_, rfl⟩
    · exact ⟨_, rfl⟩

/-- A step with no event pending does nothing; else it is the first event. -/
theorem step_cases {s t : State} (h : step s = .next t) :
    (s.pending = [] ∧ t = s) ∨
    ∃ ev rest, s.pending = ev :: rest ∧ perform ev { s with pending := rest } = .next t := by
  cases hp : s.pending with
  | nil =>
    rw [step, advance, hp, Host.Outcome.next.injEq] at h
    exact .inl ⟨rfl, h.symm⟩
  | cons ev rest => exact .inr ⟨ev, rest, rfl, (step_of_pending hp).symm.trans h⟩

theorem step_of_no_event {s : State} (h : s.pending = []) : step s = .next s := by
  rw [step, advance, h]

/-! ## The step of each event -/

/-- Settles O9: the address of `CMD` leads to `CMD`, and `withFetchWord` puts such a write first. -/
theorem stepRunsDecodedCommand : Obligations.StepRunsDecodedCommand := by
  have hrun : ∀ (s : State) (rest : List HostEvent) (w : Word) (i : Instr),
      s.pending = .write cmdAddress w :: rest → decode w = .ok i → step s = exec i { s with pending := rest } := by
    intro s rest w i hp hdec
    rw [step_of_pending hp, perform, hostWrite_cmd, issue_of_decode_ok hdec]
  refine ⟨hrun, fun s nbits w i h => ?_⟩
  have hdec : decode (tableWord nbits w) = .ok i := by
    cases hword : decode (tableWord nbits w) with
    | ok j => rw [decodeTableWord, hword, Option.some.injEq] at h; rw [h]
    | error e => rw [decodeTableWord, hword] at h; cases h
  exact hrun (s.withFetchWord nbits w) s.pending _ i rfl hdec

/-- Settles O10: `perform`, event by event; a write to another address than 5 misses `CMD`. -/
theorem stepPerformsTheNextEvent : Obligations.StepPerformsTheNextEvent := fun _ _ =>
  ⟨step_of_no_event, fun _ hp => step_of_pending hp,
    fun _ v hp haddr => (step_of_pending hp).trans (hostWrite_eq_hostStore haddr v _),
    fun hp => step_of_pending hp, fun _ hp => step_of_pending hp⟩

/-! ## The events still to happen -/

/-- No store touches the events still to happen, and only one to `STATUS` touches the two sticky flags. -/
theorem writeLocation_frame {s t : State} {l : Location} {v : Word} (h : s.writeLocation l v = some t) :
    t.pending = s.pending ∧ (l ≠ .status → t.aerr = s.aerr ∧ t.estk = s.estk) := by
  cases l with
  | status => cases h; exact ⟨rfl, fun hne => absurd rfl hne⟩
  | cmd | n | e => cases h; exact ⟨rfl, fun _ => ⟨rfl, rfl⟩⟩
  | tlen | vlen =>
    simp only [State.writeLocation] at h
    split at h
    · cases h; exact ⟨rfl, fun _ => ⟨rfl, rfl⟩⟩
    · cases h
  | f i =>
    obtain ⟨x, -, rfl⟩ := Option.map_eq_some_iff.1 h
    exact ⟨rfl, fun _ => ⟨rfl, rfl⟩⟩
  | coeff | table =>
    simp only [State.writeLocation] at h
    split at h
    · obtain ⟨x, -, rfl⟩ := Option.map_eq_some_iff.1 h
      exact ⟨rfl, fun _ => ⟨rfl, rfl⟩⟩
    · cases h
  | id | modulus | root | logmax | rom => cases h

theorem hostStore_pending (s : State) (addr : Nat) (v : Word) : (s.hostStore addr v).pending = s.pending := by
  rcases hostStore_cases s addr v with ⟨l, t, -, hw, ht⟩ | hdrop
  · exact ht ▸ (writeLocation_frame hw).1
  · rw [hdrop, recordDropped_pending]

theorem hostRead_pending (s : State) (addr : Nat) : (s.hostRead addr).pending = s.pending := by
  rcases hostRead_cases s addr with ⟨w, -, hr⟩ | ⟨-, hr⟩ <;> rw [hr]

theorem perform_pending {ev : HostEvent} {s t : State} (h : perform ev s = .next t) : t.pending = s.pending := by
  rcases perform_cases h with ⟨addr, -, rfl⟩ | ⟨i, hexec⟩ | rfl | ⟨addr, v, -, rfl⟩ | ⟨-, rfl⟩
  · exact hostRead_pending s addr
  · exact (exec_changesOnly hexec).pending
  · rfl
  · exact hostStore_pending s addr v
  · rfl

/-- Settles O11: an event is taken away and then performed, and performing it touches no other. -/
theorem everyStepAnswersAndTakesOneEvent : Obligations.EveryStepAnswersAndTakesOneEvent := by
  intro s
  cases hp : s.pending with
  | nil => exact ⟨s, step_of_no_event hp, hp⟩
  | cons ev rest =>
    obtain ⟨t, ht⟩ := perform_next ev { s with pending := rest }
    exact ⟨t, (step_of_pending hp).trans ht, perform_pending ht⟩

/-! ## The sticky flags (R36, R37) -/

theorem hostRead_flags (s : State) (addr : Nat) :
    (s.aerr = true → (s.hostRead addr).aerr = true) ∧ (s.estk = true → (s.hostRead addr).estk = true) := by
  rcases hostRead_cases s addr with ⟨w, -, hr⟩ | ⟨-, hr⟩ <;> rw [hr]
  · exact ⟨id, id⟩
  · exact ⟨fun _ => rfl, id⟩

theorem exec_flags {i : Instr} {s t : State} (h : exec i s = .next t) :
    (s.aerr = true → t.aerr = true) ∧ (s.estk = true → t.estk = true) := by
  refine ⟨fun hs => (exec_changesOnly h).aerr.trans hs, fun hs => ?_⟩
  rcases exec_cases h with ⟨k, rfl⟩ | ⟨-, u, -, rfl⟩
  · rfl
  · exact ((exec_changesOnly h).estk rfl).trans hs

/-- A store is a write of `STATUS` at its own address, or it leaves a flag that is set set. -/
theorem hostStore_flags (s : State) (addr : Nat) (v : Word) :
    (addr = 0x04 ∧ s.hostStore addr v = s.clearFlags v) ∨
    ((s.aerr = true → (s.hostStore addr v).aerr = true) ∧ (s.estk = true → (s.hostStore addr v).estk = true)) := by
  rcases hostStore_cases s addr v with ⟨l, t, hl, hw, ht⟩ | hdrop
  · rw [ht]
    by_cases hstatus : l = .status
    · subst hstatus
      exact .inl ⟨(exists_and_addressOf_of_locate hl).2.symm, (Option.some.inj hw).symm⟩
    · obtain ⟨haerr, hestk⟩ := (writeLocation_frame hw).2 hstatus
      exact .inr ⟨haerr.trans, hestk.trans⟩
  · rw [hdrop]
    exact .inr ⟨fun _ => rfl, id⟩

/-- The events that can clear a flag; all others leave a flag that is set set. -/
theorem perform_flags {ev : HostEvent} {s t : State} (h : perform ev s = .next t) :
    (∃ v, ev = .write 0x04 v ∧ t = s.clearFlags v) ∨ (ev = .reset ∨ ∃ c, ev = .resetDuring c) ∨
    ((s.aerr = true → t.aerr = true) ∧ (s.estk = true → t.estk = true)) := by
  rcases perform_cases h with ⟨addr, -, rfl⟩ | ⟨i, hexec⟩ | rfl | ⟨addr, v, rfl, rfl⟩ | ⟨hreset, -⟩
  · exact .inr (.inr (hostRead_flags s addr))
  · exact .inr (.inr (exec_flags hexec))
  · exact .inr (.inr ⟨id, fun _ => rfl⟩)
  · rcases hostStore_flags s addr v with ⟨rfl, hclear⟩ | hkept
    · exact .inl ⟨v, rfl, hclear⟩
    · exact .inr (.inr hkept)
  · exact .inr (.inl hreset)

/-- Everything a step can do to the two flags. -/
theorem step_flags {s t : State} (h : step s = .next t) :
    (∃ rest v, s.pending = .write 0x04 v :: rest ∧ t.aerr = (s.aerr && !v.getLsbD 8) ∧
      t.estk = (s.estk && !v.getLsbD 9)) ∨
    (∃ rest, s.pending = .reset :: rest ∨ ∃ c, s.pending = .resetDuring c :: rest) ∨
    ((s.aerr = true → t.aerr = true) ∧ (s.estk = true → t.estk = true)) := by
  rcases step_cases h with ⟨-, rfl⟩ | ⟨ev, rest, hp, hperform⟩
  · exact .inr (.inr ⟨id, id⟩)
  · rcases perform_flags hperform with ⟨v, rfl, rfl⟩ | hreset | hkept
    · exact .inl ⟨rest, v, hp, rfl, rfl⟩
    · refine .inr (.inl ⟨rest, ?_⟩)
      rcases hreset with rfl | ⟨c, rfl⟩
      · exact .inl hp
      · exact .inr ⟨c, hp⟩
    · exact .inr (.inr hkept)

/-- Settles O21: a set flag survives every event but a reset and a write of its bit to `STATUS`. -/
theorem stickyFlagsClearedOnlyByTheHost : Obligations.StickyFlagsClearedOnlyByTheHost := by
  refine ⟨fun s t h hs ht => ?_, fun s t h hs ht => ?_, fun i s t h => (exec_changesOnly h).aerr⟩
  · rcases step_flags h with ⟨rest, v, hp, haerr, -⟩ | ⟨rest, hreset⟩ | ⟨hkept, -⟩
    · exact ⟨rest, .inl ⟨v, hp, by simpa [hs, ht] using haerr⟩⟩
    · exact ⟨rest, .inr hreset⟩
    · exact absurd (hkept hs) (by simp [ht])
  · rcases step_flags h with ⟨rest, v, hp, -, hestk⟩ | ⟨rest, hreset⟩ | ⟨-, hkept⟩
    · exact ⟨rest, .inl ⟨v, hp, by simpa [hs, ht] using hestk⟩⟩
    · exact ⟨rest, .inr hreset⟩
    · exact absurd (hkept hs) (by simp [ht])

end Sys2Proof.Machine.Steps
end

/-! # Proofs for spec/40_field_alu.md (R96, R101 to R105) and spec/41_ntt.md R130: the scalar commands -/

section

namespace Sys2Proof.Machine.FieldCommands

open Sys2Proof Sys2Proof.Machine Sys2Proof.Machine.Laws Sys2Proof.Machine.Scope Sys2Proof.Machine.ArchState
  Sys2Proof.Machine.FieldAlu Sys2Proof.Machine.Ntt Sys2Proof.Machine.Outcomes

/-- Settles O28: each law is one of the field `ZMod P`. -/
theorem fieldRingLaws : Obligations.FieldRingLaws := by
  intro c x y z
  refine ⟨?_, ?_, ?_, ?_, ?_, ?_, ?_, ?_, ?_, ?_⟩
  all_goals
    apply residue_injective c
    simp only [residue_fadd, residue_fsub, residue_fmul, residue_elem, Nat.cast_zero, Nat.cast_one]
    ring

/-! ## Well-formed operands (R74) -/

theorem two_isF {a b : Index} (ha : a.toNat < 8) (hb : b.toNat < 8) : (isF a && isF b) = true := by
  rw [(isF_iff a).2 ha, (isF_iff b).2 hb, Bool.true_and]

theorem three_isF {a b c : Index} (ha : a.toNat < 8) (hb : b.toNat < 8) (hc : c.toNat < 8) :
    (isF a && isF b && isF c) = true := by
  rw [two_isF ha hb, (isF_iff c).2 hc, Bool.true_and]

/-! ## The commands with one scalar destination -/

theorem exec_scalar {i : Instr} {s : State} {rd : Index} {x : FieldElement} (hw : i.WellFormed)
    (he : effect i s = .scalar rd (.ok x)) : exec i s = .next { s.writeF rd.toNat x with err := 0 } :=
  exec_of_commit_ok hw (by rw [he]; rfl)

theorem exec_scalar_error {i : Instr} {s : State} {rd : Index} {k : FailureKind} (hw : i.WellFormed)
    (he : effect i s = .scalar rd (.error k)) : exec i s = .next { s with err := failureCode k, estk := true } :=
  exec_of_commit_error hw (by rw [he]; rfl)

/-- Settles O29: the ALU answers `fadd`, `fsub` and `fmul`, whose values R91 to R93 give. -/
theorem faddFsubFmulComplete : Obligations.FaddFsubFmulComplete := by
  intro rd ra rb s hrd hra hrb
  have hw := three_isF hrd hra hrb
  exact ⟨⟨_, fadd_val reference _ _, exec_scalar (i := .fadd rd ra rb) hw rfl⟩,
    ⟨_, fsub_val_eq_emod reference _ _, exec_scalar (i := .fsub rd ra rb) hw rfl⟩,
    ⟨_, fmul_val reference _ _, exec_scalar (i := .fmul rd ra rb) hw rfl⟩⟩

/-- Settles O30: the ALU answers `fpow`, which is the power (R94). -/
theorem fpowCompletes : Obligations.FpowCompletes := fun rd ra s hrd hra =>
  ⟨_, fpow_val reference _ _, exec_scalar (i := .fpow rd ra) (s := s) (two_isF hrd hra) rfl⟩

theorem eq_elem_zero_iff (c : Params) (x : Elem c) : x = elem c 0 ↔ x.val = 0 := by
  rw [Fin.ext_iff, elem_zero_val]

/-- Settles O31: the zero test of `finv` decides, and past it the result is the inverse (R95). -/
theorem finvCompletesOrFails : Obligations.FinvCompletesOrFails := by
  intro rd ra s hrd hra
  have hw : (Instr.finv rd ra).WellFormed := two_isF hrd hra
  refine ⟨fun hne => ?_, fun hzero => ?_⟩
  · have hx : s.readF ra.toNat ≠ elem reference 0 := mt (eq_elem_zero_iff _ _).1 hne
    refine ⟨_, ?_, exec_scalar hw (congrArg (Effect.scalar rd) (finv_of_ne_zero hx))⟩
    have hinv := congrArg Fin.val (fmul_fpow_sub_two hx)
    rwa [fmul_val, elem_one_val] at hinv
  · have hx : s.readF ra.toNat = elem reference 0 := (eq_elem_zero_iff _ _).2 hzero
    have halu : alu reference .inv (s.readF ra.toNat) zeroElement 0 = .error .divisionByZero := by
      rw [hx]; exact finv_zero reference
    exact exec_scalar_error hw (congrArg (Effect.scalar rd) halu)

/-! ## BFLY -/

/-- The upper output of a butterfly: the inner product is reduced before the sum is, which changes no residue. -/
theorem butterfly_fst_val (c : Params) (u v w : Elem c) :
    (butterfly c u v w).1.val = (u.val + v.val * w.val) % c.P := by
  rw [butterfly, fadd_val, fmul_val, Nat.add_mod_mod]

theorem butterfly_snd_val (c : Params) (u v w : Elem c) :
    ((butterfly c u v w).2.val : Int) = ((u.val : Int) - v.val * w.val) % (c.P : Int) := by
  rw [butterfly, fsub_val_eq_emod, fmul_val, Int.natCast_mod, Int.sub_emod_emod, Nat.cast_mul]

/-- Settles O38: the write of `F[rb]` comes last, so it prevails. -/
theorem bflyCompletes : Obligations.BflyCompletes := by
  intro ra rb rc s hra hrb hrc
  have hexec := exec_of_commit_ok (i := .bfly ra rb rc) (s := s) (three_isF hra hrb hrc) rfl
  refine ⟨_, _, butterfly_fst_val reference _ _ _, butterfly_snd_val reference _ _ _, hexec, fun t ht => ?_⟩
  rw [hexec, Host.Outcome.next.injEq] at ht
  subst ht
  refine ⟨readF_writeF_same _ _ _ hrb, fun hne => ?_⟩
  have hne' : ra.toNat ≠ rb.toNat := fun heq => hne (BitVec.eq_of_toNat_eq heq)
  exact (readF_writeF_ne _ _ _ _ hne').trans (readF_writeF_same _ _ _ hra)

end Sys2Proof.Machine.FieldCommands
end

/-! # Proofs for spec/70_reset_and_hazards.md R236: the host's table -/

section

namespace Sys2Proof.Machine.HostTable

open Sys2Proof Sys2Proof.Machine Sys2Proof.Machine.Laws Sys2Proof.Machine.FieldAlu Sys2Proof.Machine.Ntt

theorem hostTable_one (c : Params) : hostTable c 1 = [elem c 1] := rfl

theorem hostTable_succ (c : Params) {L : Nat} (hL : L ≠ 0) :
    hostTable c (L + 1) = hostTable c L ++
      [fmul c (fsub c (elem c 0) (elem c (c.P / (L + 1)))) (coef c (hostTable c L) (c.P % (L + 1) - 1))] := by
  rw [hostTable, if_neg hL]

theorem hostTable_length (c : Params) (L : Nat) : (hostTable c L).length = L := by
  induction L with
  | zero => rfl
  | succ L ih =>
    rcases Nat.eq_zero_or_pos L with rfl | hpos
    · rfl
    · rw [hostTable_succ c hpos.ne', List.length_append, ih, List.length_singleton]

/-- A prime leaves a remainder that the table already has an entry for. -/
theorem mod_pos_of_lt {c : Params} {n : Nat} (htwo : 2 ≤ n) (hlt : n < c.P) : 1 ≤ c.P % n :=
  Nat.one_le_iff_ne_zero.2 fun hzero => by
    rcases (Nat.dvd_prime c.prime).1 (Nat.dvd_of_mod_eq_zero hzero) with rfl | rfl <;> omega

theorem residueAt_append_singleton {c : Params} {a : Series c} {n : Nat} (hn : a.length = n) (x : Elem c) :
    residueAt c (a ++ [x]) n = residue c x :=
  residueAt_append_add hn [x] 0

/-- The recurrence of R236: from `P = n * q + r`, `n` times `-q` is `r`, whose inverse is `t`. -/
theorem natCast_mul_neg_div_mul {c : Params} {n : Nat} {t : ZMod c.P} (h : ((c.P % n : Nat) : ZMod c.P) * t = 1) :
    (n : ZMod c.P) * (-((c.P / n : Nat) : ZMod c.P) * t) = 1 := by
  have hdiv : (n : ZMod c.P) * (c.P / n : Nat) + (c.P % n : Nat) = 0 := by
    rw [← Nat.cast_mul, ← Nat.cast_add, Nat.div_add_mod, ZMod.natCast_self]
  linear_combination h - t * hdiv

theorem natCast_mul_residueAt_hostTable (c : Params) {L : Nat} (hL : L < c.P) :
    ∀ i, i < L → ((i + 1 : Nat) : ZMod c.P) * residueAt c (hostTable c L) i = 1 := by
  induction L with
  | zero => exact fun i hi => absurd hi i.not_lt_zero
  | succ L ih =>
    intro i hi
    have hlen := hostTable_length c L
    rcases Nat.eq_zero_or_pos L with rfl | hpos
    · obtain rfl : i = 0 := Nat.lt_one_iff.1 hi
      rw [hostTable_one, residueAt_cons_zero, residue_one, zero_add, Nat.cast_one, one_mul]
    rw [hostTable_succ c hpos.ne']
    rcases Nat.lt_succ_iff_lt_or_eq.1 hi with hlt | rfl
    · rw [residueAt_append_of_lt (hlt.trans_eq hlen.symm)]
      exact ih (by omega) i hlt
    · have hr : 1 ≤ c.P % (i + 1) := mod_pos_of_lt (by omega) hL
      have hrlt : c.P % (i + 1) < i + 1 := Nat.mod_lt _ i.succ_pos
      have hentry := ih (by omega) (c.P % (i + 1) - 1) (by omega)
      rw [Nat.sub_add_cancel hr] at hentry
      rw [residueAt_append_singleton hlen, residue_fmul, residue_fsub, residue_elem, residue_elem, Nat.cast_zero, zero_sub]
      exact natCast_mul_neg_div_mul hentry

/-- An inverse in the field is what `finv` returns. -/
theorem finv_elem_eq_ok {c : Params} {i : Nat} {x : Elem c} (h : (i : ZMod c.P) * residue c x = 1) :
    finv c (elem c i) = .ok x := by
  have : Fact c.P.Prime := fact_prime c
  have hmul : fmul c (elem c i) x = elem c 1 :=
    residue_injective c (by rw [residue_fmul, residue_elem, h, residue_one])
  have hne : elem c i ≠ elem c 0 := ne_zero_of_residue_ne_zero fun hzero => by
    rw [← residue_elem, hzero, zero_mul] at h
    exact zero_ne_one h
  rw [finv_of_ne_zero hne, fmul_left_cancel hne ((fmul_fpow_sub_two hne).trans hmul.symm)]

/-- Settles O46: `CAP` divides `P - 1`, so every index up to it is below `P`. -/
theorem hostTableHoldsTheInverses : Obligations.HostTableHoldsTheInverses := by
  intro c L hL
  have hcap : cap c ≤ c.P - 1 :=
    Nat.le_of_dvd (Nat.sub_pos_of_lt c.prime.one_lt) (two_pow_dvd_of_le_logMax le_rfl)
  have hP := c.prime.one_lt
  have hlen := hostTable_length c L
  refine ⟨hlen, hlen.ge, fun i hpos hi => finv_elem_eq_ok ?_⟩
  have hinv := natCast_mul_residueAt_hostTable c (L := L) (by omega) (i - 1) (by omega)
  rwa [Nat.sub_add_cancel hpos] at hinv

end Sys2Proof.Machine.HostTable
end

/-! # Proofs for spec/45_series_log_exp.md (R174 to R185) and spec/70_reset_and_hazards.md R245: the outcomes of the
logarithm and the exponential, for a table of any entries -/

section

namespace Sys2Proof.Machine.LogExpOutcomes

open Sys2Proof Sys2Proof.Machine Sys2Proof.Machine.Laws Sys2Proof.Machine.FieldAlu Sys2Proof.Machine.Ntt
  Sys2Proof.Machine.Convolver Sys2Proof.Machine.Calculus Sys2Proof.Machine.Inverter Sys2Proof.Machine.LogExp

/-! ## What a logarithm returns (R176) -/

/-- R153 for FieldElements: what an integral that succeeds returns, and what it asked of the table (R154). -/
theorem coef_of_integral {c : Params} {a table r : Series c} (h : integral c a table = .ok r) :
    a.length ≤ table.length ∧ r.length = a.length + 1 ∧ coef c r 0 = elem c 0 ∧
      ∀ i, i < a.length → coef c r (i + 1) = fmul c (coef c a i) (coef c table i) := by
  have hle : a.length ≤ table.length := by
    rcases integral_cases c a table with ⟨-, herr⟩ | ⟨hle, -⟩
    · rw [h] at herr; cases herr
    · exact hle
  obtain ⟨r', hok, hlen, hzero, hcoef⟩ := integral_of_covered hle
  obtain rfl := Except.ok.inj (h.symm.trans hok)
  refine ⟨hle, hlen, hzero, fun i hi => residue_injective c ?_⟩
  rw [residue_fmul]
  exact hcoef i hi

theorem integral_of_short_table {c : Params} {a table : Series c} (h : table.length < a.length) :
    integral c a table = .error .tableTooShort := if_pos h

theorem coef_of_seriesLog {c : Params} {a table l : Series c} {N : Nat} (h : seriesLog c a N table = .ok l) :
    l.length = N ∧ max 1 (N - 1) ≤ table.length ∧ ∃ ia, seriesInverse c a N = .ok ia ∧
      ∀ i, i < N → coef c l i = if i = 0 then elem c 0
        else fmul c (productCoef c (derivative c a) ia (i - 1)) (coef c table (i - 1)) := by
  obtain ⟨-, ia, p, r, hia, hp, hr, rfl⟩ := seriesLog_eq_ok h
  obtain ⟨hN, -⟩ := seriesInverse_eq_ok hia
  obtain ⟨hlenI, -⟩ := inverseMod_of_seriesInverse hia
  obtain ⟨-, rfl⟩ := convolve_derivative_eq_ok hN hlenI hp
  obtain ⟨hle, -, hzero, hcoef⟩ := coef_of_integral hr
  rw [productSeries_length] at hle hcoef
  refine ⟨resize_length .., hle, ia, hia, fun i hi => ?_⟩
  rw [coef_resize, if_pos hi]
  cases i with
  | zero => exact hzero
  | succ i =>
    have hi' : i < max 1 (N - 1) := by omega
    rw [hcoef i hi', coef_productSeries _ _ hi', if_neg i.succ_ne_zero, Nat.add_sub_cancel]

/-- Settles O51: the integral multiplies by the table what the convolution returned. -/
theorem seriesLogClosedForm : Obligations.SeriesLogClosedForm := by
  intro c a table r N h
  obtain ⟨hlen, -, hcoef⟩ := coef_of_seriesLog h
  exact ⟨hlen, hcoef⟩

/-! ## Truncating the source first (R245) -/

theorem coef_derivative_resize {c : Params} {N i : Nat} (a : Series c) (hi : i + 1 < N) :
    coef c (derivative c (resize c a N)) i = coef c (derivative c a) i := by
  apply residue_injective c
  have hkept : residueAt c (resize c a N) (i + 1) = residueAt c a (i + 1) := by
    rw [residueAt, coef_resize, if_pos hi, residueAt]
  have hcut := residueAt_derivative c (resize c a N) i
  rw [hkept, ← residueAt_derivative] at hcut
  exact hcut

/-- A coefficient of a product sees no coefficient of its operands beyond its own index. -/
theorem productCoef_congr_left {c : Params} {a a' : Series c} (b : Series c) {i : Nat}
    (h : ∀ j, j ≤ i → coef c a j = coef c a' j) : productCoef c a b i = productCoef c a' b i := by
  refine congrArg (elem c) (Finset.sum_congr rfl fun j hj => ?_)
  rw [h j (Nat.lt_succ_iff.1 (Finset.mem_range.1 hj))]

/-- Settles O53: the truncated source is no longer than `N`, so its logarithm exists, and the closed form reads only what the
truncation keeps. -/
theorem logOfTruncatedSourceIsTheSame : Obligations.LogOfTruncatedSourceIsTheSame := by
  intro c a table l N h
  obtain ⟨ha, -⟩ := seriesLog_eq_ok h
  obtain ⟨hlen, hT, ia, hia, hcoef⟩ := coef_of_seriesLog h
  obtain ⟨hN, -⟩ := seriesInverse_eq_ok hia
  have hone : coef c (resize c a N) 0 = elem c 1 := by rw [coef_resize, if_pos (Nat.pos_of_ne_zero hN), ha]
  obtain ⟨l', hl'⟩ := exists_seriesLog hN hone (resize_length c a N).le (two_mul_le_of_seriesLog h) hT
  obtain ⟨hlen', -, ia', hia', hcoef'⟩ := coef_of_seriesLog hl'
  obtain rfl : ia' = ia := by rw [seriesInverse_resize, hia] at hia'; exact (Except.ok.inj hia').symm
  rw [hl']
  refine congrArg _ (series_ext c _ _ (hlen'.trans hlen.symm) fun i hi => ?_)
  rw [hlen'] at hi
  rw [hcoef i hi, hcoef' i hi]
  split
  next => rfl
  next hpos =>
    rw [productCoef_congr_left ia' fun j hj => coef_derivative_resize a (show j + 1 < N by omega)]

/-! ## When a logarithm fails (R173 to R176) -/

/-- Past the checks of R172 and R173, with products that fit the transform, only the integral is left to fail. -/
theorem seriesLog_eq_integral {c : Params} {a : Series c} {N : Nat} (table : Series c) (hN : N ≠ 0)
    (ha : coef c a 0 = elem c 1) (hfit : 2 * N ≤ cap c + 2) (hprod : max (a.length - 1) 1 + N - 1 ≤ cap c) :
    ∃ p, p.length = max 1 (N - 1) ∧
      seriesLog c a N table = integral c p table >>= fun r => .ok (resize c r N) := by
  obtain ⟨ia, hia⟩ := exists_seriesInverse_of_two_mul_le hN (ha ▸ elem_one_ne_zero c) hfit
  obtain ⟨hlenI, -⟩ := inverseMod_of_seriesInverse hia
  have hlenD := derivative_length c a
  have hp := convolve_eq_productSeries_of_le (c := c) (a := derivative c a) (b := ia) (nmax := max 1 (N - 1))
    (by omega) (by omega) (by omega) (by omega)
  refine ⟨_, productSeries_length c (derivative c a) ia (max 1 (N - 1)), ?_⟩
  rw [seriesLog, if_neg hN, if_neg (not_not.2 ha), hia]
  simp only [bind, Except.bind, hp]

theorem seriesLog_of_covered {c : Params} {a table : Series c} {N : Nat} (hN : N ≠ 0) (ha : coef c a 0 = elem c 1)
    (hfit : 2 * N ≤ cap c + 2) (hprod : max (a.length - 1) 1 + N - 1 ≤ cap c) (hT : max 1 (N - 1) ≤ table.length) :
    ∃ l, seriesLog c a N table = .ok l := by
  obtain ⟨p, hp, hlog⟩ := seriesLog_eq_integral table hN ha hfit hprod
  obtain ⟨r, hr, -⟩ := integral_of_covered (hp.trans_le hT)
  exact ⟨_, by rw [hlog, hr]; rfl⟩

theorem seriesLog_of_short_table {c : Params} {a table : Series c} {N : Nat} (hN : N ≠ 0) (ha : coef c a 0 = elem c 1)
    (hfit : 2 * N ≤ cap c + 2) (hprod : max (a.length - 1) 1 + N - 1 ≤ cap c) (hT : table.length < max 1 (N - 1)) :
    seriesLog c a N table = .error .tableTooShort := by
  obtain ⟨p, hp, hlog⟩ := seriesLog_eq_integral table hN ha hfit hprod
  have hr : integral c p table = .error .tableTooShort := integral_of_short_table (hT.trans_eq hp.symm)
  rw [hlog, hr]
  rfl

/-- The inversion fails, or the product with the derivative does. -/
theorem seriesLog_of_too_long {c : Params} {a : Series c} {N : Nat} (table : Series c) (hK : 1 ≤ logMax c) (hN : N ≠ 0)
    (ha : coef c a 0 = elem c 1) (hlong : cap c + 2 < 2 * N ∨ cap c < max (a.length - 1) 1 + N - 1) :
    seriesLog c a N table = .error .unsupportedLength := by
  have hne : coef c a 0 ≠ elem c 0 := ha ▸ elem_one_ne_zero c
  have hcap := cap_eq_two_mul hK
  rw [seriesLog, if_neg hN, if_neg (not_not.2 ha)]
  rcases Nat.lt_or_ge (cap c + 2) (2 * N) with hgt | hfit
  · rw [seriesInverse_of_gt hK hne (by omega)]
    rfl
  · obtain ⟨ia, hia⟩ := exists_seriesInverse_of_two_mul_le hN hne hfit
    obtain ⟨hlenI, -⟩ := inverseMod_of_seriesInverse hia
    have hlenD := derivative_length c a
    have hp : convolve c (derivative c a) ia (max 1 (N - 1)) = .error .unsupportedLength :=
      convolve_of_too_long (List.ne_nil_of_length_pos (by omega)) (List.ne_nil_of_length_pos (by omega)) (by omega) _
    rw [hia]
    simp only [bind, Except.bind, hp]

/-- Everything a logarithm of a series with leading coefficient 1 can do at `N >= 1`. -/
theorem seriesLog_cases {c : Params} {a : Series c} {N : Nat} (table : Series c) (hK : 1 ≤ logMax c) (hN : N ≠ 0)
    (ha : coef c a 0 = elem c 1) :
    ((cap c + 2 < 2 * N ∨ cap c < max (a.length - 1) 1 + N - 1) ∧
      seriesLog c a N table = .error .unsupportedLength) ∨
    (2 * N ≤ cap c + 2 ∧ table.length < max 1 (N - 1) ∧ seriesLog c a N table = .error .tableTooShort) ∨
    (2 * N ≤ cap c + 2 ∧ max 1 (N - 1) ≤ table.length ∧ ∃ l, seriesLog c a N table = .ok l) := by
  by_cases hlong : cap c + 2 < 2 * N ∨ cap c < max (a.length - 1) 1 + N - 1
  · exact .inl ⟨hlong, seriesLog_of_too_long table hK hN ha hlong⟩
  · have hfit : 2 * N ≤ cap c + 2 := by omega
    have hprod : max (a.length - 1) 1 + N - 1 ≤ cap c := by omega
    rcases Nat.lt_or_ge table.length (max 1 (N - 1)) with hT | hT
    · exact .inr (.inl ⟨hfit, hT, seriesLog_of_short_table hN ha hfit hprod hT⟩)
    · exact .inr (.inr ⟨hfit, hT, seriesLog_of_covered hN ha hfit hprod hT⟩)

theorem seriesLog_zero (c : Params) (a table : Series c) : seriesLog c a 0 table = .error .badLength := if_pos rfl

theorem seriesLog_of_ne_one {c : Params} {a : Series c} {N : Nat} (table : Series c) (hN : N ≠ 0)
    (ha : coef c a 0 ≠ elem c 1) : seriesLog c a N table = .error .invalidLogInput := by
  rw [seriesLog, if_neg hN, if_pos ha]

/-! ## One step of the exponential (R182)

Whether a step succeeds depends on lengths and leading coefficients alone, not on the entries of the table. -/

/-- `g` has `m` coefficients, the first of them 1. -/
def UnitSeries (c : Params) (m : Nat) (g : Series c) : Prop := g.length = m ∧ coef c g 0 = elem c 1

theorem unitSeries_expUpdate {c : Params} {f g lg : Series c} {n : Nat} (hn : 1 ≤ n) (hf : coef c f 0 = elem c 0)
    (hg : coef c g 0 = elem c 1) (hlen : lg.length = n) (hlg : coef c lg 0 = elem c 0) :
    UnitSeries c n (expUpdate c f g lg n) := by
  refine ⟨expUpdate_length .., coef_zero_of_coeff ?_⟩
  rw [X_pow_dvd_sub_iff.1 (X_pow_dvd_polynomial_expUpdate f g hn hlen) 0 hn, Polynomial.mul_coeff_zero,
    Polynomial.coeff_add, Polynomial.coeff_sub, Polynomial.coeff_one_zero, coeff_polynomial_zero hg,
    coeff_polynomial_zero hf, coeff_polynomial_zero hlg, Nat.cast_zero, sub_zero, add_zero, mul_one]

/-- A step fails as its logarithm does. -/
theorem expStep_of_seriesLog_error {c : Params} {f g table : Series c} {m : Nat} {k : FailureKind}
    (h : seriesLog c (resize c g m) m table = .error k) : expStep c f table m g = .error k := by
  rw [expStep, h]
  rfl

/-- Everything a step from precision `m` to precision `n` can do. -/
theorem expStep_cases {c : Params} {f g : Series c} {m n : Nat} (table : Series c) (hK : 1 ≤ logMax c)
    (hf : coef c f 0 = elem c 0) (hm : 1 ≤ m) (hmn : m < n) (hg : UnitSeries c m g) :
    (cap c + 2 < 2 * n ∧ expStep c f table n g = .error .unsupportedLength) ∨
    (2 * n ≤ cap c + 2 ∧ table.length < n - 1 ∧ expStep c f table n g = .error .tableTooShort) ∨
    (2 * n ≤ cap c + 2 ∧ n - 1 ≤ table.length ∧ ∃ y, expStep c f table n g = .ok y ∧ UnitSeries c n y) := by
  obtain ⟨hlen, hg0⟩ := hg
  have hn : 0 < n := hm.trans hmn.le
  have hone : coef c (resize c g n) 0 = elem c 1 := by rw [coef_resize, if_pos hn, hg0]
  have hlenR := resize_length c g n
  rcases seriesLog_cases table hK hn.ne' hone with ⟨hlong, hlog⟩ | ⟨hfit, hT, hlog⟩ | ⟨hfit, hT, lg, hlog⟩
  · exact .inl ⟨by omega, expStep_of_seriesLog_error hlog⟩
  · exact .inr (.inl ⟨hfit, by omega, expStep_of_seriesLog_error hlog⟩)
  · obtain ⟨hlenL, -, ia, -, hcoef⟩ := coef_of_seriesLog hlog
    have hlg0 : coef c lg 0 = elem c 0 := (hcoef 0 hn).trans (if_pos rfl)
    exact .inr (.inr ⟨hfit, by omega, _, expStep_of_seriesLog hlog hlenL (by omega) (by omega),
      unitSeries_expUpdate hn hf hg0 hlenL hlg0⟩)

/-! ## The exponential (R178 to R185) -/

/-- What the loop has established at precision `m`: the series, and that the steps so far fitted the transform and the
table. -/
structure Reached (c : Params) (table : Series c) (m : Nat) (g : Series c) : Prop where
  unit : UnitSeries c m g
  fits : 2 * m ≤ cap c + 2
  covered : m - 1 ≤ table.length

theorem reached_start (c : Params) (table : Series c) : Reached c table 1 [elem c 1] :=
  ⟨⟨rfl, rfl⟩, Nat.le_add_left 2 _, Nat.zero_le _⟩

section Exponential

variable {c : Params} {f g table : Series c} {m n N : Nat}

theorem reached_expStep {y : Series c} (hK : 1 ≤ logMax c) (hf : coef c f 0 = elem c 0) (hm : 1 ≤ m) (hmn : m < n)
    (hg : Reached c table m g) (h : expStep c f table n g = .ok y) : Reached c table n y := by
  rcases expStep_cases table hK hf hm hmn hg.unit with ⟨-, herr⟩ | ⟨-, -, herr⟩ | ⟨hfit, hT, y', hok, hy⟩
  · rw [h] at herr; cases herr
  · rw [h] at herr; cases herr
  · obtain rfl := Except.ok.inj (h.symm.trans hok)
    exact ⟨hy, hfit, hT⟩

theorem seriesExp_zero (c : Params) (f table : Series c) : seriesExp c f 0 table = .error .badLength := if_pos rfl

theorem seriesExp_of_ne_zero (table : Series c) (hN : N ≠ 0) (hf : coef c f 0 ≠ elem c 0) :
    seriesExp c f N table = .error .invalidExpInput := by
  rw [seriesExp, if_neg hN, if_pos hf]

theorem reached_of_seriesExp (hK : 1 ≤ logMax c) (h : seriesExp c f N table = .ok g) : Reached c table N g := by
  obtain ⟨hN, hf⟩ := seriesExp_eq_ok h
  rw [seriesExp_eq_newton hN hf] at h
  exact newton_ok (fun m x y hm hlt hx hy => reached_expStep hK hf hm (by omega) hx hy) _ 1 _ g le_rfl
    (Nat.one_le_iff_ne_zero.2 hN) (newtonSteps_enough N) (reached_start c table) h

/-- The step from `m` to `min(N, 2m)`, which the loop has reached, fails with the kind `k` (R185). Before `N` the precision
is a power of two. -/
def StepFails (c : Params) (table : Series c) (N : Nat) (k : FailureKind) (m : Nat) : Prop :=
  (∃ j, m = 2 ^ j) ∧ m < N ∧ m - 1 ≤ table.length ∧
    ((cap c + 2 < 2 * min N (2 * m) ∧ k = .unsupportedLength) ∨
      (2 * min N (2 * m) ≤ cap c + 2 ∧ table.length < min N (2 * m) - 1 ∧ k = .tableTooShort))

/-- A failure past the two checks comes from a step. -/
theorem exists_stepFails_of_seriesExp {k : FailureKind} (hK : 1 ≤ logMax c) (hN : N ≠ 0) (hf : coef c f 0 = elem c 0)
    (h : seriesExp c f N table = .error k) : ∃ m, StepFails c table N k m := by
  rw [seriesExp_eq_newton hN hf] at h
  refine newton_error (I := fun m g => Reached c table m g ∧ (m = N ∨ ∃ j, m = 2 ^ j))
    (Q := fun k => ∃ m, StepFails c table N k m) (fun m x y hm hlt ⟨hx, hpow⟩ hy => ?_)
    (fun m x k hm hlt ⟨hx, hpow⟩ hk => ?_) le_rfl ⟨reached_start c table, .inr ⟨0, rfl⟩⟩ h
  · obtain ⟨j, rfl⟩ := hpow.resolve_left hlt.ne
    refine ⟨reached_expStep hK hf hm (by omega) hx hy, (Nat.le_total N (2 * 2 ^ j)).imp Nat.min_eq_left fun hle => ?_⟩
    exact ⟨j + 1, by rw [Nat.min_eq_right hle, pow_succ']⟩
  · refine ⟨m, hpow.resolve_left hlt.ne, hlt, hx.covered, ?_⟩
    rcases expStep_cases table hK hf hm (show m < min N (2 * m) by omega) hx.unit with
      ⟨hlong, herr⟩ | ⟨hfit, hT, herr⟩ | ⟨-, -, y, hok, -⟩
    · exact .inl ⟨hlong, Except.error.inj (hk.symm.trans herr)⟩
    · exact .inr ⟨hfit, hT, Except.error.inj (hk.symm.trans herr)⟩
    · rw [hk] at hok; cases hok

/-- Within the size limit and the table every step succeeds. -/
theorem exists_seriesExp_of_covered (hK : 1 ≤ logMax c) (hN : N ≠ 0) (hf : coef c f 0 = elem c 0)
    (hfit : 2 * N ≤ cap c + 2) (hT : N - 1 ≤ table.length) : ∃ g, seriesExp c f N table = .ok g := by
  cases h : seriesExp c f N table with
  | ok g => exact ⟨g, rfl⟩
  | error k =>
    obtain ⟨m, -, -, -, ⟨hlong, -⟩ | ⟨-, hshort, -⟩⟩ := exists_stepFails_of_seriesExp hK hN hf h <;> omega

theorem seriesExp_of_short_table (hK : 1 ≤ logMax c) (hN : N ≠ 0) (hf : coef c f 0 = elem c 0)
    (hfit : 2 * N ≤ cap c + 2) (hT : table.length < N - 1) : seriesExp c f N table = .error .tableTooShort := by
  cases h : seriesExp c f N table with
  | ok g => exact absurd (reached_of_seriesExp hK h).covered (Nat.not_le.2 hT)
  | error k =>
    obtain ⟨m, -, -, -, ⟨hlong, -⟩ | ⟨-, -, rfl⟩⟩ := exists_stepFails_of_seriesExp hK hN hf h
    · omega
    · rfl

/-- A power of two whose double exceeds `2^K + 1` is `2^K` at least. -/
theorem le_of_lt_two_mul {K j : Nat} (h : 2 ^ K + 1 < 2 * 2 ^ j) : 2 ^ K ≤ 2 ^ j := by
  have hlt : 2 ^ K < 2 ^ (j + 1) := by rw [pow_succ']; omega
  exact Nat.pow_le_pow_right two_pos (Nat.lt_succ_iff.1 ((Nat.pow_lt_pow_iff_right one_lt_two).1 hlt))

/-- Above the size limit a short table is met first: the step to precision `2^(K-1)` precedes the first one without a
transform. -/
theorem seriesExp_of_gt_of_short_table (hK : 1 ≤ logMax c) (hf : coef c f 0 = elem c 0) (hlong : cap c + 2 < 2 * N)
    (hT : table.length < 2 ^ (logMax c - 1) - 1) : seriesExp c f N table = .error .tableTooShort := by
  have hcap := cap_eq_two_mul hK
  cases h : seriesExp c f N table with
  | ok g => exact absurd (reached_of_seriesExp hK h).fits (Nat.not_le.2 hlong)
  | error k =>
    obtain ⟨m, ⟨j, rfl⟩, -, hcov, ⟨hgt, -⟩ | ⟨-, -, rfl⟩⟩ := exists_stepFails_of_seriesExp hK (by omega) hf h
    · have hle : 2 ^ (logMax c - 1) ≤ 2 ^ j := le_of_lt_two_mul (by omega)
      omega
    · rfl

/-- Above the size limit a table that covers the step to `2^(K-1)` covers every step that has a transform: the next
precision is even, so it is not `2^(K-1) + 1`. -/
theorem seriesExp_of_gt_of_covered (hK : 2 ≤ logMax c) (hf : coef c f 0 = elem c 0) (hlong : cap c + 2 < 2 * N)
    (hT : 2 ^ (logMax c - 1) - 1 ≤ table.length) : seriesExp c f N table = .error .unsupportedLength := by
  have hcap := cap_eq_two_mul (one_le_two.trans hK)
  have heven : 2 ^ (logMax c - 1) = 2 * 2 ^ (logMax c - 2) := by
    rw [← pow_succ', show logMax c - 2 + 1 = logMax c - 1 by omega]
  cases h : seriesExp c f N table with
  | ok g => exact absurd (reached_of_seriesExp (one_le_two.trans hK) h).fits (Nat.not_le.2 hlong)
  | error k =>
    obtain ⟨m, -, -, -, ⟨-, rfl⟩ | ⟨hfit, hshort, -⟩⟩ :=
      exists_stepFails_of_seriesExp (one_le_two.trans hK) (by omega) hf h
    · rfl
    · omega

end Exponential

end Sys2Proof.Machine.LogExpOutcomes
end

/-! # Proofs for spec/41_ntt.md R131, spec/42_convolver.md R148, spec/43_calculus.md R152 and R156, spec/44_series_inverter.md
R168, spec/45_series_log_exp.md R177 and R185, spec/46_resize.md R190: the series commands -/

section

namespace Sys2Proof.Machine.SeriesCommands

open Sys2Proof Sys2Proof.Machine Sys2Proof.Machine.Laws Sys2Proof.Machine.Scope Sys2Proof.Machine.ArchState
  Sys2Proof.Machine.FieldAlu Sys2Proof.Machine.Ntt Sys2Proof.Machine.Convolver Sys2Proof.Machine.Calculus
  Sys2Proof.Machine.Inverter Sys2Proof.Machine.LogExp Sys2Proof.Machine.LogExpOutcomes Sys2Proof.Machine.Outcomes
  Sys2Proof.Machine.FieldCommands

/-! ## Well-formed operands (R74), and the commands with one series destination -/

theorem two_isV {a b : Index} (ha : a.toNat < 4) (hb : b.toNat < 4) : (isV a && isV b) = true := by
  rw [(isV_iff a).2 ha, (isV_iff b).2 hb, Bool.true_and]

theorem three_isV {a b c : Index} (ha : a.toNat < 4) (hb : b.toNat < 4) (hc : c.toNat < 4) :
    (isV a && isV b && isV c) = true := by
  rw [two_isV ha hb, (isV_iff c).2 hc, Bool.true_and]

theorem exec_series {i : Instr} {s : State} {rd : Index} {r : CoeffSeries} (hw : i.WellFormed)
    (he : effect i s = .series rd (.ok r)) : exec i s = .next { s.writeV rd.toNat r with err := 0 } :=
  exec_of_commit_ok hw (by rw [he]; rfl)

theorem exec_series_error {i : Instr} {s : State} {rd : Index} {k : FailureKind} (hw : i.WellFormed)
    (he : effect i s = .series rd (.error k)) : exec i s = .next { s with err := failureCode k, estk := true } :=
  exec_of_commit_error hw (by rw [he]; rfl)

/-! ## The numbers of the reference pair (R4 to R6) -/

theorem one_le_logMax_reference : 1 ≤ logMax reference := by rw [logMax_reference]; decide

theorem two_pow_logMax_sub_one_reference : 2 ^ (logMax reference - 1) = 4194304 := by rw [logMax_reference]; norm_num

theorem eq_elem_one_iff (c : Params) (x : Elem c) : x = elem c 1 ↔ x.val = 1 := by
  rw [Fin.ext_iff, elem_one_val]

theorem toNat_ne_zero {n : Word} (h : n ≠ 0) : n.toNat ≠ 0 := fun hzero => h (BitVec.eq_of_toNat_eq hzero)

theorem toNat_eq_zero {n : Word} (h : n = 0) : n.toNat = 0 := congrArg BitVec.toNat h

/-! ## NTT (R131) -/

/-- Settles O40: the two outcomes of `ntt` below `CAP`. -/
theorem nttCompletesOrFails : Obligations.NttCompletesOrFails := by
  intro rd dir s hrd
  have hw : (Instr.ntt rd dir).WellFormed := (isV_iff rd).2 hrd
  refine ⟨fun k hk hlen => ?_, fun hlen => ?_⟩
  · have hok := ntt_two_pow reference _ dir k hlen (hk.trans_eq logMax_reference.symm)
    exact ⟨_, hok, nttEngine_length .., exec_series hw (congrArg (Effect.series rd) hok)⟩
  · have hbad := (transformComputesTheSums reference _ dir).1 hlen
    exact exec_series_error hw (congrArg (Effect.series rd) hbad)

/-! ## CONV (R148) -/

/-- Settles O42: the three outcomes of `convolve`. -/
theorem convCompletesOrFails : Obligations.ConvCompletesOrFails := by
  intro rd ra rb s hrd hra hrb
  have hw : (Instr.conv rd ra rb).WellFormed := three_isV hrd hra hrb
  have hcap := cap_reference
  refine ⟨fun hempty => ?_, fun ha hb hle => ?_, fun ha hb hgt => ?_⟩
  · exact exec_series hw (congrArg (Effect.series rd) (convolve_of_empty hempty s.truncation))
  · have hok := convolve_eq_productSeries ha hb (c := reference) (by omega) s.truncation
    exact ⟨_, hok, productSeries_length .., exec_series hw (congrArg (Effect.series rd) hok)⟩
  · have hlong := convolve_of_too_long ha hb (c := reference) (by omega) s.truncation
    exact exec_series_error hw (congrArg (Effect.series rd) hlong)

/-! ## DERIV and INTEG (R152, R156) -/

/-- Settles O43: `derivative` has no failure. -/
theorem derivCompletes : Obligations.DerivCompletes := by
  intro rd ra s hrd hra
  refine ⟨derivative reference (s.readV ra.toNat), exec_series (i := .deriv rd ra) (two_isV hrd hra) rfl,
    fun hle => ?_, fun hgt => ?_⟩
  · rw [derivative_of_length_le_one hle, zeroElement_eq_elem]
  · have hlen : (derivative reference (s.readV ra.toNat)).length = (s.readV ra.toNat).length - 1 := by
      rw [derivative_length]; omega
    refine ⟨hlen, fun i hi => ?_⟩
    rw [coef_derivative (by omega)]
    exact fmul_val ..

theorem integralToBuffer_of_fits {c : Params} {a : Series c} (table : Series c) (h : a.length < cap c) :
    integralToBuffer c a table = integral c a table := if_neg (Nat.not_lt.2 h)

theorem integralToBuffer_of_full {c : Params} {a : Series c} (table : Series c) (h : cap c ≤ a.length) :
    integralToBuffer c a table = .error .badLength := if_pos (Nat.lt_succ_of_le h)

/-- Settles O44: the check of the destination, then the check of the table. -/
theorem integCompletesOrFails : Obligations.IntegCompletesOrFails := by
  intro rd ra s hrd hra
  have hw : (Instr.integ rd ra).WellFormed := two_isV hrd hra
  have hcap := cap_reference
  refine ⟨fun hlt hT => ?_, fun hge => ?_, fun hlt hT => ?_⟩
  · obtain ⟨r, hr, hlen, hzero, -⟩ := integral_of_covered hT
    obtain ⟨-, -, -, hcoef⟩ := coef_of_integral hr
    have hok := (integralToBuffer_of_fits s.t (hlt.trans_eq hcap.symm)).trans hr
    refine ⟨r, exec_series hw (congrArg (Effect.series rd) hok), hlen, hzero.trans zeroElement_eq_elem.symm,
      fun i hpos hi => ?_⟩
    obtain ⟨j, rfl⟩ := Nat.exists_eq_add_of_le' hpos
    rw [hcoef j (by omega)]
    exact fmul_val ..
  · have hfull := integralToBuffer_of_full s.t (hcap.trans_le hge)
    exact exec_series_error hw (congrArg (Effect.series rd) hfull)
  · have herr := (integralToBuffer_of_fits s.t (hlt.trans_eq hcap.symm)).trans (integral_of_short_table hT)
    exact exec_series_error hw (congrArg (Effect.series rd) herr)

/-! ## SINV (R168) -/

/-- Settles O50: the failures of the inverter in their order, at `K = 23`. -/
theorem sinvCompletesOrFails : Obligations.SinvCompletesOrFails := by
  intro rd ra s hrd hra
  have hw : (Instr.sinv rd ra).WellFormed := two_isV hrd hra
  have hhalf := two_pow_logMax_sub_one_reference
  refine ⟨fun hpos hle hne => ?_, fun hzero => ?_, fun hn hzero => ?_, fun hgt hne => ?_⟩
  · obtain ⟨r, hr⟩ := exists_seriesInverse_of_le one_le_logMax_reference (Nat.one_le_iff_ne_zero.1 hpos)
      (mt (eq_elem_zero_iff _ _).1 hne) (by omega)
    obtain ⟨hlen, -⟩ := inverseMod_of_seriesInverse hr
    exact ⟨r, hr, hlen, exec_series hw (congrArg (Effect.series rd) hr)⟩
  · have herr : seriesInverse reference (s.readV ra.toNat) s.truncation = .error .badLength := by
      rw [State.truncation, toNat_eq_zero hzero, seriesInverse_zero]
    exact exec_series_error hw (congrArg (Effect.series rd) herr)
  · have herr := seriesInverse_of_singular (toNat_ne_zero hn) ((eq_elem_zero_iff reference _).2 hzero)
    exact exec_series_error hw (congrArg (Effect.series rd) herr)
  · have herr := seriesInverse_of_gt one_le_logMax_reference (mt (eq_elem_zero_iff _ _).1 hne) (N := s.n.toNat) (by omega)
    exact exec_series_error hw (congrArg (Effect.series rd) herr)

/-! ## SLOG (R177) -/

/-- Settles O52: the two checks, then the lengths, then the table. -/
theorem slogCompletesOrFails : Obligations.SlogCompletesOrFails := by
  intro rd ra s hrd hra
  have hw : (Instr.slog rd ra).WellFormed := two_isV hrd hra
  have hcap := cap_reference
  refine ⟨fun hpos hle hone hprod hT => ?_, fun hzero => ?_, fun hn hne => ?_, fun hn hone hlong => ?_,
    fun hpos hle hone hprod hT => ?_⟩
  · obtain ⟨r, hr⟩ := seriesLog_of_covered (Nat.one_le_iff_ne_zero.1 hpos) ((eq_elem_one_iff reference _).2 hone)
      (by omega) (by omega) hT
    obtain ⟨hlen, -⟩ := coef_of_seriesLog hr
    exact ⟨r, hr, hlen, exec_series hw (congrArg (Effect.series rd) hr)⟩
  · have herr : seriesLog reference (s.readV ra.toNat) s.truncation s.t = .error .badLength := by
      rw [State.truncation, toNat_eq_zero hzero, seriesLog_zero]
    exact exec_series_error hw (congrArg (Effect.series rd) herr)
  · have herr := seriesLog_of_ne_one s.t (toNat_ne_zero hn) (mt (eq_elem_one_iff reference _).1 hne)
    exact exec_series_error hw (congrArg (Effect.series rd) herr)
  · have herr := seriesLog_of_too_long s.t one_le_logMax_reference (toNat_ne_zero hn)
      ((eq_elem_one_iff reference _).2 hone) (by omega)
    exact exec_series_error hw (congrArg (Effect.series rd) herr)
  · have herr := seriesLog_of_short_table (Nat.one_le_iff_ne_zero.1 hpos) ((eq_elem_one_iff reference _).2 hone)
      (by omega) (by omega) hT
    exact exec_series_error hw (congrArg (Effect.series rd) herr)

/-! ## SEXP (R185, R186) -/

/-- Settles O54: the two checks, then the first step of the loop that fails. -/
theorem sexpCompletesOrFails : Obligations.SexpCompletesOrFails := by
  intro rd ra s hrd hra
  have hw : (Instr.sexp rd ra).WellFormed := two_isV hrd hra
  have hcap := cap_reference
  have hK := one_le_logMax_reference
  have hhalf := two_pow_logMax_sub_one_reference
  refine ⟨fun hpos hle hzero hT => ?_, fun hn => ?_, fun hn hne => ?_, fun hpos hle hzero hT => ?_,
    fun hgt hzero hT => ?_, fun hgt hzero hT => ?_⟩
  · obtain ⟨r, hr⟩ := exists_seriesExp_of_covered hK (Nat.one_le_iff_ne_zero.1 hpos)
      ((eq_elem_zero_iff reference _).2 hzero) (by omega) hT
    obtain ⟨hlen, hone⟩ := (reached_of_seriesExp hK hr).unit
    exact ⟨r, hr, hlen, (eq_elem_one_iff _ _).1 hone, exec_series hw (congrArg (Effect.series rd) hr)⟩
  · have herr : seriesExp reference (s.readV ra.toNat) s.truncation s.t = .error .badLength := by
      rw [State.truncation, toNat_eq_zero hn, seriesExp_zero]
    exact exec_series_error hw (congrArg (Effect.series rd) herr)
  · have herr := seriesExp_of_ne_zero s.t (toNat_ne_zero hn) (mt (eq_elem_zero_iff reference _).1 hne)
    exact exec_series_error hw (congrArg (Effect.series rd) herr)
  · have herr := seriesExp_of_short_table hK (Nat.one_le_iff_ne_zero.1 hpos) ((eq_elem_zero_iff reference _).2 hzero)
      (by omega) hT
    exact exec_series_error hw (congrArg (Effect.series rd) herr)
  · have herr := seriesExp_of_gt_of_short_table hK ((eq_elem_zero_iff reference _).2 hzero) (N := s.n.toNat)
      (table := s.t) (by omega) (by omega)
    exact exec_series_error hw (congrArg (Effect.series rd) herr)
  · have hK2 : 2 ≤ logMax reference := by rw [logMax_reference]; decide
    have herr := seriesExp_of_gt_of_covered hK2 ((eq_elem_zero_iff reference _).2 hzero) (N := s.n.toNat)
      (table := s.t) (by omega) (by omega)
    exact exec_series_error hw (congrArg (Effect.series rd) herr)

/-! ## VRSZ (R190) -/

theorem resizeToBuffer_of_le {c : Params} (a : Series c) {N : Nat} (h : N ≤ cap c) :
    resizeToBuffer c a N = .ok (resize c a N) := if_neg (Nat.not_lt.2 h)

theorem resizeToBuffer_of_gt {c : Params} (a : Series c) {N : Nat} (h : cap c < N) :
    resizeToBuffer c a N = .error .badLength := if_pos h

/-- Settles O57: the check of `N`, then `resize`. -/
theorem vrszCompletesOrFails : Obligations.VrszCompletesOrFails := by
  intro rd ra s hrd hra
  have hw : (Instr.vrsz rd ra).WellFormed := two_isV hrd hra
  refine ⟨fun hle => ?_, fun hgt => ?_⟩
  · have hok := resizeToBuffer_of_le (s.readV ra.toNat) (hle.trans_eq cap_reference.symm)
    refine ⟨_, exec_series hw (congrArg (Effect.series rd) hok), resize_length .., fun i hi => ?_⟩
    rw [getElem?_resize hi, coef, zeroElement_eq_elem]
  · have herr := resizeToBuffer_of_gt (s.readV ra.toNat) (cap_reference.trans_lt hgt)
    exact exec_series_error hw (congrArg (Effect.series rd) herr)

end Sys2Proof.Machine.SeriesCommands
end

/-! # Proofs for spec/10_state.md section 5 (R20, R25, R27, R41) and spec/60_exceptions.md (R201, R210): the invariant of the
state and the failures of each command -/

section

namespace Sys2Proof.Machine.Invariant

open Sys2Proof Sys2Proof.Machine Sys2Proof.Machine.Laws Sys2Proof.Machine.Scope Sys2Proof.Machine.ArchState
  Sys2Proof.Machine.FieldAlu Sys2Proof.Machine.Ntt Sys2Proof.Machine.Convolver Sys2Proof.Machine.Inverter
  Sys2Proof.Machine.LogExp Sys2Proof.Machine.LogExpOutcomes Sys2Proof.Machine.Outcomes Sys2Proof.Machine.Steps
  Sys2Proof.Machine.SeriesCommands

/-! ## No engine returns more than `CAP` coefficients -/

section Lengths

variable {c : Params} {a b table r : Series c} {N : Nat}

theorem one_le_cap (c : Params) : 1 ≤ cap c := Nat.one_le_two_pow

theorem ntt_length_le {dir : Direction} (h : ntt c a dir = .ok r) : r.length ≤ cap c := by
  rcases ntt_cases c a dir with ⟨-, herr⟩ | ⟨s, -, -, herr⟩ | ⟨s, -, hs, hok⟩
  · rw [h] at herr; cases herr
  · rw [h] at herr; cases herr
  · obtain rfl := Except.ok.inj (h.symm.trans hok)
    exact (nttEngine_length ..).trans_le (Nat.pow_le_pow_right two_pos hs)

theorem convolve_length_le (h : convolve c a b N = .ok r) : r.length ≤ cap c := by
  rcases convolve_cases c a b N with ⟨-, hok⟩ | ⟨-, -, -, herr⟩ | ⟨ha, hb, hfit, -⟩
  · obtain rfl := Except.ok.inj (h.symm.trans hok)
    exact Nat.zero_le _
  · rw [h] at herr; cases herr
  · exact (convolve_length h ha hb).trans_le ((Nat.min_le_right _ _).trans hfit)

theorem derivative_length_le (h : a.length ≤ cap c) : (derivative c a).length ≤ cap c := by
  have hcap := one_le_cap c
  rw [derivative_length]
  omega

theorem integralToBuffer_length_le (h : integralToBuffer c a table = .ok r) : r.length ≤ cap c := by
  rcases Nat.lt_or_ge a.length (cap c) with hlt | hge
  · rw [integralToBuffer_of_fits table hlt] at h
    obtain ⟨-, hlen, -⟩ := coef_of_integral h
    exact hlen.trans_le hlt
  · rw [integralToBuffer_of_full table hge] at h; cases h

theorem seriesInverse_length_le (hK : 1 ≤ logMax c) (h : seriesInverse c a N = .ok r) : r.length ≤ cap c := by
  obtain ⟨hlen, -⟩ := inverseMod_of_seriesInverse h
  have hle := le_of_seriesInverse hK h
  have hcap := cap_eq_two_mul hK
  have hpos := Nat.two_pow_pos (logMax c - 1)
  omega

theorem length_le_of_two_mul_le (hlen : r.length = N) (hfit : 2 * N ≤ cap c + 2) : r.length ≤ cap c := by
  have hcap := one_le_cap c
  omega

theorem seriesLog_length_le (h : seriesLog c a N table = .ok r) : r.length ≤ cap c :=
  length_le_of_two_mul_le (coef_of_seriesLog h).1 (two_mul_le_of_seriesLog h)

theorem seriesExp_length_le (hK : 1 ≤ logMax c) (h : seriesExp c a N table = .ok r) : r.length ≤ cap c :=
  have hreached := reached_of_seriesExp hK h
  length_le_of_two_mul_le hreached.unit.1 hreached.fits

theorem resizeToBuffer_length_le (h : resizeToBuffer c a N = .ok r) : r.length ≤ cap c := by
  rcases Nat.lt_or_ge (cap c) N with hgt | hle
  · rw [resizeToBuffer_of_gt a hgt] at h; cases h
  · rw [resizeToBuffer_of_le a hle, Except.ok.injEq] at h
    rw [← h, resize_length]
    exact hle

end Lengths

/-! ## The invariant (R20, R25, R27) -/

/-- A series that an effect writes fits a buffer. -/
def FitsBuffer : Effect → Prop
  | .series _ (.ok a) => a.length ≤ cap reference
  | _ => True

/-- The series effect of a result that fits whenever there is one. -/
theorem fitsBuffer_series {rd : Index} {result : Except FailureKind CoeffSeries}
    (h : ∀ a, result = .ok a → a.length ≤ cap reference) : FitsBuffer (.series rd result) := by
  cases result with
  | ok a => exact h a rfl
  | error k => trivial

theorem effect_fitsBuffer {s : State} (hs : s.Inv) (i : Instr) : FitsBuffer (effect i s) := by
  cases i with
  | fadd | fsub | fmul | fpow | finv | bfly => trivial
  | ntt rd dir => exact fitsBuffer_series fun _ => ntt_length_le
  | conv rd ra rb => exact fitsBuffer_series fun _ => convolve_length_le
  | deriv rd ra => exact derivative_length_le (hs.buffers ra.toNat)
  | integ rd ra => exact fitsBuffer_series fun _ => integralToBuffer_length_le
  | sinv rd ra => exact fitsBuffer_series fun _ => seriesInverse_length_le one_le_logMax_reference
  | slog rd ra => exact fitsBuffer_series fun _ => seriesLog_length_le
  | sexp rd ra => exact fitsBuffer_series fun _ => seriesExp_length_le one_le_logMax_reference
  | vrsz rd ra => exact fitsBuffer_series fun _ => resizeToBuffer_length_le

theorem commit_inv {e : Effect} {s u : State} (hs : s.Inv) (he : FitsBuffer e) (h : e.commit s = .ok u) : u.Inv := by
  cases e with
  | scalar rd result =>
    obtain ⟨x, -, rfl⟩ := commitF_eq_ok h
    exact writeF_inv hs _ x
  | series rd result =>
    obtain ⟨a, rfl, rfl⟩ := commitV_eq_ok h
    exact writeV_inv hs _ a he
  | scalarPair ra rb x y =>
    cases h
    exact writeF_inv (writeF_inv hs _ x) _ y

theorem exec_inv {i : Instr} {s t : State} (hs : s.Inv) (h : exec i s = .next t) : t.Inv := by
  rcases exec_cases h with ⟨k, rfl⟩ | ⟨-, u, hu, rfl⟩
  · exact recordFailure_inv hs k
  · exact recordSuccess_inv (commit_inv hs (effect_fitsBuffer hs i) hu)

/-- Settles O13: every buffer and the table are empty after reset. -/
theorem resetHasTheInvariant : Obligations.ResetHasTheInvariant := by
  refine ⟨fun i => ?_, Nat.zero_le _, by decide⟩
  have hempty : State.reset.readV i = [] := by
    unfold State.readV SeriesBufs.get
    split <;> rfl
  rw [hempty]
  exact Nat.zero_le _

theorem applyReset_inv (s : State) : s.applyReset.Inv := by
  obtain ⟨hbuffers, htable, hcode⟩ := resetHasTheInvariant
  exact ⟨hbuffers, htable, hcode⟩

theorem perform_inv {ev : HostEvent} {s t : State} (hs : s.Inv) (h : perform ev s = .next t) : t.Inv := by
  rcases perform_cases h with ⟨addr, -, rfl⟩ | ⟨i, hexec⟩ | rfl | ⟨addr, v, -, rfl⟩ | ⟨-, rfl⟩
  · exact hostRead_inv hs addr
  · exact exec_inv hs hexec
  · exact recordFailure_inv hs _
  · exact hostStore_inv hs addr v
  · exact applyReset_inv s

/-- Settles O14: an event is taken from the list, which the invariant does not read, and then performed. -/
theorem everyStepKeepsTheInvariant : Obligations.EveryStepKeepsTheInvariant := by
  intro s t hs h
  rcases step_cases h with ⟨-, rfl⟩ | ⟨ev, rest, -, hperform⟩
  · exact hs
  · exact perform_inv (s := { s with pending := rest }) ⟨hs.buffers, hs.table, hs.code⟩ hperform

/-! ## The failures of each engine (R202 to R208) -/

section Failures

variable {c : Params} {a b table : Series c} {N : Nat} {k : FailureKind}

theorem finv_error {x : Elem c} (h : finv c x = .error k) : k = .divisionByZero := by
  rcases finv_cases c x with ⟨-, herr⟩ | ⟨-, hok⟩
  · exact Except.error.inj (h.symm.trans herr)
  · rw [h] at hok; cases hok

/-- No series that a buffer can hold is too long for a transform. -/
theorem ntt_error {dir : Direction} (ha : a.length ≤ cap c) (h : ntt c a dir = .error k) : k = .badLength := by
  rcases ntt_cases c a dir with ⟨-, herr⟩ | ⟨s, hlen, hs, -⟩ | ⟨s, -, -, hok⟩
  · exact Except.error.inj (h.symm.trans herr)
  · have hgt : cap c < 2 ^ s := Nat.pow_lt_pow_right one_lt_two hs
    omega
  · rw [h] at hok; cases hok

theorem convolve_error (h : convolve c a b N = .error k) : k = .unsupportedLength := by
  rcases convolve_cases c a b N with ⟨-, hok⟩ | ⟨-, -, -, herr⟩ | ⟨-, -, -, s, r, -, -, -, -, hok⟩
  · rw [h] at hok; cases hok
  · exact Except.error.inj (h.symm.trans herr)
  · rw [h] at hok; cases hok

theorem integralToBuffer_error (h : integralToBuffer c a table = .error k) : k = .badLength ∨ k = .tableTooShort := by
  rcases Nat.lt_or_ge a.length (cap c) with hlt | hge
  · rw [integralToBuffer_of_fits table hlt] at h
    rcases integral_cases c a table with ⟨-, herr⟩ | ⟨-, hok, -⟩
    · exact .inr (Except.error.inj (h.symm.trans herr))
    · rw [h] at hok; cases hok
  · exact .inl (Except.error.inj (h.symm.trans (integralToBuffer_of_full table hge)))

theorem seriesInverse_error_kind (h : seriesInverse c a N = .error k) :
    k = .badLength ∨ k = .singularInversion ∨ k = .unsupportedLength := by
  by_cases hN : N = 0
  · subst hN
    exact .inl (Except.error.inj (h.symm.trans (seriesInverse_zero c a)))
  by_cases ha : coef c a 0 = elem c 0
  · exact .inr (.inl (Except.error.inj (h.symm.trans (seriesInverse_of_singular hN ha))))
  · exact .inr (.inr (seriesInverse_error hN ha h).1)

theorem seriesLog_error_kind (hK : 1 ≤ logMax c) (h : seriesLog c a N table = .error k) :
    k = .badLength ∨ k = .invalidLogInput ∨ k = .unsupportedLength ∨ k = .tableTooShort := by
  by_cases hN : N = 0
  · subst hN
    exact .inl (Except.error.inj (h.symm.trans (seriesLog_zero c a table)))
  by_cases ha : coef c a 0 = elem c 1
  · rcases seriesLog_cases table hK hN ha with ⟨-, herr⟩ | ⟨-, -, herr⟩ | ⟨-, -, l, hok⟩
    · exact .inr (.inr (.inl (Except.error.inj (h.symm.trans herr))))
    · exact .inr (.inr (.inr (Except.error.inj (h.symm.trans herr))))
    · rw [h] at hok; cases hok
  · exact .inr (.inl (Except.error.inj (h.symm.trans (seriesLog_of_ne_one table hN ha))))

theorem seriesExp_error_kind (hK : 1 ≤ logMax c) (h : seriesExp c a N table = .error k) :
    k = .badLength ∨ k = .invalidExpInput ∨ k = .unsupportedLength ∨ k = .tableTooShort := by
  by_cases hN : N = 0
  · subst hN
    exact .inl (Except.error.inj (h.symm.trans (seriesExp_zero c a table)))
  by_cases ha : coef c a 0 = elem c 0
  · obtain ⟨m, -, -, -, ⟨-, rfl⟩ | ⟨-, -, rfl⟩⟩ := exists_stepFails_of_seriesExp hK hN ha h
    · exact .inr (.inr (.inl rfl))
    · exact .inr (.inr (.inr rfl))
  · exact .inr (.inl (Except.error.inj (h.symm.trans (seriesExp_of_ne_zero table hN ha))))

theorem resizeToBuffer_error (h : resizeToBuffer c a N = .error k) : k = .badLength := by
  rcases Nat.lt_or_ge (cap c) N with hgt | hle
  · exact Except.error.inj (h.symm.trans (resizeToBuffer_of_gt a hgt))
  · rw [resizeToBuffer_of_le a hle] at h; cases h

end Failures

/-! ## The table of R210 -/

theorem commitF_eq_error {s : State} {rd : Index} {r : Except FailureKind FieldElement} {k : FailureKind}
    (h : commitF s rd r = .error k) : r = .error k := by
  cases r with
  | ok x => cases h
  | error k' => rw [commitF_error, Except.error.injEq] at h; rw [h]

theorem commitV_eq_error {s : State} {rd : Index} {r : Except FailureKind CoeffSeries} {k : FailureKind}
    (h : commitV s rd r = .error k) : r = .error k := by
  cases r with
  | ok a => cases h
  | error k' => rw [commitV_error, Except.error.injEq] at h; rw [h]

theorem mem_failuresOf {i : Instr} {s : State} {k : FailureKind} (hs : s.Inv)
    (h : (effect i s).commit s = .error k) : k ∈ failuresOf i := by
  have hK := one_le_logMax_reference
  cases i with
  | fadd | fsub | fmul | fpow | bfly | deriv => cases h
  | finv rd ra => exact List.mem_singleton.2 (finv_error (commitF_eq_error h))
  | ntt rd dir => exact List.mem_singleton.2 (ntt_error (hs.buffers rd.toNat) (commitV_eq_error h))
  | conv rd ra rb => exact List.mem_singleton.2 (convolve_error (commitV_eq_error h))
  | integ rd ra => simpa [failuresOf] using integralToBuffer_error (commitV_eq_error h)
  | sinv rd ra => simpa [failuresOf] using seriesInverse_error_kind (commitV_eq_error h)
  | slog rd ra => simpa [failuresOf] using seriesLog_error_kind hK (commitV_eq_error h)
  | sexp rd ra => simpa [failuresOf] using seriesExp_error_kind hK (commitV_eq_error h)
  | vrsz rd ra => exact List.mem_singleton.2 (resizeToBuffer_error (commitV_eq_error h))

/-- Settles O23: a well-formed command fails with the kind of its engine. -/
theorem commandReportsOnlyItsFailures : Obligations.CommandReportsOnlyItsFailures := by
  intro i s t hs hw h hfail
  rw [exec_eq_command_effect] at h
  rcases command_cases h with ⟨hill, -⟩ | ⟨-, k, hk, rfl⟩ | ⟨-, u, -, rfl⟩
  · exact absurd hw hill
  · exact ⟨k, mem_failuresOf hs hk, rfl⟩
  · exact absurd rfl hfail

end Sys2Proof.Machine.Invariant
end
